-- ==== Sys2Proof/Word.lean ====
section
/-! DEFINITION. The widths of CRCSTUFF's values (00_scope.md R8, R9, R11 to R13) as plain names. -/

namespace Sys2Proof

/-- One byte of a buffer (R12). -/
abbrev Byte := BitVec 8

/-- One 32-bit word of the host's data bus, `DATA_BITS` (R9). -/
abbrev Word := BitVec 32

/-- A byte address on the host port, `ADDR_BITS` (R9). -/
abbrev Addr := BitVec 16

/-- A frame, `FRAME_BITS` wide, its first bit at index 99 (R13). -/
abbrev Frame := BitVec 100

/-- A CRC code, `CRC_BITS` wide, and every other 16-bit register (R8, 10_state.md R20). -/
abbrev Half := BitVec 16

/-- The 49 bits of information of one bus transaction (30_encoding.md R90, format BUS). -/
abbrev BusWord := BitVec 49

end Sys2Proof
end

