-- ==== Sys2Proof/Syntax.lean ====
section
/-! DEFINITION. The instructions: one constructor per row of spec/opcode_table.json. -/

namespace Sys2Proof

/-- What the host can present to the block (30_encoding.md R90, R91). Format CMD has no operand
fields; format BUS carries a byte address and, for a write, 32 bits of data. -/
inductive Instr where
  /-- NOP, opcode 0x00 (42_bus_and_command.md R181). -/
  | nop
  /-- CRC_GEN, opcode 0x01 (40_crc.md R120). -/
  | crcGen
  /-- CRC_VERIFY, opcode 0x02 (40_crc.md R121). -/
  | crcVerify
  /-- STUFF, opcode 0x10 (41_stuff.md R160). -/
  | stuff
  /-- DESTUFF, opcode 0x11 (41_stuff.md R161). -/
  | destuff
  /-- RESERVED, any other opcode (30_encoding.md R92, 42_bus_and_command.md R182). -/
  | reserved (op : Byte)
  /-- BusRead(addr) (42_bus_and_command.md R170). -/
  | busRead (addr : Addr)
  /-- BusWrite(addr, v) (42_bus_and_command.md R171). -/
  | busWrite (addr : Addr) (v : Word)
  deriving DecidableEq, Repr

/-- The opcodes that can be pending (10_state.md R20, R42): a command the block has accepted. -/
inductive Command where
  | crcGen
  | crcVerify
  | stuff
  | destuff
  deriving DecidableEq, Repr

end Sys2Proof
end

