-- ==== Sys2Proof/WellFormed.lean ====
section
/-! DEFINITION. Which instructions have an encoding of their own. -/

namespace Sys2Proof

/-- The opcodes R91 of 30_encoding.md assigns; every other value is reserved (R92). -/
def assignedOp (op : Byte) : Bool :=
  op == 0x00#8 || op == 0x01#8 || op == 0x02#8 || op == 0x10#8 || op == 0x11#8

/-- The address of CMD, offset 0x0008, with its two low bits ignored (R90, 20_memory.md R69). -/
def isCmdAddr (a : Addr) : Bool := (a &&& 0xFFFC#16) == 0x0008#16

/-- A reserved opcode is none of the assigned ones (R92), and a write to CMD is a command and not
a plain bus write (R90). Every other instruction is well formed. -/
def Instr.wf : Instr → Bool
  | .nop => true
  | .crcGen => true
  | .crcVerify => true
  | .stuff => true
  | .destuff => true
  | .reserved op => !assignedOp op
  | .busRead _ => true
  | .busWrite addr _ => !isCmdAddr addr

end Sys2Proof
end

