-- ==== Sys2Proof/Decode.lean ====
section
/-! DEFINITION. The decoder, the encoder after it, and the host's decodeTableWord.

A bus transaction is 49 bits of information (30_encoding.md R90), packed here as wr ++ addr ++ data
(log 9). Format CMD is the 32-bit data word of a write to CMD. As bytes, least significant first, a
CMD word is 4 bytes and a bus transaction 7, the 7 bits above bit 48 zero (log 9). -/

namespace Sys2Proof

/-! ### The fields of a bus transaction -/

/-- `wr`: 1 is BusWrite, 0 is BusRead (R90). -/
def busWr (t : BusWord) : Bool := t.getLsbD 48

/-- `addr`: the byte address (R90). -/
def busAddr (t : BusWord) : Addr := t.extractLsb' 32 16

/-- `data`: the write data (R90). -/
def busData (t : BusWord) : Word := t.extractLsb' 0 32

/-- A write transaction. -/
def busWriteWord (addr : Addr) (v : Word) : BusWord := (1#1 ++ addr ++ v).cast rfl

/-- A read transaction: R90 gives it no data, and its data bits are 0. -/
def busReadWord (addr : Addr) : BusWord := (0#1 ++ addr ++ 0#32).cast rfl

/-- CMD.op, bits 7:0 of the CMD word (R90, R91). -/
def cmdOp (v : Word) : Byte := v.extractLsb' 0 8

/-! ### Decoding -/

/-- The opcode map (R91); every other value is reserved (R92). -/
def decodeOp (op : Byte) : Instr :=
  if op = 0x00#8 then .nop
  else if op = 0x01#8 then .crcGen
  else if op = 0x02#8 then .crcVerify
  else if op = 0x10#8 then .stuff
  else if op = 0x11#8 then .destuff
  else .reserved op

/-- Format CMD: the match is on bits 7:0 alone, bits 31:8 are ignored (R91, R93). -/
def decodeCmd (v : Word) : Instr := decodeOp (cmdOp v)

/-- A transaction on the bus port. A write to CMD is the command its data carries (R90). Total: the
port's signals always are some transaction. -/
def decodeBus (t : BusWord) : Instr :=
  if busWr t then
    if isCmdAddr (busAddr t) then decodeCmd (busData t) else .busWrite (busAddr t) (busData t)
  else .busRead (busAddr t)

/-- Why a list of bytes is no instruction. -/
inductive DecodeError where
  /-- Neither the 4 bytes of a CMD word nor the 7 bytes of a bus transaction (R90: "two operation
  formats, and only two"). -/
  | badLength (bytes : Nat)
  /-- A bus transaction whose bits above bit 48 are not all 0 (R90: 49 bits of information). -/
  | strayBits (top : Byte)
  deriving DecidableEq, Repr

/-- The bits of a transaction from its 7 bytes, least significant first (log 9). -/
def busWordOfBytes (b0 b1 b2 b3 b4 b5 b6 : Byte) : BusWord :=
  (b6.extractLsb' 0 1 ++ b5 ++ b4 ++ b3 ++ b2 ++ b1 ++ b0).cast rfl

/-- Any bytes: an instruction, or a rejection by name. -/
def decode : List Byte → Except DecodeError Instr
  | [b0, b1, b2, b3] => .ok (decodeCmd ((b3 ++ b2 ++ b1 ++ b0).cast rfl))
  | [b0, b1, b2, b3, b4, b5, b6] =>
    if b6.extractLsb' 1 7 = 0#7 then .ok (decodeBus (busWordOfBytes b0 b1 b2 b3 b4 b5 b6))
    else .error (.strayBits b6)
  | bytes => .error (.badLength bytes.length)

/-! ### Encoding -/

/-- The opcode of a command (R91); none for a bus transaction. -/
def opOf : Instr → Option Byte
  | .nop => some 0x00#8
  | .crcGen => some 0x01#8
  | .crcVerify => some 0x02#8
  | .stuff => some 0x10#8
  | .destuff => some 0x11#8
  | .reserved op => some op
  | .busRead _ => none
  | .busWrite _ _ => none

/-- The CMD word of an opcode: bits 31:8 as a host program writes them, 0 (R90, R93). -/
def cmdWord (op : Byte) : Word := op.setWidth 32

/-- The transaction that presents an instruction: a command is a write to CMD at 0x0008 (R90). -/
def encodeBus : Instr → BusWord
  | .nop => busWriteWord 0x0008#16 (cmdWord 0x00#8)
  | .crcGen => busWriteWord 0x0008#16 (cmdWord 0x01#8)
  | .crcVerify => busWriteWord 0x0008#16 (cmdWord 0x02#8)
  | .stuff => busWriteWord 0x0008#16 (cmdWord 0x10#8)
  | .destuff => busWriteWord 0x0008#16 (cmdWord 0x11#8)
  | .reserved op => busWriteWord 0x0008#16 (cmdWord op)
  | .busRead addr => busReadWord addr
  | .busWrite addr v => busWriteWord addr v

/-- A CMD word as bytes, least significant first. -/
def cmdBytes (v : Word) : List Byte :=
  [v.extractLsb' 0 8, v.extractLsb' 8 8, v.extractLsb' 16 8, v.extractLsb' 24 8]

/-- A bus transaction as bytes, least significant first. -/
def busBytes (t : BusWord) : List Byte :=
  [t.extractLsb' 0 8, t.extractLsb' 8 8, t.extractLsb' 16 8, t.extractLsb' 24 8,
   t.extractLsb' 32 8, t.extractLsb' 40 8, (t.extractLsb' 48 1).setWidth 8]

/-- The bytes of an instruction: format CMD for a command, format BUS for a plain transaction. -/
def encode (i : Instr) : List Byte :=
  match opOf i with
  | some op => cmdBytes (cmdWord op)
  | none => busBytes (encodeBus i)

/-! ### The host's numbered words -/

/-- The low n bytes of a number, least significant first. -/
def natBytes : Nat → Nat → List Byte
  | 0, _ => []
  | n + 1, w => BitVec.ofNat 8 w :: natBytes n (w / 256)

/-- How many bytes a table row of nbits bits is laid out in: a row of at most 32 bits is a CMD word,
a wider one a bus transaction; more than 56 bits is neither, and decode rejects it. -/
def tableBytes (nbits : Nat) : Nat :=
  if nbits ≤ 32 then 4 else if nbits ≤ 56 then 7 else (nbits + 7) / 8

/-- The instruction the decoder reads from an instruction whose bits are w. -/
def decodeTableWord (nbits w : Nat) : Option Instr :=
  match decode (natBytes (tableBytes nbits) w) with
  | .ok i => some i
  | .error _ => none

/-- The transaction that carries the table word w: a CMD word is written to CMD. -/
def tableBusWord (nbits w : Nat) : BusWord :=
  if nbits ≤ 32 then busWriteWord 0x0008#16 (BitVec.ofNat 32 w) else BitVec.ofNat 49 w

end Sys2Proof
end

