-- ==== Sys2Proof/Config.lean ====
section
/-! DEFINITION. The constants of R8 and R9, and the free values: constants with no body, so that no
proof can know what they are. -/

namespace Sys2Proof.Config

/-- `ID_VALUE`, what the ID register reads (00_scope.md R9, 10_state.md R24). -/
def idValue : Word := 0x43524331#32

/-- `IBUF_BYTES` as State.reset has it: R9's default. Log 1. -/
def defaultIbufBytes : Nat := 256

/-- The legal values of `IBUF_BYTES` (R9): a multiple of 4 from 4 to 8192. -/
def legalIbufBytes (n : Nat) : Bool := n % 4 == 0 && 4 ≤ n && n ≤ 8192

/-- `FLAG` (R8). -/
def flag : Byte := 0x7E#8

/-- `ESCAPE` (R8). -/
def escape : Byte := 0x7D#8

/-- `ESC_MASK` (R8). -/
def escMask : Byte := 0x20#8

/-- `POLY` with its x¹⁶ term explicit: the 17-bit divisor pattern (R8, 40_crc.md R110). -/
def polyPattern : BitVec 17 := 0x11021#17

/-- `POLY` (R8). -/
def poly : Half := 0x1021#16

/-- FREE VALUE: the unspecified value of the n-th busy read (42_bus_and_command.md R173, 93 I1).
Log 5. -/
opaque busyRead : Nat → Word

/-- FREE VALUE: what byte k of IBUF holds at power-on (70_reset_and_hazards.md R232, 93 I2). Log 6. -/
opaque ibufPowerOn : Nat → Byte

/-- FREE VALUE: what byte k of OBUF holds in an epoch until a command writes it. Epochs begin at
power-on (R232, 93 I2) and at each reset that cancels STUFF or DESTUFF (R231, 93 I3). Logs 6, 7. -/
opaque obufDraw : Nat → Nat → Byte

/-- FREE VALUE: what the host variable x holds before the host program writes it (30_encoding.md
R99 gives no initial value). Log 13. -/
opaque hostVar : Nat → Word

end Sys2Proof.Config
end

