-- ==== Sys2Proof/Machine/State.lean ====
section
/-! DEFINITION. The state of CRCSTUFF as plain data, why a step can stop, and the state after
power-on and reset. -/

namespace Sys2Proof.Machine

/-- A buffer: the bytes written since it last held unspecified contents, as (index, byte) pairs with
the indices strictly rising. An unlisted byte is one nothing has written: what it reads as is a free
value, never a byte this list could hold a copy of (logs 6, 7). -/
abbrev Memory := List Host.Cell

/-- The four diagnostic flags of the destuffer (41_stuff.md R150, STATUS bits 19:16). -/
structure DsFlags where
  frame : Bool
  dangle : Bool
  rawflag : Bool
  badesc : Bool
  deriving DecidableEq, Repr

/-- The causes of an error (60_exceptions.md R204), each a sticky STATUS bit. -/
inductive ErrCause where
  /-- ERR_ILLEGAL: a reserved opcode written to CMD (R202). -/
  | illegal
  /-- ERR_LEN: STUFF or DESTUFF written with ILEN above IBUF_BYTES (R203). -/
  | len
  /-- ERR_BUSY: a guarded write while BUSY = 1 (R201). -/
  | busy
  deriving DecidableEq, Repr

/-- One entry of the schedule: which agent takes the next step (20_memory.md R61, 70_reset R230),
and for a host, the transaction on the port. Log 2. -/
inductive Input where
  /-- The host's next transaction (R60, R61). -/
  | host (t : BusWord)
  /-- A transaction of a second bus master, which is outside the spec (60_exceptions.md R216). -/
  | otherHost (t : BusWord)
  /-- The Block agent's turn: its completion step, if one is enabled (42 R185). -/
  | block
  /-- The platform's reset step (R230). -/
  | reset
  deriving DecidableEq, Repr

/-- The architectural state of the block: one field per line of R20's table and nothing else. R20's
arrays of IBUF_BYTES and OBUF_BYTES bytes are the types I and O: `State.block` has them as vectors of
those lengths, and State carries them as the lists of the bytes written (log 14). -/
structure BlockState (I O : Type) where
  /-- CTRL.IE_DONE (R25). -/
  ieDone : Bool
  /-- CTRL.IE_ERR (R25). -/
  ieErr : Bool
  /-- STATUS.BUSY (R28). -/
  busy : Bool
  /-- STATUS.DONE (R29). -/
  done : Bool
  /-- STATUS.MATCH (R37). -/
  matched : Bool
  /-- STATUS.ERR_ILLEGAL (R38). -/
  errIllegal : Bool
  /-- STATUS.ERR_LEN (R38). -/
  errLen : Bool
  /-- STATUS.ERR_BUSY (R38). -/
  errBusy : Bool
  /-- STATUS.DS_FRAME (R39). -/
  dsFrame : Bool
  /-- STATUS.DS_DANGLE (R39). -/
  dsDangle : Bool
  /-- STATUS.DS_RAWFLAG (R39). -/
  dsRawflag : Bool
  /-- STATUS.DS_BADESC (R39). -/
  dsBadesc : Bool
  /-- FRAME0..FRAME3 (R30). -/
  frame : Frame
  /-- CRC_RESULT (R32). -/
  crcResult : Half
  /-- CRC_EXPECT (R33). -/
  crcExpect : Half
  /-- ILEN (R34). -/
  ilen : Half
  /-- OLEN (R35). -/
  olen : Half
  /-- IBUF (R40). -/
  ibuf : I
  /-- OBUF (R41). -/
  obuf : O
  /-- The accepted command (R42). -/
  pending : Option Command
  deriving DecidableEq, Repr

/-- The block's state, and beside it what is not the block's: the parameter IBUF_BYTES and the
model's own fields (log 14). -/
structure State extends BlockState Memory Memory where
  /-- IBUF_BYTES (00_scope.md R9): a parameter, which no step writes. Log 1. -/
  ibufBytes : Nat
  /-- The model's own: what the host's last read returned (port bus_rdata, R60). Log 8. -/
  rdata : Word
  /-- The model's own: how many unspecified reads have been drawn (R173). Log 5. -/
  draws : Nat
  /-- The model's own: which draw unwritten OBUF bytes show (R231, R232). Log 7. -/
  obufEpoch : Nat
  /-- The model's own: the schedule still to come (R61). Log 2. -/
  inputs : List Input
  deriving DecidableEq, Repr

/-- `OBUF_BYTES`, derived from IBUF_BYTES (R9, R10). -/
def State.obufBytes (s : State) : Nat := 2 * s.ibufBytes + 4

/-- Why the machine stops with a fault: never. The block has no trap and no exception entry (60 R200)
and the port has no error response (20_memory.md R60), so the type has no constructor. Safe: nothing
the spec lets run is stopped. -/
inductive Fault where
  deriving DecidableEq, Repr

/-- Why a step is refused. -/
inductive Refusal where
  /-- Raised by exec for an instruction that has no meaning yet; no arm answers it. Safe. -/
  | notModelled (mnemonic : String)
  /-- Raised by step for a transaction of a second bus master, which R216 puts outside the spec and
  D24 and I14 let a model refuse. Safe: it only leaves runs out. Log 10. -/
  | secondHost
  deriving DecidableEq, Repr

/-- The block right after power-on and reset (70_reset_and_hazards.md R230, R232): every register at
R230's value, both buffers unwritten, the parameter at its default, no input waiting. -/
def State.reset : State where
  ieDone := false
  ieErr := false
  busy := false
  done := false
  matched := false
  errIllegal := false
  errLen := false
  errBusy := false
  dsFrame := false
  dsDangle := false
  dsRawflag := false
  dsBadesc := false
  frame := 0#100
  crcResult := 0#16
  crcExpect := 0#16
  ilen := 0#16
  olen := 0#16
  ibuf := []
  obuf := []
  pending := none
  ibufBytes := Config.defaultIbufBytes
  rdata := 0#32
  draws := 0
  obufEpoch := 0
  inputs := []

end Sys2Proof.Machine
end

