-- ==== Sys2Proof/Machine/Ops.lean ====
section
/-! DEFINITION. The named operations over the buffers and registers: reading and writing bytes,
raising an error and acknowledging one, accepting and finishing a command, and reset. -/

namespace Sys2Proof.Machine

/-! ### Buffers -/

/-- The byte last written at index k, if any. -/
def Memory.read? : Memory → Nat → Option Byte
  | [], _ => none
  | (a, b) :: m, k => if k = a then some b else Memory.read? m k

/-- Writes one byte, keeping the indices strictly rising. -/
def Memory.write : Memory → Nat → Byte → Memory
  | [], k, v => [(k, v)]
  | (a, b) :: m, k, v =>
    if k < a then (k, v) :: (a, b) :: m
    else if k = a then (k, v) :: m
    else (a, b) :: Memory.write m k v

/-- MemWrite (00_scope.md R14): writes a byte list from index k on. -/
def Memory.writeBytes (m : Memory) (k : Nat) : List Byte → Memory
  | [] => m
  | b :: bs => Memory.write (Memory.writeBytes m (k + 1) bs) k b

/-- Every index listed is at least lo, and they rise strictly. -/
def Memory.risesFrom (lo : Nat) : Memory → Bool
  | [] => true
  | (a, _) :: m => decide (lo ≤ a) && Memory.risesFrom (a + 1) m

/-- The canonical form of a buffer. -/
def Memory.wf (m : Memory) : Bool := Memory.risesFrom 0 m

/-- Every index listed is inside a buffer of n bytes (10_state.md R40, R41). -/
def Memory.inside (n : Nat) (m : Memory) : Bool := m.all fun c => decide (c.1 < n)

/-- IBUF[k]: the byte written, else its power-on draw (R40, R232). -/
def State.ibufByte (s : State) (k : Nat) : Byte :=
  (s.ibuf.read? k).getD (Config.ibufPowerOn k)

/-- OBUF[k]: the byte written, else the draw of the present epoch (R41, R231, R232). -/
def State.obufByte (s : State) (k : Nat) : Byte :=
  (s.obuf.read? k).getD (Config.obufDraw s.obufEpoch k)

/-- The same block with its buffers held in another form. -/
def BlockState.withBuffers {I O I' O' : Type} (b : BlockState I O) (ibuf : I') (obuf : O') :
    BlockState I' O' where
  ieDone := b.ieDone
  ieErr := b.ieErr
  busy := b.busy
  done := b.done
  matched := b.matched
  errIllegal := b.errIllegal
  errLen := b.errLen
  errBusy := b.errBusy
  dsFrame := b.dsFrame
  dsDangle := b.dsDangle
  dsRawflag := b.dsRawflag
  dsBadesc := b.dsBadesc
  frame := b.frame
  crcResult := b.crcResult
  crcExpect := b.crcExpect
  ilen := b.ilen
  olen := b.olen
  ibuf := ibuf
  obuf := obuf
  pending := b.pending

/-- The architectural state as R20 writes it: IBUF an array of IBUF_BYTES bytes and OBUF one of
OBUF_BYTES bytes, each byte a value (10_state.md R20, R40, R41). -/
def State.block (s : State) :
    BlockState (Vector Byte s.ibufBytes) (Vector Byte s.obufBytes) :=
  s.toBlockState.withBuffers (Vector.ofFn fun k => s.ibufByte k) (Vector.ofFn fun k => s.obufByte k)

/-- MemRead(IBUF, k, n) (R14). -/
def State.readIbuf (s : State) (k n : Nat) : List Byte :=
  (List.range n).map fun j => s.ibufByte (k + j)

/-- A word of a buffer window: little-endian, byte 0 in bits 7:0 (20_memory.md R64). -/
def wordOfBytes (b0 b1 b2 b3 : Byte) : Word := (b3 ++ b2 ++ b1 ++ b0).cast rfl

/-- The bytes of a word in window order: byte j is bits 8j+7:8j (R64). -/
def bytesOfWord (v : Word) : List Byte :=
  [v.extractLsb' 0 8, v.extractLsb' 8 8, v.extractLsb' 16 8, v.extractLsb' 24 8]

/-- Word w of the IBUF window (R64). -/
def State.ibufWord (s : State) (w : Nat) : Word :=
  wordOfBytes (s.ibufByte (4 * w)) (s.ibufByte (4 * w + 1)) (s.ibufByte (4 * w + 2))
    (s.ibufByte (4 * w + 3))

/-- Word w of the OBUF window (R65). -/
def State.obufWord (s : State) (w : Nat) : Word :=
  wordOfBytes (s.obufByte (4 * w)) (s.obufByte (4 * w + 1)) (s.obufByte (4 * w + 2))
    (s.obufByte (4 * w + 3))

/-- A host write of word w of the IBUF window; a word beyond IBUF is not stored (R64, 42 R171). -/
def State.writeIbufWord (s : State) (w : Nat) (v : Word) : State :=
  if 4 * w < s.ibufBytes then { s with ibuf := s.ibuf.writeBytes (4 * w) (bytesOfWord v) } else s

/-- MemWrite(OBUF, 0, o) and OLEN <- len(o): the result of STUFF and DESTUFF (41 R160, R161). -/
def State.putOutput (s : State) (o : List Byte) : State :=
  { s with obuf := s.obuf.writeBytes 0 o, olen := BitVec.ofNat 16 o.length }

/-! ### Errors -/

/-- `raise ERR_X`: sets the sticky bit and does nothing else (60_exceptions.md R200). The block has no
trap: this is all that an error does. -/
def State.raise (e : ErrCause) (s : State) : State :=
  match e with
  | .illegal => { s with errIllegal := true }
  | .len => { s with errLen := true }
  | .busy => { s with errBusy := true }

/-- The cause code of an error is its STATUS bit (R204). -/
def ErrCause.code : ErrCause → Nat
  | .illegal => 8
  | .len => 9
  | .busy => 10

/-- Whether the sticky bit of a cause is set. -/
def State.err (s : State) : ErrCause → Bool
  | .illegal => s.errIllegal
  | .len => s.errLen
  | .busy => s.errBusy

/-- The host's acknowledgment, a write of v to STATUS: each write-1-to-clear field at a 1 bit of v
becomes 0, every other field is unchanged (10_state.md R27, 60_exceptions.md R211). -/
def State.ackStatus (v : Word) (s : State) : State :=
  { s with
    done := s.done && !v.getLsbD 1
    errIllegal := s.errIllegal && !v.getLsbD ErrCause.illegal.code
    errLen := s.errLen && !v.getLsbD ErrCause.len.code
    errBusy := s.errBusy && !v.getLsbD ErrCause.busy.code }

/-! ### The life of a command -/

/-- Acceptance changes only pending, BUSY and DONE (42_bus_and_command.md R180). -/
def State.accept (c : Command) (s : State) : State :=
  { s with pending := some c, busy := true, done := false }

/-- The common end of every completion (42_bus_and_command.md R185). -/
def State.finish (s : State) : State :=
  { s with pending := none, busy := false, done := true }

/-- Whether a reset now would cancel a STUFF or DESTUFF (70_reset_and_hazards.md R231). -/
def State.stufferPending (s : State) : Bool :=
  s.pending == some .stuff || s.pending == some .destuff

/-- The platform's reset step (70_reset_and_hazards.md R230, R231): every register to its reset
value, the pending command cancelled without a result, IBUF kept, OBUF kept unless a STUFF or DESTUFF
was pending, and then one fresh draw for each of its bytes (93 I3). The parameter and the model's own
fields but obufEpoch stay (log 11). -/
def State.resetStep (s : State) : State :=
  { State.reset with
    ibuf := s.ibuf
    obuf := if s.stufferPending then [] else s.obuf
    obufEpoch := if s.stufferPending then s.obufEpoch + 1 else s.obufEpoch
    ibufBytes := s.ibufBytes
    rdata := s.rdata
    draws := s.draws
    inputs := s.inputs }

end Sys2Proof.Machine
end

