-- ==== Sys2Proof/Machine/Operands.lean ====
section
/-! DEFINITION. The operand forms: the one addressing mode and the address map it reaches, the views
FRAME0..FRAME3 of the frame, and the operands of the commands. -/

namespace Sys2Proof.Machine

/-! ### Addressing -/

/-- Everything a word address can name (20_memory.md R73, 10_state.md R23). -/
inductive Loc where
  | id
  | ctrl
  | cmd
  | status
  | frame0
  | frame1
  | frame2
  | frame3
  | crcResult
  | crcExpect
  | ilen
  | olen
  | param
  /-- Word w of the IBUF window, inside IBUF or beyond it. -/
  | ibuf (w : Nat)
  /-- Word w of the OBUF window, inside OBUF or beyond it. -/
  | obuf (w : Nat)
  /-- 0x0034 to 0x3FFC. -/
  | reserved
  deriving DecidableEq, Repr

/-- `addr & 0xFFFC`: the two low bits of an address are ignored (20_memory.md R69). -/
def wordAddr (a : Addr) : Addr := a &&& 0xFFFC#16

/-- The address map (20_memory.md R73, 42_bus_and_command.md R170). -/
def locate (a : Addr) : Loc :=
  let n := (wordAddr a).toNat
  if n < 0x4000 then
    if n = 0x0000 then .id
    else if n = 0x0004 then .ctrl
    else if n = 0x0008 then .cmd
    else if n = 0x000C then .status
    else if n = 0x0010 then .frame0
    else if n = 0x0014 then .frame1
    else if n = 0x0018 then .frame2
    else if n = 0x001C then .frame3
    else if n = 0x0020 then .crcResult
    else if n = 0x0024 then .crcExpect
    else if n = 0x0028 then .ilen
    else if n = 0x002C then .olen
    else if n = 0x0030 then .param
    else .reserved
  else if n < 0x8000 then .ibuf ((n - 0x4000) / 4)
  else .obuf ((n - 0x8000) / 4)

/-- The busy guard: CMD, FRAME0..FRAME3, CRC_EXPECT, ILEN and the whole IBUF window
(42_bus_and_command.md R172). -/
def guarded : Loc → Bool
  | .cmd | .frame0 | .frame1 | .frame2 | .frame3 | .crcExpect | .ilen | .ibuf _ => true
  | .id | .ctrl | .status | .crcResult | .olen | .param | .obuf _ | .reserved => false

/-! ### The frame's registers (10_state.md R30, 30_encoding.md R95) -/

/-- FRAME0 = frame[31:0]. -/
def State.frame0 (s : State) : Word := s.frame.extractLsb' 0 32

/-- FRAME1 = frame[63:32]. -/
def State.frame1 (s : State) : Word := s.frame.extractLsb' 32 32

/-- FRAME2 = frame[95:64]. -/
def State.frame2 (s : State) : Word := s.frame.extractLsb' 64 32

/-- FRAME3[3:0] = frame[99:96]; bits 31:4 read 0. -/
def State.frame3 (s : State) : Word := (s.frame.extractLsb' 96 4).setWidth 32

/-- frame[31:0] <- v. -/
def setFrame0 (f : Frame) (v : Word) : Frame := (f.extractLsb' 32 68 ++ v).cast rfl

/-- frame[63:32] <- v. -/
def setFrame1 (f : Frame) (v : Word) : Frame :=
  (f.extractLsb' 64 36 ++ v ++ f.extractLsb' 0 32).cast rfl

/-- frame[95:64] <- v. -/
def setFrame2 (f : Frame) (v : Word) : Frame :=
  (f.extractLsb' 96 4 ++ v ++ f.extractLsb' 0 64).cast rfl

/-- frame[99:96] <- v[3:0]. -/
def setFrame3 (f : Frame) (v : Word) : Frame :=
  (v.extractLsb' 0 4 ++ f.extractLsb' 0 96).cast rfl

/-! ### The operands of a command -/

/-- F = FRAME3[3:0] ++ FRAME2 ++ FRAME1 ++ FRAME0 (30_encoding.md R95). -/
def State.frameOperand (s : State) : Frame :=
  (s.frame3.extractLsb' 0 4 ++ s.frame2 ++ s.frame1 ++ s.frame0).cast rfl

/-- e = CRC_EXPECT[15:0] (30_encoding.md R96). -/
def State.expectOperand (s : State) : Half := s.crcExpect

/-- n = ILEN[15:0], an unsigned byte count (30_encoding.md R96). -/
def State.lengthOperand (s : State) : Nat := s.ilen.toNat

/-- MemRead(IBUF, 0, n) with n = ILEN (30_encoding.md R97). -/
def State.bytesOperand (s : State) : List Byte := s.readIbuf 0 s.lengthOperand

end Sys2Proof.Machine
end

