-- ==== Sys2Proof/Machine/Flags.lean ====
section
/-! DEFINITION. The flags: the CTRL and STATUS words, which reads are unspecified while busy, the
DS_* flags together, and the interrupt level. -/

namespace Sys2Proof.Machine

/-- CTRL as it reads: zext_32(IE_ERR ++ IE_DONE) (10_state.md R25). -/
def State.ctrlWord (s : State) : Word :=
  (0#30 ++ BitVec.ofBool s.ieErr ++ BitVec.ofBool s.ieDone).cast rfl

/-- CTRL <- v: IE_DONE <- v[0], IE_ERR <- v[1] (R25). -/
def State.setCtrl (s : State) (v : Word) : State :=
  { s with ieDone := v.getLsbD 0, ieErr := v.getLsbD 1 }

/-- The unspecified value of the read being made now: a free value (42 R173, 93 I1). -/
def State.drawn (s : State) : Word := Config.busyRead s.draws

/-- X' of status_word: bit i of the draw while busy, else the flag (42_bus_and_command.md R170). -/
def State.unlessBusy (s : State) (i : Nat) (b : Bool) : Bool :=
  if s.busy then s.drawn.getLsbD i else b

/-- status_word() (42_bus_and_command.md R170, 10_state.md R27). -/
def State.statusWord (s : State) : Word :=
  (0#12 ++ BitVec.ofBool (s.unlessBusy 19 s.dsBadesc) ++ BitVec.ofBool (s.unlessBusy 18 s.dsRawflag)
    ++ BitVec.ofBool (s.unlessBusy 17 s.dsDangle) ++ BitVec.ofBool (s.unlessBusy 16 s.dsFrame)
    ++ 0#5 ++ BitVec.ofBool s.errBusy ++ BitVec.ofBool s.errLen ++ BitVec.ofBool s.errIllegal
    ++ 0#5 ++ BitVec.ofBool (s.unlessBusy 2 s.matched) ++ BitVec.ofBool s.done
    ++ BitVec.ofBool s.busy).cast rfl

/-- Whether a read of a location uses an unspecified value: CRC_RESULT, OLEN, STATUS and the OBUF
words inside OBUF, while BUSY = 1 (42_bus_and_command.md R173). -/
def State.readDraws (s : State) : Loc → Bool
  | .status | .crcResult | .olen => s.busy
  | .obuf w => s.busy && decide (4 * w < s.obufBytes)
  | .id | .ctrl | .cmd | .frame0 | .frame1 | .frame2 | .frame3 | .crcExpect | .ilen | .param
  | .ibuf _ | .reserved => false

/-- All four DS_* flags are written together (10_state.md R39). -/
def State.setDs (s : State) (f : DsFlags) : State :=
  { s with dsFrame := f.frame, dsDangle := f.dangle, dsRawflag := f.rawflag, dsBadesc := f.badesc }

/-- The interrupt output, a level recomputed from the state (10_state.md R44). -/
def State.irq (s : State) : Bool :=
  (s.ieDone && s.done) || (s.ieErr && (s.errIllegal || s.errLen || s.errBusy))

end Sys2Proof.Machine
end

