-- ==== Sys2Proof/Machine/Command.lean ====
section
/-! DEFINITION. Command dispatch (42_bus_and_command.md R180): what a write to CMD does, and the two
opcodes that start nothing, NOP and RESERVED. -/

namespace Sys2Proof.Machine

/-- The command an opcode starts (30_encoding.md R91); NOP and the reserved opcodes start none. -/
def commandOf (op : Byte) : Option Command :=
  if op = 0x01#8 then some .crcGen
  else if op = 0x02#8 then some .crcVerify
  else if op = 0x10#8 then some .stuff
  else if op = 0x11#8 then some .destuff
  else none

/-- Whether a command reads ILEN and IBUF (R180: op ∈ {0x10, 0x11}). -/
def usesIbuf : Command → Bool
  | .crcGen | .crcVerify => false
  | .stuff | .destuff => true

/-- ILEN[15:0] > IBUF_BYTES, unsigned (42_bus_and_command.md R183, R193). -/
def State.tooLong (s : State) : Bool := decide (s.ibufBytes < s.lengthOperand)

/-- `command(op)`, reached while BUSY = 0; the first check that applies decides (R180). -/
def command (op : Byte) (s : State) : State :=
  match commandOf op with
  | none => if op = 0x00#8 then s else s.raise .illegal
  | some c => if usesIbuf c && s.tooLong then s.raise .len else s.accept c

/-- A write of an opcode to CMD: the busy guard, then command(op) (R171, R172, R180). -/
def cmdWrite (op : Byte) (s : State) : State :=
  if s.busy then s.raise .busy else command op s

/-- NOP (42_bus_and_command.md R181). -/
def execNop (s : State) : Host.Outcome State Fault Refusal := .next (cmdWrite 0x00#8 s)

/-- RESERVED (42_bus_and_command.md R182, 30_encoding.md R92). -/
def execReserved (op : Byte) (s : State) : Host.Outcome State Fault Refusal :=
  .next (cmdWrite op s)

end Sys2Proof.Machine
end

