-- ==== Sys2Proof/Machine/Crc.lean ====
section
/-! DEFINITION. The CRC family (40_crc.md): the long division, verify, and CRC_GEN and CRC_VERIFY,
each with its CMD write and its completion. -/

namespace Sys2Proof.Machine

/-! ### The function -/

/-- One step of the division at position p: if W[p] = 1, the pattern is XORed into W[p:p-16]
(40_crc.md R110). -/
def crcStep (w : BitVec 116) (p : Nat) : BitVec 116 :=
  if w.getLsbD p then w ^^^ ((Config.polyPattern.setWidth 116) <<< (p - 16)) else w

/-- The steps at positions 15+n down to 16 (R110). -/
def crcDivide : Nat → BitVec 116 → BitVec 116
  | 0, w => w
  | n + 1, w => crcDivide n (crcStep w (n + 16))

/-- crc16 (R110): 16 zero bits appended, positions 115 down to 16, the low 16 bits. -/
def crc16 (f : Frame) : Half :=
  (crcDivide 100 ((f ++ 0#16).cast rfl)).extractLsb' 0 16

/-- One step of the bit-serial form (R113). -/
def crcShift (c : Half) (b : Bool) : Half :=
  if c.getLsbD 15 ^^ b then (c <<< 1) ^^^ Config.poly else c <<< 1

/-- The frame's bits n-1 down to 0 through the shift register (R113). -/
def crcSerialFrom (f : Frame) : Nat → Half → Half
  | 0, c => c
  | n + 1, c => crcSerialFrom f n (crcShift c (f.getLsbD n))

/-- The bit-serial form of crc16 (R113), which an implementation may compute instead. -/
def crc16Serial (f : Frame) : Half := crcSerialFrom f 100 0#16

/-- verify(F, e) (R118). -/
def verify (f : Frame) (e : Half) : Bool := crc16 f == e

/-! ### The commands -/

/-- CRC_GEN, the CMD write (40_crc.md R120, acceptance). -/
def execCrcGen (s : State) : Host.Outcome State Fault Refusal := .next (cmdWrite 0x01#8 s)

/-- CRC_GEN, completion (R120): CRC_RESULT <- crc16(F). -/
def completeCrcGen (s : State) : State :=
  State.finish { s with crcResult := crc16 s.frameOperand }

/-- CRC_VERIFY, the CMD write (40_crc.md R121, acceptance). -/
def execCrcVerify (s : State) : Host.Outcome State Fault Refusal := .next (cmdWrite 0x02#8 s)

/-- CRC_VERIFY, completion (R121): MATCH <- verify(F, e). -/
def completeCrcVerify (s : State) : State :=
  State.finish { s with matched := verify s.frameOperand s.expectOperand }

end Sys2Proof.Machine
end

