-- ==== Sys2Proof/Machine/Stuffer.lean ====
section
/-! DEFINITION. The stuffer family (41_stuff.md): stuff, destuff, and STUFF and DESTUFF, each with its
CMD write and its completion. -/

namespace Sys2Proof.Machine

/-! ### The functions -/

/-- FLAG and ESCAPE are escaped (41_stuff.md R140). -/
def mustEscape (b : Byte) : Bool := b == Config.flag || b == Config.escape

/-- What one payload byte becomes (R140). -/
def stuffByte (b : Byte) : List Byte :=
  if mustEscape b then [Config.escape, b ^^^ Config.escMask] else [b]

/-- The payload bytes in index order (R140). -/
def stuffBody : List Byte → List Byte
  | [] => []
  | b :: bs => stuffByte b ++ stuffBody bs

/-- stuff (R140): a leading FLAG, the stuffed payload, a trailing FLAG. -/
def stuff (s : List Byte) : List Byte := Config.flag :: (stuffBody s ++ [Config.flag])

/-- The interior scan of destuff (R150), from the values of esc, raw and bad so far: the bytes it
emits, and esc, raw and bad at the end. The test of esc comes before the test for ESCAPE. -/
def destuffScan (esc raw bad : Bool) : List Byte → List Byte × Bool × Bool × Bool
  | [] => ([], esc, raw, bad)
  | b :: bs =>
    if esc then
      let r := destuffScan false raw
        (bad || (b != Config.flag ^^^ Config.escMask && b != Config.escape ^^^ Config.escMask)) bs
      ((b ^^^ Config.escMask) :: r.1, r.2)
    else if b = Config.escape then destuffScan true raw bad bs
    else
      let r := destuffScan false (raw || b == Config.flag) bad bs
      (b :: r.1, r.2)

/-- destuff (R150). An input of fewer than two bytes gives no output and reports DS_FRAME (R152); the
first and last bytes are skipped whatever they are (R153). -/
def destuff : List Byte → List Byte × DsFlags
  | [] => ([], ⟨true, false, false, false⟩)
  | [_] => ([], ⟨true, false, false, false⟩)
  | first :: b :: bs =>
    let r := destuffScan false false false ((b :: bs).dropLast)
    (r.1, ⟨first != Config.flag || (b :: bs).getLast? != some Config.flag, r.2.1, r.2.2.1, r.2.2.2⟩)

/-! ### The commands -/

/-- STUFF, the CMD write (41_stuff.md R160, acceptance). -/
def execStuff (s : State) : Host.Outcome State Fault Refusal := .next (cmdWrite 0x10#8 s)

/-- STUFF, completion (R160): OBUF and OLEN <- stuff(IBUF[0..ILEN)). -/
def completeStuff (s : State) : State := (s.putOutput (stuff s.bytesOperand)).finish

/-- DESTUFF, the CMD write (41_stuff.md R161, acceptance). -/
def execDestuff (s : State) : Host.Outcome State Fault Refusal := .next (cmdWrite 0x11#8 s)

/-- DESTUFF, completion (R161): OBUF, OLEN and the four DS_* flags <- destuff(IBUF[0..ILEN)). -/
def completeDestuff (s : State) : State :=
  let r := destuff s.bytesOperand
  ((s.putOutput r.1).setDs r.2).finish

end Sys2Proof.Machine
end

