-- ==== Sys2Proof/Machine/Completion.lean ====
section
/-! DEFINITION. The Block agent: its completion step (42_bus_and_command.md R185). -/

namespace Sys2Proof.Machine

/-- complete() for the command pending (R185): every result at once, in one step. -/
def complete : Command → State → State
  | .crcGen, s => completeCrcGen s
  | .crcVerify, s => completeCrcVerify s
  | .stuff, s => completeStuff s
  | .destuff, s => completeDestuff s

/-- The Block's turn: the completion step, which is enabled exactly when a command is pending (R185);
otherwise the block does nothing (60_exceptions.md R218). Log 3. -/
def blockTurn (s : State) : State :=
  match s.pending with
  | none => s
  | some c => complete c s

end Sys2Proof.Machine
end

