-- ==== Sys2Proof/Machine/Bus.lean ====
section
/-! DEFINITION. The host transactions BusRead and BusWrite (42_bus_and_command.md R170, R171). -/

namespace Sys2Proof.Machine

/-- What a read of a location returns (R170); unspecified values are the draw (R173). -/
def State.readLoc (s : State) : Loc → Word
  | .id => Config.idValue
  | .ctrl => s.ctrlWord
  | .cmd => 0#32
  | .status => s.statusWord
  | .frame0 => s.frame0
  | .frame1 => s.frame1
  | .frame2 => s.frame2
  | .frame3 => s.frame3
  | .crcResult => if s.busy then s.drawn else s.crcResult.setWidth 32
  | .crcExpect => s.crcExpect.setWidth 32
  | .ilen => s.ilen.setWidth 32
  | .olen => if s.busy then s.drawn else s.olen.setWidth 32
  | .param => (BitVec.ofNat 16 s.obufBytes ++ BitVec.ofNat 16 s.ibufBytes).cast rfl
  | .ibuf w => if 4 * w < s.ibufBytes then s.ibufWord w else 0#32
  | .obuf w =>
    if 4 * w < s.obufBytes then (if s.busy then s.drawn else s.obufWord w) else 0#32
  | .reserved => 0#32

/-- BusRead(addr) (R170): it changes no state of the block (20_memory.md R72). The value it returns
goes to rdata (log 8), and a read that uses an unspecified value uses up one draw (log 5). -/
def execBusRead (addr : Addr) (s : State) : Host.Outcome State Fault Refusal :=
  let l := locate addr
  .next { s with rdata := s.readLoc l, draws := if s.readDraws l then s.draws + 1 else s.draws }

/-- What a write to a location does once the busy guard has let it through (R171, R174). -/
def State.writeLoc (s : State) (v : Word) : Loc → State
  | .ctrl => s.setCtrl v
  | .cmd => command (v.extractLsb' 0 8) s
  | .status => s.ackStatus v
  | .frame0 => { s with frame := setFrame0 s.frame v }
  | .frame1 => { s with frame := setFrame1 s.frame v }
  | .frame2 => { s with frame := setFrame2 s.frame v }
  | .frame3 => { s with frame := setFrame3 s.frame v }
  | .crcExpect => { s with crcExpect := v.extractLsb' 0 16 }
  | .ilen => { s with ilen := v.extractLsb' 0 16 }
  | .ibuf w => s.writeIbufWord w v
  | .id | .crcResult | .olen | .param | .obuf _ | .reserved => s

/-- BusWrite(addr, v) (R171): while BUSY = 1 a guarded write only raises ERR_BUSY (R172). -/
def execBusWrite (addr : Addr) (v : Word) (s : State) : Host.Outcome State Fault Refusal :=
  let l := locate addr
  .next (if s.busy && guarded l then s.raise .busy else s.writeLoc v l)

end Sys2Proof.Machine
end

