-- ==== Sys2Proof/Machine/Dispatch.lean ====
section
/-! DEFINITION. exec: one arm per instruction. -/

namespace Sys2Proof.Machine

/-- What the block does with one instruction the host presents. -/
def exec (i : Instr) (s : State) : Host.Outcome State Fault Refusal :=
  match i with
  | .nop => Sys2Proof.Machine.execNop s
  | .crcGen => Sys2Proof.Machine.execCrcGen s
  | .crcVerify => Sys2Proof.Machine.execCrcVerify s
  | .stuff => Sys2Proof.Machine.execStuff s
  | .destuff => Sys2Proof.Machine.execDestuff s
  | .reserved op => Sys2Proof.Machine.execReserved op s
  | .busRead addr => Sys2Proof.Machine.execBusRead addr s
  | .busWrite addr v => Sys2Proof.Machine.execBusWrite addr v s

end Sys2Proof.Machine
end

