-- ==== Sys2Proof/Machine/Step.lean ====
section
/-! DEFINITION. The step: the agent at the head of the schedule moves (20_memory.md R61). -/

namespace Sys2Proof.Machine

/-- One atomic step of one agent (20_memory.md R61, R75; 70_reset_and_hazards.md R230). A host's
transaction is decoded and run by exec. With no input left only the Block can move: it completes a
pending command (42_bus_and_command.md R186), and otherwise the block stays idle (log 3). -/
def step (s : State) : Host.Outcome State Fault Refusal :=
  match s.inputs with
  | [] => .next (blockTurn s)
  | .host t :: rest => exec (decodeBus t) { s with inputs := rest }
  | .otherHost _ :: _ => .refused .secondHost
  | .block :: rest => .next (blockTurn { s with inputs := rest })
  | .reset :: rest => .next (State.resetStep { s with inputs := rest })

/-- s with the host about to present the table word w: the next step runs exactly it. Log 2. -/
def State.withFetchWord (s : State) (nbits w : Nat) : State :=
  { s with inputs := .host (tableBusWord nbits w) :: s.inputs }

end Sys2Proof.Machine
end

