-- ==== Sys2Proof/Machine/HostProgram.lean ====
section
/-! DEFINITION. The host and its programs (30_encoding.md R99, R100; 42_bus_and_command.md R190): a
layer over step. A program's lines, its place and its variables belong to the host, not to the block
(R99), so they stand in a state of their own beside the block's. -/

namespace Sys2Proof.Machine

/-- A line of a host program (R99). Host variables and labels are named by numbers. -/
inductive HostLine where
  /-- `WR addr, imm32` -/
  | wr (addr : Addr) (v : Word)
  /-- `WR addr, %t` -/
  | wrVar (addr : Addr) (t : Nat)
  /-- `RD addr -> %t` -/
  | rd (addr : Addr) (t : Nat)
  /-- `BIT %t, n, label` -/
  | bit (t : Nat) (n : Fin 32) (label : Nat)
  /-- `label:` -/
  | label (l : Nat)
  /-- `HALT` -/
  | halt
  deriving DecidableEq, Repr

/-- A host running a program: its lines, the line it stands at, the variables it has written. -/
structure HostProc where
  prog : List HostLine
  line : Nat
  vars : List (Nat × Word)
  deriving DecidableEq, Repr

/-- The host and the block it drives. -/
structure System where
  host : HostProc
  block : State
  deriving DecidableEq, Repr

/-- The agents (20_memory.md R61, 70_reset_and_hazards.md R230). -/
inductive Agent where
  | host
  | block
  | platform
  deriving DecidableEq, Repr

/-- The value of a host variable; before the program writes it, a free value (log 13). -/
def HostProc.getVar (h : HostProc) (t : Nat) : Word :=
  match h.vars.find? (fun p => p.1 == t) with
  | some p => p.2
  | none => Config.hostVar t

/-- `%t <- v` (R99). -/
def HostProc.setVar (h : HostProc) (t : Nat) (v : Word) : HostProc :=
  { h with vars := (t, v) :: h.vars.filter (fun p => p.1 != t) }

/-- On to the next line. -/
def HostProc.advance (h : HostProc) : HostProc := { h with line := h.line + 1 }

/-- The line a label names, counted from n (R190: labels are names of program lines). -/
def labelLine (l : Nat) : List HostLine → Nat → Option Nat
  | [], _ => none
  | .label l' :: ls, n => if l' = l then some n else labelLine l ls (n + 1)
  | .wr _ _ :: ls, n => labelLine l ls (n + 1)
  | .wrVar _ _ :: ls, n => labelLine l ls (n + 1)
  | .rd _ _ :: ls, n => labelLine l ls (n + 1)
  | .bit _ _ _ :: ls, n => labelLine l ls (n + 1)
  | .halt :: ls, n => labelLine l ls (n + 1)

/-- Every branch's label is a line of the program (R190: "a target is always a line of the program"). -/
def progWf (p : List HostLine) : Bool :=
  p.all fun
    | .bit _ _ l => (labelLine l p 0).isSome
    | .wr _ _ | .wrVar _ _ | .rd _ _ | .label _ | .halt => true

/-- Where `BIT %t, n, label` goes on: at label if bit n of %t is 1, else at the next line (R190). A
label that names no line, which progWf refuses, ends the program (log 13). -/
def HostProc.branch (h : HostProc) (t : Nat) (n : Fin 32) (l : Nat) : HostProc :=
  if (h.getVar t).getLsbD n then { h with line := (labelLine l h.prog 0).getD h.prog.length }
  else h.advance

/-- One input given to the block, then the host as f makes it from the block's new state. -/
def System.drive (y : System) (i : Input) (f : State → HostProc) :
    Host.Outcome System Fault Refusal :=
  match step { y.block with inputs := i :: y.block.inputs } with
  | .next s => .next ⟨f s, s⟩
  | .fault e => .fault e
  | .refused r => .refused r

/-- The host's turn: one line of its program (R99, R190). HALT, and the end of the program, leave
everything as it is. -/
def hostTurn (y : System) : Host.Outcome System Fault Refusal :=
  match y.host.prog[y.host.line]? with
  | none => .next y
  | some .halt => .next y
  | some (.label _) => .next { y with host := y.host.advance }
  | some (.bit t n l) => .next { y with host := y.host.branch t n l }
  | some (.wr a v) => y.drive (.host (busWriteWord a v)) fun _ => y.host.advance
  | some (.wrVar a t) =>
    y.drive (.host (busWriteWord a (y.host.getVar t))) fun _ => y.host.advance
  | some (.rd a t) =>
    y.drive (.host (busReadWord a)) fun s => (y.host.setVar t s.rdata).advance

/-- One agent's turn. -/
def systemStep (g : Agent) (y : System) : Host.Outcome System Fault Refusal :=
  match g with
  | .host => hostTurn y
  | .block => y.drive .block fun _ => y.host
  | .platform => y.drive .reset fun _ => y.host

/-- The agents' turns in the order a schedule gives them (20_memory.md R61). -/
def systemRun : List Agent → System → Host.Outcome System Fault Refusal
  | [], y => .next y
  | g :: gs, y =>
    match systemStep g y with
    | .next y' => systemRun gs y'
    | .fault e => .fault e
    | .refused r => .refused r

/-! ### Runs that never end (42_bus_and_command.md R186) -/

/-- The system after the first n turns of a schedule that never ends. -/
def systemAt (g : Nat → Agent) (y : System) (n : Nat) : Host.Outcome System Fault Refusal :=
  systemRun ((List.range n).map g) y

/-- R186: the Block's completion step is weakly fair. From every turn on there is a later one at which
the step is taken or is not enabled, so that pending ≠ none for ever is no run of the block. -/
def blockFair (g : Nat → Agent) (y : System) : Prop :=
  ∀ n, ∃ m, n ≤ m ∧ (g m = .block ∨ ∀ z, systemAt g y m = .next z → z.block.pending = none)

/-- The host never stops taking turns. -/
def hostRuns (g : Nat → Agent) : Prop := ∀ n, ∃ m, n ≤ m ∧ g m = .host

/-! ### The pseudo-instructions (30_encoding.md R100) -/

/-- `CMD op`. -/
def pseudoCmd (op : Byte) : List HostLine := [.wr 0x0008#16 (op.setWidth 32)]

/-- `WAIT`, with the fresh label l and the host variable t. -/
def pseudoWait (l t : Nat) : List HostLine := [.label l, .rd 0x000C#16 t, .bit t 0 l]

/-- `LDFRAME F`. -/
def pseudoLdframe (f : Frame) : List HostLine :=
  [.wr 0x0010#16 (f.extractLsb' 0 32), .wr 0x0014#16 (f.extractLsb' 32 32),
   .wr 0x0018#16 (f.extractLsb' 64 32), .wr 0x001C#16 ((f.extractLsb' 96 4).setWidth 32)]

/-- The words of `LDBUF s` from word w on, the last one padded with 0x00 bytes. DESIGN CHOICE, log 15:
for s of more than 49152 bytes `0x4000+4w` is no 16-bit address, R100 gives such a line no meaning, and
here the address wraps. -/
def ldbufWords (w : Nat) : List Byte → List HostLine
  | [] => []
  | [a] => [.wr (BitVec.ofNat 16 (0x4000 + 4 * w)) (wordOfBytes a 0#8 0#8 0#8)]
  | [a, b] => [.wr (BitVec.ofNat 16 (0x4000 + 4 * w)) (wordOfBytes a b 0#8 0#8)]
  | [a, b, c] => [.wr (BitVec.ofNat 16 (0x4000 + 4 * w)) (wordOfBytes a b c 0#8)]
  | a :: b :: c :: d :: s =>
    .wr (BitVec.ofNat 16 (0x4000 + 4 * w)) (wordOfBytes a b c d) :: ldbufWords (w + 1) s

/-- `LDBUF s`: the words of s, then ILEN. DESIGN CHOICE, log 15: a length that is no 32-bit number
wraps. -/
def pseudoLdbuf (s : List Byte) : List HostLine :=
  ldbufWords 0 s ++ [.wr 0x0028#16 (BitVec.ofNat 32 s.length)]

/-- `CLRST`: clears DONE and the three error bits. -/
def pseudoClrst : List HostLine := [.wr 0x000C#16 0x00000702#32]

end Sys2Proof.Machine
end

