-- ==== Sys2Proof/Safety.lean ====
section
/-! DEFINITION. What holds of every reachable state, and the other terms the statements use. -/

namespace Sys2Proof.Machine

/-- The state is one the block can be in. -/
structure State.Inv (s : State) : Prop where
  /-- The parameter is legal (00_scope.md R9). -/
  params : Config.legalIbufBytes s.ibufBytes = true
  /-- busy ⇔ pending ≠ none (10_state.md R20, R28). -/
  busy_iff : s.busy = s.pending.isSome
  /-- Acceptance clears DONE, and only the completion that clears BUSY sets it (R29). -/
  done_busy : s.busy = true → s.done = false
  /-- An accepted STUFF or DESTUFF has its input inside IBUF (42 R180, R183). -/
  fits : s.stufferPending = true → s.lengthOperand ≤ s.ibufBytes
  /-- IBUF is in canonical form. -/
  ibuf_wf : s.ibuf.wf = true
  /-- IBUF has IBUF_BYTES bytes (10_state.md R40). -/
  ibuf_inside : s.ibuf.inside s.ibufBytes = true
  /-- OBUF is in canonical form. -/
  obuf_wf : s.obuf.wf = true
  /-- OBUF has OBUF_BYTES bytes (10_state.md R41). -/
  obuf_inside : s.obuf.inside s.obufBytes = true
  /-- OLEN ≤ 2·IBUF_BYTES + 2 (42_bus_and_command.md R193). -/
  olen_le : s.olen.toNat ≤ 2 * s.ibufBytes + 2

/-- The schedule has one host only (60_exceptions.md R216). -/
def soleHost : List Input → Bool
  | [] => true
  | .host _ :: is => soleHost is
  | .otherHost _ :: _ => false
  | .block :: is => soleHost is
  | .reset :: is => soleHost is

/-- The state with another schedule. -/
def State.withInputs (s : State) (is : List Input) : State := { s with inputs := is }

/-- The results of completed commands, the frame they were computed from aside: what a host reads
once BUSY = 0 (20_memory.md R76). -/
def State.sameResults (s t : State) : Prop :=
  t.crcResult = s.crcResult ∧ t.matched = s.matched ∧ t.olen = s.olen ∧
  (∀ k, t.obufByte k = s.obufByte k) ∧
  t.dsFrame = s.dsFrame ∧ t.dsDangle = s.dsDangle ∧ t.dsRawflag = s.dsRawflag ∧
  t.dsBadesc = s.dsBadesc

/-- The operands of a command and the parameter: what only a host write can change (10_state.md R31,
R40, 42_bus_and_command.md R187). -/
def State.sameOperands (s t : State) : Prop :=
  t.frame = s.frame ∧ t.crcExpect = s.crcExpect ∧ t.ilen = s.ilen ∧
  (∀ k, t.ibufByte k = s.ibufByte k) ∧ t.ibufBytes = s.ibufBytes

/-- CTRL and the sticky error bits. -/
def State.sameControl (s t : State) : Prop :=
  t.ieDone = s.ieDone ∧ t.ieErr = s.ieErr ∧ t.errIllegal = s.errIllegal ∧ t.errLen = s.errLen ∧
  t.errBusy = s.errBusy

/-- The address a transaction writes: CMD for a command, none for a read (30_encoding.md R90). -/
def writeAddr : Instr → Option Addr
  | .nop => some 0x0008#16
  | .crcGen => some 0x0008#16
  | .crcVerify => some 0x0008#16
  | .stuff => some 0x0008#16
  | .destuff => some 0x0008#16
  | .reserved _ => some 0x0008#16
  | .busRead _ => none
  | .busWrite addr _ => some addr

/-- The opcode a transaction writes to CMD, if it writes CMD (30_encoding.md R90, R91). -/
def writtenOp : Instr → Option Byte
  | .nop => some 0x00#8
  | .crcGen => some 0x01#8
  | .crcVerify => some 0x02#8
  | .stuff => some 0x10#8
  | .destuff => some 0x11#8
  | .reserved op => some op
  | .busRead _ => none
  | .busWrite addr v => if isCmdAddr addr then some (cmdOp v) else none

/-- `addr & 0xFFFC` as a number (20_memory.md R69). -/
def wordOffset (a : Addr) : Nat := (a &&& 0xFFFC#16).toNat

/-- guarded(a) as 42_bus_and_command.md R172 lists it. -/
def guardedAddr (a : Addr) : Prop :=
  wordOffset a = 0x0008 ∨ wordOffset a = 0x0010 ∨ wordOffset a = 0x0014 ∨ wordOffset a = 0x0018 ∨
  wordOffset a = 0x001C ∨ wordOffset a = 0x0024 ∨ wordOffset a = 0x0028 ∨
  (0x4000 ≤ wordOffset a ∧ wordOffset a < 0x8000)

/-- IBUF[0..ILEN), the input of STUFF and DESTUFF (30_encoding.md R97). -/
def State.payload (s : State) : List Byte := (List.range s.ilen.toNat).map s.ibufByte

/-- How many bytes of an interior equal ESCAPE and are read while esc = 0 (41_stuff.md R151). -/
def escapesRead (esc : Bool) : List Byte → Nat
  | [] => 0
  | b :: bs =>
    if esc then escapesRead false bs
    else if b = Config.escape then escapesRead true bs + 1
    else escapesRead false bs

end Sys2Proof.Machine
end

