-- ==== Sys2Proof/Certificates/Slice0/Obligations.lean ====
section
/-! DEFINITION. The statements for the provers. -/

open Sys2Proof Sys2Proof.Machine

/-! ### Encoding and the step -/

/-- Decoding the encoding of a well-formed instruction gives it back, as bytes and on the bus. Where
each field of a transaction lies among its bits and bytes is the model's choice (log 9). -/
def Obligations.DecodeInvertsEncode : Prop :=
  ∀ i : Instr, i.wf = true → decode (encode i) = .ok i ∧ decodeBus (encodeBus i) = i

/-- Every transaction decodes to a well-formed instruction, and encoding that gives the transaction
back but for the bits the block ignores: a read's data, and a command's address bits 1:0 and data
bits 31:8 (R69, R90, R93). The places of the fields are the model's (log 9). -/
def Obligations.EncodeInvertsDecodeButForIgnoredBits : Prop :=
  ∀ t : BusWord, (decodeBus t).wf = true ∧
    encodeBus (decodeBus t) =
      if busWr t then
        if isCmdAddr (busAddr t) then busWriteWord 0x0008#16 (cmdWord (cmdOp (busData t))) else t
      else busReadWord (busAddr t)

/-- R91: the command is selected by v[7:0] alone. -/
def Obligations.OpcodeIsTheLowByteAlone : Prop :=
  ∀ v : Word,
    (v.extractLsb' 0 8 = 0x00#8 → decodeCmd v = .nop) ∧
    (v.extractLsb' 0 8 = 0x01#8 → decodeCmd v = .crcGen) ∧
    (v.extractLsb' 0 8 = 0x02#8 → decodeCmd v = .crcVerify) ∧
    (v.extractLsb' 0 8 = 0x10#8 → decodeCmd v = .stuff) ∧
    (v.extractLsb' 0 8 = 0x11#8 → decodeCmd v = .destuff) ∧
    (∀ op : Byte, v.extractLsb' 0 8 = op →
      op ≠ 0x00#8 ∧ op ≠ 0x01#8 ∧ op ≠ 0x02#8 ∧ op ≠ 0x10#8 ∧ op ≠ 0x11#8 →
      decodeCmd v = .reserved op)

/-- R93: on the port, a CMD write of v behaves exactly as a write of zext_32(v[7:0]), and a model
that refuses nothing refuses neither. -/
def Obligations.ReservedCmdBitsAreIgnored : Prop :=
  ∀ (s : State) (a : Addr) (v : Word) (rest : List Input), wordOffset a = 0x0008 →
    (∃ t, step { s with inputs := .host (busWriteWord a v) :: rest } = .next t) ∧
    step { s with inputs := .host (busWriteWord a v) :: rest } =
      step { s with inputs := .host (busWriteWord a ((v.extractLsb' 0 8).setWidth 32)) :: rest } ∧
    exec (.busWrite a v) s = exec (.busWrite a ((v.extractLsb' 0 8).setWidth 32)) s

/-- Words written out from the encoding decode to the instructions they stand for. The CMD words are
R91's. Of a 49-bit transaction R90 gives the fields and their widths alone: that wr is bit 48, addr
bits 47:32 and data bits 31:0 is the model's choice (log 9), and the last three words rest on it. -/
def Obligations.SampleWordsDecode : Prop :=
  decodeTableWord 32 0x00000000 = some .nop ∧
  decodeTableWord 32 0xABCDEF01 = some .crcGen ∧
  decodeTableWord 32 0x00000002 = some .crcVerify ∧
  decodeTableWord 32 0x00000010 = some .stuff ∧
  decodeTableWord 32 0x00000011 = some .destuff ∧
  decodeTableWord 32 0x000000FF = some (.reserved 0xFF#8) ∧
  decodeTableWord 49 0x0000C00000000 = some (.busRead 0x000C#16) ∧
  decodeTableWord 49 0x1400044332211 = some (.busWrite 0x4000#16 0x44332211#32) ∧
  decodeTableWord 49 0x1000800000003 = some (.reserved 0x03#8)

/-- A step with a host's transaction at the head of the schedule is exec of the instruction that
transaction decodes to, on the state with the transaction taken off; so it is for every well-formed
instruction encoded on the port and for every table word placed by withFetchWord (logs 2, 9). -/
def Obligations.StepRunsTheDecodedInstruction : Prop :=
  (∀ (s : State) (w : BusWord) (rest : List Input), s.inputs = .host w :: rest →
    step s = exec (decodeBus w) { s with inputs := rest }) ∧
  (∀ (s : State) (i : Instr) (rest : List Input), i.wf = true →
    step { s with inputs := .host (encodeBus i) :: rest } = exec i { s with inputs := rest }) ∧
  (∀ (s : State) (nbits w : Nat) (i : Instr), decodeTableWord nbits w = some i →
    step (s.withFetchWord nbits w) = exec i s)

/-- Decoding a write loses nothing: running the instruction a bus write decodes to is the bus write of
R171, at the CMD address too; and a read decodes to the read. -/
def Obligations.DecodedTransactionIsTheBusTransaction : Prop :=
  ∀ (s : State) (a : Addr) (v : Word),
    exec (decodeBus (busWriteWord a v)) s = exec (.busWrite a v) s ∧
    exec (decodeBus (busReadWord a)) s = exec (.busRead a) s

/-- No transaction of the one host stops the machine (R60: there is no error response); a second
host's is refused by name (R216, log 10). -/
def Obligations.OnlyASecondHostIsRefused : Prop :=
  (∀ (i : Instr) (s : State), ∃ t, exec i s = .next t) ∧
  (∀ s : State, (∀ w rest, s.inputs ≠ .otherHost w :: rest) → ∃ t, step s = .next t) ∧
  (∀ (s : State) w rest, s.inputs = .otherHost w :: rest → step s = .refused .secondHost)

/-! ### Reset -/

/-- R230: the reset step, from every state: each register takes its reset value, IBUF keeps every
byte, OBUF too unless a STUFF or DESTUFF was pending, irq is 0, and ID, PARAM and STATUS read their
values at once. -/
def Obligations.ResetStepGivesTheResetValues : Prop :=
  ∀ (s : State) (rest : List Input), Config.legalIbufBytes s.ibufBytes = true →
    ∃ t, step { s with inputs := .reset :: rest } = .next t ∧ t.inputs = rest ∧
      t.ieDone = false ∧ t.ieErr = false ∧ t.busy = false ∧ t.done = false ∧ t.matched = false ∧
      t.errIllegal = false ∧ t.errLen = false ∧ t.errBusy = false ∧ t.dsFrame = false ∧
      t.dsDangle = false ∧ t.dsRawflag = false ∧ t.dsBadesc = false ∧ t.frame = 0#100 ∧
      t.crcResult = 0#16 ∧ t.crcExpect = 0#16 ∧ t.ilen = 0#16 ∧ t.olen = 0#16 ∧ t.pending = none ∧
      t.ibufBytes = s.ibufBytes ∧ (∀ k, t.ibufByte k = s.ibufByte k) ∧
      (s.pending ≠ some .stuff → s.pending ≠ some .destuff → ∀ k, t.obufByte k = s.obufByte k) ∧
      t.irq = false ∧
      (∃ u, exec (.busRead 0x000C#16) t = .next u ∧ u.rdata = 0#32) ∧
      (∃ u, exec (.busRead 0x0000#16) t = .next u ∧ u.rdata = 0x43524331#32) ∧
      (∃ u, exec (.busRead 0x0030#16) t = .next u ∧
        u.rdata.toNat = (2 * s.ibufBytes + 4) * 65536 + s.ibufBytes)

/-- R231 with log 7: a reset cancels the pending command, none of its results is written to
CRC_RESULT, OLEN, MATCH or DS_*, which hold R230's zeros, the block is idle, no
completion follows however many turns the Block has, and after a cancelled STUFF or DESTUFF every
byte of OBUF is a fresh free value. -/
def Obligations.ResetCancelsThePendingCommand : Prop :=
  ∀ (s : State) (n : Nat),
    ∃ t, step { s with inputs := .reset :: List.replicate n .block } = .next t ∧
      Sys2Proof.core.run n t = .next { t with inputs := [] } ∧
      t.pending = none ∧ t.busy = false ∧ t.done = false ∧ t.crcResult = 0#16 ∧ t.olen = 0#16 ∧
      t.matched = false ∧ t.dsFrame = false ∧ t.dsDangle = false ∧ t.dsRawflag = false ∧
      t.dsBadesc = false ∧
      (s.pending = some .stuff ∨ s.pending = some .destuff →
        ∀ k, t.obufByte k = Config.obufDraw (s.obufEpoch + 1) k)

/-- The state after power-on and reset: R230's registers, and buffers that hold one free value a byte
(R232, logs 1 and 6), all of it written out as R20's record; the block is idle and stays so until an input comes. -/
def Obligations.PowerOnStateIsIdleWithDrawnBuffers : Prop :=
  (∀ k, State.reset.ibufByte k = Config.ibufPowerOn k) ∧
  (∀ k, State.reset.obufByte k = Config.obufDraw 0 k) ∧
  State.reset.resetStep = State.reset ∧ State.reset.irq = false ∧
  State.reset.ibufBytes = 256 ∧ State.reset.obufBytes = 516 ∧
  State.reset.block =
    { ieDone := false, ieErr := false, busy := false, done := false, matched := false
      errIllegal := false, errLen := false, errBusy := false, dsFrame := false, dsDangle := false
      dsRawflag := false, dsBadesc := false, frame := 0#100, crcResult := 0#16, crcExpect := 0#16
      ilen := 0#16, olen := 0#16, ibuf := Vector.ofFn fun k => Config.ibufPowerOn k
      obuf := Vector.ofFn fun k => Config.obufDraw 0 k, pending := none } ∧
  step State.reset = .next State.reset ∧ State.reset.Inv

/-! ### Invariants of every step -/

/-- Every step keeps the invariant of Safety.lean: the parameter legal, BUSY exactly while a command
is pending and DONE clear meanwhile, a pending STUFF or DESTUFF inside IBUF, both buffers canonical
and inside their sizes, OLEN in range. -/
def Obligations.EveryStepKeepsTheInvariant : Prop :=
  ∀ s t : State, s.Inv → step s = .next t → t.Inv

/-- R28: BUSY is 1 exactly while a command is pending, at reset and after every step, and the host
reads it in bit 0 of STATUS. -/
def Obligations.BusyExactlyWhilePending : Prop :=
  State.reset.busy = State.reset.pending.isSome ∧
  (∀ s t : State, s.busy = s.pending.isSome → step s = .next t → t.busy = t.pending.isSome) ∧
  (∀ s : State, ∃ u, exec (.busRead 0x000C#16) s = .next u ∧ u.rdata.getLsbD 0 = s.busy)

/-- R29: acceptance clears DONE, completion of any command sets it, a host write of 1 to bit 1 clears
it, NOP is never accepted and leaves it, and nothing but a completion sets it. -/
def Obligations.DoneIsSetByCompletionAlone : Prop :=
  (∀ (s : State) (c : Command) (rest : List Input), s.pending = some c →
    ∃ t, step { s with inputs := .block :: rest } = .next t ∧ t.pending = none ∧ t.done = true) ∧
  (∀ (s t : State) (i : Instr), s.pending = none → exec i s = .next t → t.pending ≠ none →
    t.done = false) ∧
  (∀ (s : State) (a : Addr) (v : Word), wordOffset a = 0x000C → v.getLsbD 1 = true →
    ∃ t, exec (.busWrite a v) s = .next t ∧ t.done = false) ∧
  (∀ s : State, ∃ t, exec .nop s = .next t ∧ t.done = s.done ∧ t.pending = s.pending) ∧
  (∀ s t : State, step s = .next t → s.done = false → t.done = true →
    s.pending ≠ none ∧ t.pending = none ∧ (s.inputs = [] ∨ ∃ rest, s.inputs = .block :: rest))

/-- Only a completion of CRC_GEN changes CRC_RESULT, only one of CRC_VERIFY changes MATCH, only one of
STUFF or DESTUFF changes OLEN or a byte of OBUF, and then only below OLEN, only one of DESTUFF changes
the DS_* flags; the reset step aside (R32, R35, R37, R39, R41). -/
def Obligations.ResultsChangeOnlyAtTheirCompletion : Prop :=
  ∀ s t : State, s.Inv → (∀ rest, s.inputs ≠ .reset :: rest) → step s = .next t →
    (t.crcResult ≠ s.crcResult →
      s.pending = some .crcGen ∧ t.pending = none ∧ t.crcResult = crc16 s.frame) ∧
    (t.matched ≠ s.matched →
      s.pending = some .crcVerify ∧ t.pending = none ∧
      t.matched = decide (crc16 s.frame = s.crcExpect)) ∧
    (t.olen ≠ s.olen →
      (s.pending = some .stuff ∨ s.pending = some .destuff) ∧ t.pending = none) ∧
    (∀ k, t.obufByte k ≠ s.obufByte k →
      (s.pending = some .stuff ∨ s.pending = some .destuff) ∧ t.pending = none ∧
      k < t.olen.toNat) ∧
    (t.dsFrame ≠ s.dsFrame ∨ t.dsDangle ≠ s.dsDangle ∨ t.dsRawflag ≠ s.dsRawflag ∨
        t.dsBadesc ≠ s.dsBadesc →
      s.pending = some .destuff ∧ t.pending = none)

/-- R40: no command writes IBUF and reset does not change it; a byte of IBUF changes only by a host
write, while BUSY = 0, of the word of the IBUF window that holds it. -/
def Obligations.IbufChangesOnlyByHostWrites : Prop :=
  ∀ (s t : State) (k : Nat), step s = .next t → t.ibufByte k ≠ s.ibufByte k →
    s.busy = false ∧ ∃ a v rest, s.inputs = .host (busWriteWord a v) :: rest ∧
      0x4000 ≤ wordOffset a ∧ wordOffset a < 0x8000 ∧ wordOffset a - 0x4000 < s.ibufBytes ∧
      wordOffset a - 0x4000 ≤ k ∧ k < wordOffset a - 0x4000 + 4 ∧
      t.ibufByte k = v.extractLsb' (8 * (k - (wordOffset a - 0x4000))) 8

/-- R200: an error bit, once 1, stays 1 until the host writes a 1 to it in STATUS or reset comes; and
the transaction that raises one has no other effect. -/
def Obligations.ErrorsAreStickyAndPrecise : Prop :=
  (∀ (s t : State) (e : ErrCause), step s = .next t → s.err e = true → t.err e = false →
    (∃ rest, s.inputs = .reset :: rest) ∨
    (∃ a v rest, s.inputs = .host (busWriteWord a v) :: rest ∧ wordOffset a = 0x000C ∧
      v.getLsbD e.code = true)) ∧
  (∀ (s t : State) (i : Instr), exec i s = .next t → s.err .illegal = false →
    t.err .illegal = true → t = { s with errIllegal := true }) ∧
  (∀ (s t : State) (i : Instr), exec i s = .next t → s.err .len = false →
    t.err .len = true → t = { s with errLen := true }) ∧
  (∀ (s t : State) (i : Instr), exec i s = .next t → s.err .busy = false →
    t.err .busy = true → t = { s with errBusy := true })

/-! ### Reads -/

/-- R24, R36: ID always reads 0x43524331. PARAM reads IBUF_BYTES in bits 15:0 and OBUF_BYTES in bits
31:16, for every legal IBUF_BYTES, busy or not; 0x02040100 at the default. -/
def Obligations.IdAndParamReadTheirConstants : Prop :=
  ∀ (s : State) (a : Addr),
    (wordOffset a = 0x0000 → exec (.busRead a) s = .next { s with rdata := 0x43524331#32 }) ∧
    (wordOffset a = 0x0030 → Config.legalIbufBytes s.ibufBytes = true →
      ∃ t, exec (.busRead a) s = .next t ∧ t = { s with rdata := t.rdata } ∧
        (t.rdata.extractLsb' 0 16).toNat = s.ibufBytes ∧
        (t.rdata.extractLsb' 16 16).toNat = 2 * s.ibufBytes + 4 ∧
        (s.ibufBytes = 256 → t.rdata = 0x02040100#32))

/-- What a read returns while BUSY = 0, at every address, PARAM under a legal IBUF_BYTES (R170 for an
idle block), and that it changes nothing but the value the host has read. -/
def Obligations.IdleReadReturnsTheLocation : Prop :=
  ∀ (s : State) (a : Addr), s.busy = false →
    ∃ t, exec (.busRead a) s = .next t ∧ t = { s with rdata := t.rdata } ∧
      (wordOffset a = 0x0000 → t.rdata = 0x43524331#32) ∧
      (wordOffset a = 0x0030 → Config.legalIbufBytes s.ibufBytes = true →
        (t.rdata.extractLsb' 0 16).toNat = s.ibufBytes ∧
        (t.rdata.extractLsb' 16 16).toNat = s.obufBytes) ∧
      (wordOffset a = 0x0004 → ∀ i < 32, t.rdata.getLsbD i =
        if i = 0 then s.ieDone else if i = 1 then s.ieErr else false) ∧
      (wordOffset a = 0x0008 → t.rdata = 0#32) ∧
      (wordOffset a = 0x000C → ∀ i < 32, t.rdata.getLsbD i =
        if i = 1 then s.done else if i = 2 then s.matched else if i = 8 then s.errIllegal
        else if i = 9 then s.errLen else if i = 10 then s.errBusy else if i = 16 then s.dsFrame
        else if i = 17 then s.dsDangle else if i = 18 then s.dsRawflag
        else if i = 19 then s.dsBadesc else false) ∧
      (∀ k < 4, wordOffset a = 0x0010 + 4 * k →
        ∀ i < 32, t.rdata.getLsbD i = s.frame.getLsbD (32 * k + i)) ∧
      (wordOffset a = 0x0020 → t.rdata = s.crcResult.setWidth 32) ∧
      (wordOffset a = 0x0024 → t.rdata = s.crcExpect.setWidth 32) ∧
      (wordOffset a = 0x0028 → t.rdata = s.ilen.setWidth 32) ∧
      (wordOffset a = 0x002C → t.rdata = s.olen.setWidth 32) ∧
      (0x0034 ≤ wordOffset a → wordOffset a < 0x4000 → t.rdata = 0#32) ∧
      (0x4000 ≤ wordOffset a → wordOffset a < 0x8000 →
        (wordOffset a - 0x4000 < s.ibufBytes → ∀ j < 4,
          t.rdata.extractLsb' (8 * j) 8 = s.ibufByte (wordOffset a - 0x4000 + j)) ∧
        (s.ibufBytes ≤ wordOffset a - 0x4000 → t.rdata = 0#32)) ∧
      (0x8000 ≤ wordOffset a →
        (wordOffset a - 0x8000 < s.obufBytes → ∀ j < 4,
          t.rdata.extractLsb' (8 * j) 8 = s.obufByte (wordOffset a - 0x8000 + j)) ∧
        (s.obufBytes ≤ wordOffset a - 0x8000 → t.rdata = 0#32))

/-- What a read returns while BUSY = 1 (R173, with log 5 for the form of the free value): CRC_RESULT,
OLEN and OBUF words inside OBUF read the draw, STATUS reads it in bits 2 and 19:16 and is exact in
the others, each such read uses up one draw, and every other read is exact. -/
def Obligations.BusyReadDrawsOnlyWhatIsUnspecified : Prop :=
  ∀ (s : State) (a : Addr), s.busy = true →
    ∃ t, exec (.busRead a) s = .next t ∧ t = { s with rdata := t.rdata, draws := t.draws } ∧
      (wordOffset a = 0x0020 ∨ wordOffset a = 0x002C ∨
          (0x8000 ≤ wordOffset a ∧ wordOffset a - 0x8000 < s.obufBytes) →
        t.rdata = Config.busyRead s.draws ∧ t.draws = s.draws + 1) ∧
      (wordOffset a = 0x000C → t.draws = s.draws + 1 ∧ ∀ i < 32, t.rdata.getLsbD i =
        if i = 0 then true else if i = 1 then s.done else if i = 8 then s.errIllegal
        else if i = 9 then s.errLen else if i = 10 then s.errBusy
        else if i = 2 ∨ i = 16 ∨ i = 17 ∨ i = 18 ∨ i = 19 then (Config.busyRead s.draws).getLsbD i
        else false) ∧
      (wordOffset a ≠ 0x0020 → wordOffset a ≠ 0x002C → wordOffset a ≠ 0x000C →
        (wordOffset a < 0x8000 ∨ s.obufBytes ≤ wordOffset a - 0x8000) →
        t.draws = s.draws ∧
        exec (.busRead a) { s with busy := false } = .next { s with busy := false, rdata := t.rdata })

/-- R69: the two low address bits are ignored. -/
def Obligations.LowAddressBitsAreIgnored : Prop :=
  ∀ (s : State) (a b : Addr) (v : Word), a.extractLsb' 2 14 = b.extractLsb' 2 14 →
    exec (.busRead a) s = exec (.busRead b) s ∧
    exec (.busWrite a v) s = exec (.busWrite b v) s ∧
    exec (decodeBus (busWriteWord a v)) s = exec (decodeBus (busWriteWord b v)) s

/-! ### Writes -/

/-- R172: while BUSY = 1 a write to a guarded address changes nothing but ERR_BUSY, which becomes 1,
and a write to any other address has the effect it has on an idle block. -/
def Obligations.BusyGuardRejectsGuardedWrites : Prop :=
  ∀ (s : State) (a : Addr) (v : Word), s.busy = true →
    (guardedAddr a → exec (.busWrite a v) s = .next { s with errBusy := true }) ∧
    (¬ guardedAddr a → ∃ t, exec (.busWrite a v) { s with busy := false } = .next t ∧
      exec (.busWrite a v) s = .next { t with busy := true })

/-- R201: ERR_BUSY is raised exactly by a write to a guarded address while BUSY = 1, and nothing else
is recorded. -/
def Obligations.ErrBusyIsRaisedExactlyByGuardedWrites : Prop :=
  ∀ (s : State) (i : Instr), s.errBusy = false →
    ∃ t, exec i s = .next t ∧
      (t.errBusy = true ↔ s.busy = true ∧ ∃ a, writeAddr i = some a ∧ guardedAddr a) ∧
      (t.errBusy = true → t = { s with errBusy := true })

/-- R202: ERR_ILLEGAL is raised exactly by a CMD write of a reserved opcode while BUSY = 0, and
nothing else is recorded. -/
def Obligations.ErrIllegalIsRaisedExactlyByReservedOpcodes : Prop :=
  ∀ (s : State) (i : Instr), i.wf = true → s.errIllegal = false →
    ∃ t, exec i s = .next t ∧
      (t.errIllegal = true ↔ s.busy = false ∧ ∃ op, i = .reserved op) ∧
      (t.errIllegal = true → t = { s with errIllegal := true })

/-- R203: ERR_LEN is raised exactly by a CMD write of STUFF or DESTUFF while BUSY = 0 with ILEN above
IBUF_BYTES, and nothing else is recorded; an empty input is no error. -/
def Obligations.ErrLenIsRaisedExactlyByOverlongInput : Prop :=
  (∀ (s : State) (i : Instr), s.errLen = false →
    ∃ t, exec i s = .next t ∧
      (t.errLen = true ↔ s.busy = false ∧ s.ibufBytes < s.ilen.toNat ∧
        (writtenOp i = some 0x10#8 ∨ writtenOp i = some 0x11#8)) ∧
      (t.errLen = true → t = { s with errLen := true })) ∧
  (∀ s : State, s.busy = false → s.ilen = 0#16 →
    exec .stuff s = .next { s with pending := some .stuff, busy := true, done := false } ∧
    exec .destuff s = .next { s with pending := some .destuff, busy := true, done := false })

/-- R208: one host write raises at most one error bit; a reserved opcode, or an overlong STUFF,
written while BUSY = 1 raises ERR_BUSY only. -/
def Obligations.OneWriteRaisesAtMostOneError : Prop :=
  (∀ (s t : State) (i : Instr) (e e' : ErrCause), exec i s = .next t →
    s.err e = false → t.err e = true → s.err e' = false → t.err e' = true → e = e') ∧
  (∀ (s : State) (op : Byte), s.busy = true →
    exec (.reserved op) s = .next { s with errBusy := true }) ∧
  (∀ s : State, s.busy = true → s.ibufBytes < s.ilen.toNat →
    exec .stuff s = .next { s with errBusy := true })

/-- The error bits affect no command (R38: "No command reads them; a command is accepted whatever
their value"). With other error bits every transaction but a read of STATUS does the same to
everything else and reads the same, and so do the Block's completion step and reset; irq depends on
them, but under IE_ERR alone (R44). -/
def Obligations.ErrorBitsAffectNoCommand : Prop :=
  (∀ (s : State) (i : Instr) (x y z : Bool), (∀ a, i = .busRead a → wordOffset a ≠ 0x000C) →
    ∃ t u, exec i s = .next t ∧
      exec i { s with errIllegal := x, errLen := y, errBusy := z } = .next u ∧
      u = { t with errIllegal := u.errIllegal, errLen := u.errLen, errBusy := u.errBusy }) ∧
  (∀ (s : State) (rest : List Input) (x y z : Bool),
    ∃ t, step { s with inputs := .block :: rest } = .next t ∧
      step { s with errIllegal := x, errLen := y, errBusy := z, inputs := .block :: rest } =
        .next { t with errIllegal := x, errLen := y, errBusy := z }) ∧
  (∀ (s : State) (rest : List Input) (x y z : Bool),
    step { s with errIllegal := x, errLen := y, errBusy := z, inputs := .reset :: rest } =
      step { s with inputs := .reset :: rest }) ∧
  (∀ (s : State) (x y z : Bool), s.ieErr = false →
    { s with errIllegal := x, errLen := y, errBusy := z }.irq = s.irq)

/-- R25, R27: a write to CTRL, busy or not, sets both enables and nothing else; a write to STATUS, busy
or not, clears each write-1-to-clear field at a 1 bit and changes nothing else. -/
def Obligations.ControlWritesAreNotGuarded : Prop :=
  ∀ (s : State) (a : Addr) (v : Word),
    (wordOffset a = 0x0004 →
      exec (.busWrite a v) s = .next { s with ieDone := v.getLsbD 0, ieErr := v.getLsbD 1 }) ∧
    (wordOffset a = 0x000C →
      exec (.busWrite a v) s = .next { s with
        done := if v.getLsbD 1 then false else s.done
        errIllegal := if v.getLsbD 8 then false else s.errIllegal
        errLen := if v.getLsbD 9 then false else s.errLen
        errBusy := if v.getLsbD 10 then false else s.errBusy })

/-- R30: FRAMEk holds F[32k+31:32k], FRAME3 the top four bits; a write sets exactly those bits and
nothing else, a read returns them zero-extended, and the registers are busy-guarded. -/
def Obligations.FrameRegistersAreThePartsOfTheFrame : Prop :=
  ∀ (s : State) (a : Addr) (k : Nat), k < 4 → wordOffset a = 0x0010 + 4 * k →
    (∃ t, exec (.busRead a) s = .next t ∧ t = { s with rdata := t.rdata } ∧
      ∀ i < 32, t.rdata.getLsbD i = s.frame.getLsbD (32 * k + i)) ∧
    (∀ v : Word, s.busy = false → ∃ t, exec (.busWrite a v) s = .next t ∧
      t = { s with frame := t.frame } ∧
      ∀ i < 100, t.frame.getLsbD i =
        if 32 * k ≤ i ∧ i < 32 * k + 32 then v.getLsbD (i - 32 * k) else s.frame.getLsbD i) ∧
    (∀ v : Word, s.busy = true → exec (.busWrite a v) s = .next { s with errBusy := true })

/-- R33, R34: CRC_EXPECT and ILEN hold v[15:0] of what is written while BUSY = 0, read it zero-extended
and are busy-guarded; ILEN takes values above IBUF_BYTES too, and the check comes when a command is
written. -/
def Obligations.ExpectAndLengthHoldTheLowHalf : Prop :=
  ∀ (s : State) (a : Addr) (v : Word),
    (wordOffset a = 0x0024 →
      exec (.busRead a) s = .next { s with rdata := s.crcExpect.setWidth 32 } ∧
      (s.busy = false →
        exec (.busWrite a v) s = .next { s with crcExpect := v.extractLsb' 0 16 }) ∧
      (s.busy = true → exec (.busWrite a v) s = .next { s with errBusy := true })) ∧
    (wordOffset a = 0x0028 →
      exec (.busRead a) s = .next { s with rdata := s.ilen.setWidth 32 } ∧
      (s.busy = false → ∃ t, exec (.busWrite a v) s = .next t ∧
        t = { s with ilen := v.extractLsb' 0 16 } ∧
        (s.ibufBytes < (v.extractLsb' 0 16).toNat →
          exec .stuff t = .next { t with errLen := true } ∧
          exec .destuff t = .next { t with errLen := true })) ∧
      (s.busy = true → exec (.busWrite a v) s = .next { s with errBusy := true }))

/-- R64: the IBUF window is little-endian: a write of the word at byte offset p (= 4w) inside IBUF
stores v[8j+7:8j] in IBUF[p+j] and changes no other byte and nothing else; a read returns the four
bytes; beyond IBUF a read returns 0 and a write changes nothing; the window is busy-guarded. -/
def Obligations.IbufWindowIsLittleEndian : Prop :=
  ∀ (s : State) (a : Addr), 0x4000 ≤ wordOffset a → wordOffset a < 0x8000 →
    (∀ v : Word, s.busy = false → ∃ t, exec (.busWrite a v) s = .next t ∧
      t = { s with ibuf := t.ibuf } ∧
      ∀ k, t.ibufByte k =
        if wordOffset a - 0x4000 < s.ibufBytes ∧ wordOffset a - 0x4000 ≤ k ∧
            k < wordOffset a - 0x4000 + 4
        then v.extractLsb' (8 * (k - (wordOffset a - 0x4000))) 8 else s.ibufByte k) ∧
    (∀ v : Word, s.busy = false → s.ibufBytes ≤ wordOffset a - 0x4000 →
      exec (.busWrite a v) s = .next s) ∧
    (∀ v : Word, s.busy = true → exec (.busWrite a v) s = .next { s with errBusy := true }) ∧
    (∃ t, exec (.busRead a) s = .next t ∧ t = { s with rdata := t.rdata } ∧
      (wordOffset a - 0x4000 < s.ibufBytes → ∀ j < 4,
        t.rdata.extractLsb' (8 * j) 8 = s.ibufByte (wordOffset a - 0x4000 + j)) ∧
      (s.ibufBytes ≤ wordOffset a - 0x4000 → t.rdata = 0#32))

/-- R174: a write to ID, CRC_RESULT, OLEN, PARAM, a reserved offset or the OBUF window changes nothing
and raises no error; so does the part of a write that falls on a RAZ/WI or read-only field; so does,
while BUSY = 0, a write to the IBUF window beyond IBUF. -/
def Obligations.WritesToReadOnlyPlacesChangeNothing : Prop :=
  ∀ (s : State) (a : Addr) (v : Word),
    (wordOffset a = 0x0000 ∨ wordOffset a = 0x0020 ∨ wordOffset a = 0x002C ∨
        (0x0030 ≤ wordOffset a ∧ wordOffset a < 0x4000) ∨ 0x8000 ≤ wordOffset a →
      exec (.busWrite a v) s = .next s) ∧
    (wordOffset a = 0x0004 →
      exec (.busWrite a v) s = exec (.busWrite a (v &&& 0x00000003#32)) s) ∧
    (wordOffset a = 0x000C →
      exec (.busWrite a v) s = exec (.busWrite a (v &&& 0x00000702#32)) s) ∧
    (wordOffset a = 0x001C →
      exec (.busWrite a v) s = exec (.busWrite a (v &&& 0x0000000F#32)) s) ∧
    (wordOffset a = 0x0024 ∨ wordOffset a = 0x0028 →
      exec (.busWrite a v) s = exec (.busWrite a (v &&& 0x0000FFFF#32)) s) ∧
    (s.busy = false → 0x4000 + s.ibufBytes ≤ wordOffset a → wordOffset a < 0x8000 →
      exec (.busWrite a v) s = .next s)

/-- R238: a read that follows a write to the same read-write location, in the next transaction, returns
the written value as RAZ/WI fields allow: CTRL always, a busy-guarded location on an idle block; and
a read of STATUS right after an accepted command returns BUSY = 1. -/
def Obligations.ReadAfterWriteReturnsTheValue : Prop :=
  (∀ (s : State) (a : Addr) (v : Word) (rest : List Input),
    s.busy = false ∨ wordOffset a = 0x0004 →
    ∃ t, Sys2Proof.core.run 2
        { s with inputs := .host (busWriteWord a v) :: .host (busReadWord a) :: rest } = .next t ∧
      t.inputs = rest ∧
      (wordOffset a = 0x0004 → t.rdata = v &&& 0x00000003#32) ∧
      (wordOffset a = 0x0010 ∨ wordOffset a = 0x0014 ∨ wordOffset a = 0x0018 → t.rdata = v) ∧
      (wordOffset a = 0x001C → t.rdata = v &&& 0x0000000F#32) ∧
      (wordOffset a = 0x0024 ∨ wordOffset a = 0x0028 → t.rdata = v &&& 0x0000FFFF#32) ∧
      (0x4000 ≤ wordOffset a → wordOffset a < 0x8000 → wordOffset a < 0x4000 + s.ibufBytes →
        t.rdata = v)) ∧
  (∀ (s t : State) (v : Word), s.busy = false → exec (.busWrite 0x0008#16 v) s = .next t →
    t.pending ≠ s.pending →
    ∃ u, exec (.busRead 0x000C#16) t = .next u ∧ u.rdata.getLsbD 0 = true)

/-! ### Commands -/

/-- R181: NOP while BUSY = 0 has no effect at all; while BUSY = 1 it raises ERR_BUSY. -/
def Obligations.NopDoesNothing : Prop :=
  ∀ s : State, (s.busy = false → exec .nop s = .next s) ∧
    (s.busy = true → exec .nop s = .next { s with errBusy := true })

/-- R182: a reserved opcode while BUSY = 0 raises ERR_ILLEGAL and has no other effect; from the reset
state STATUS then reads 0x00000100. -/
def Obligations.ReservedOpcodeRaisesErrIllegal : Prop :=
  (∀ (s : State) (op : Byte), s.busy = false → (Instr.reserved op).wf = true →
    exec (.reserved op) s = .next { s with errIllegal := true }) ∧
  (∃ t u, exec (.busWrite 0x0008#16 0x00000003#32) State.reset = .next t ∧
    exec (.busRead 0x000C#16) t = .next u ∧ u.rdata = 0x00000100#32)

/-- R120: CRC_GEN. Accepted while BUSY = 0; its completion, at the Block's turn, sets CRC_RESULT to
crc16(F), ends the command and changes nothing else; CRC_RESULT then reads zero-extended; while
BUSY = 1 it only raises ERR_BUSY; the rule's corner cases and example. -/
def Obligations.CrcGenComputesTheCrc : Prop :=
  (∀ (s : State) (rest : List Input), s.busy = false →
    exec .crcGen s =
      .next { s with pending := some .crcGen, busy := true, done := false } ∧
    step { s with pending := some .crcGen, busy := true, done := false,
                  inputs := .block :: rest } =
      .next { s with crcResult := crc16 s.frame, pending := none, busy := false, done := true,
                     inputs := rest } ∧
    exec (.busRead 0x0020#16) { s with crcResult := crc16 s.frame, done := true } =
      .next { s with crcResult := crc16 s.frame, done := true,
                     rdata := (crc16 s.frame).setWidth 32 }) ∧
  (∀ s : State, s.busy = true → exec .crcGen s = .next { s with errBusy := true }) ∧
  crc16 0#100 = 0x0000#16 ∧ crc16 0x8000000000000000000000000#100 = 0x0B5A#16 ∧
  crc16 1#100 = 0x1021#16 ∧ crc16 0x4141414141414141414141414#100 = 0x4B0B#16

/-- R121: CRC_VERIFY. Accepted while BUSY = 0; its completion sets MATCH to whether crc16(F) is
CRC_EXPECT, ends the command and changes nothing else; while BUSY = 1 it only raises ERR_BUSY; MATCH
keeps its value through every other command; the rule's example. -/
def Obligations.CrcVerifyComparesTheCrc : Prop :=
  (∀ (s : State) (rest : List Input), s.busy = false →
    exec .crcVerify s =
      .next { s with pending := some .crcVerify, busy := true, done := false } ∧
    step { s with pending := some .crcVerify, busy := true, done := false,
                  inputs := .block :: rest } =
      .next { s with matched := decide (crc16 s.frame = s.crcExpect), pending := none,
                     busy := false, done := true, inputs := rest }) ∧
  (∀ s : State, s.busy = true → exec .crcVerify s = .next { s with errBusy := true }) ∧
  (∀ (s t : State) (c : Command) (rest : List Input), c ≠ .crcVerify →
    step { s with pending := some c, inputs := .block :: rest } = .next t →
    t.matched = s.matched) ∧
  verify 0x4141414141414141414141414#100 0x4B0B#16 = true ∧
  verify 0x4141414141414141414141414#100 0x4B0A#16 = false

/-- R160: STUFF. Accepted while BUSY = 0 with ILEN at most IBUF_BYTES; its completion writes
stuff(IBUF[0..ILEN)) to OBUF from byte 0 on, leaves every later byte of OBUF as it was, sets OLEN to
the length, ends the command and changes nothing else; ERR_LEN, ERR_BUSY; the rule's example. -/
def Obligations.StuffFillsTheOutputBuffer : Prop :=
  (∀ (s : State) (rest : List Input), Config.legalIbufBytes s.ibufBytes = true → s.busy = false →
    s.ilen.toNat ≤ s.ibufBytes →
    exec .stuff s = .next { s with pending := some .stuff, busy := true, done := false } ∧
    ∃ t, step { s with pending := some .stuff, busy := true, done := false,
                       inputs := .block :: rest } = .next t ∧
      t = { s with obuf := t.obuf, olen := t.olen, pending := none, busy := false, done := true,
                   inputs := rest } ∧
      t.olen.toNat = (stuff s.payload).length ∧
      (∀ k, k < t.olen.toNat → (stuff s.payload)[k]? = some (t.obufByte k)) ∧
      (∀ k, t.olen.toNat ≤ k → t.obufByte k = s.obufByte k)) ∧
  (∀ s : State, s.busy = false → s.ibufBytes < s.ilen.toNat →
    exec .stuff s = .next { s with errLen := true }) ∧
  (∀ s : State, s.busy = true → exec .stuff s = .next { s with errBusy := true }) ∧
  stuff [0x41#8, 0x7E#8, 0x7D#8, 0x00#8] =
    [0x7E#8, 0x41#8, 0x7D#8, 0x5E#8, 0x7D#8, 0x5D#8, 0x00#8, 0x7E#8]

/-- R161: DESTUFF. Accepted while BUSY = 0 with ILEN at most IBUF_BYTES, whatever the input holds; its
completion writes the output of destuff(IBUF[0..ILEN)) to OBUF from byte 0 on, leaves every later byte
as it was, sets OLEN and all four DS_* flags, ends the command and changes nothing else; ERR_LEN,
ERR_BUSY; the rule's example. -/
def Obligations.DestuffFillsTheOutputBuffer : Prop :=
  (∀ (s : State) (rest : List Input), Config.legalIbufBytes s.ibufBytes = true → s.busy = false →
    s.ilen.toNat ≤ s.ibufBytes →
    exec .destuff s = .next { s with pending := some .destuff, busy := true, done := false } ∧
    ∃ t, step { s with pending := some .destuff, busy := true, done := false,
                       inputs := .block :: rest } = .next t ∧
      t = { s with obuf := t.obuf, olen := t.olen, pending := none, busy := false, done := true,
                   dsFrame := (destuff s.payload).2.frame, dsDangle := (destuff s.payload).2.dangle,
                   dsRawflag := (destuff s.payload).2.rawflag,
                   dsBadesc := (destuff s.payload).2.badesc, inputs := rest } ∧
      t.olen.toNat = (destuff s.payload).1.length ∧
      (∀ k, k < t.olen.toNat → (destuff s.payload).1[k]? = some (t.obufByte k)) ∧
      (∀ k, t.olen.toNat ≤ k → t.obufByte k = s.obufByte k)) ∧
  (∀ s : State, s.busy = false → s.ibufBytes < s.ilen.toNat →
    exec .destuff s = .next { s with errLen := true }) ∧
  (∀ s : State, s.busy = true → exec .destuff s = .next { s with errBusy := true }) ∧
  destuff [0x7E#8, 0x41#8, 0x7D#8, 0x5E#8, 0x7D#8, 0x5D#8, 0x00#8, 0x7E#8] =
    ([0x41#8, 0x7E#8, 0x7D#8, 0x00#8], ⟨false, false, false, false⟩)

/-- R187: a completion raises no error, does not touch CTRL or the operands, and does the same
whatever CTRL holds; it always comes at the Block's turn; and only it or a reset ends a pending
command. -/
def Obligations.CompletionTouchesResultsOnly : Prop :=
  (∀ (s : State) (c : Command) (rest : List Input) (x y : Bool), s.pending = some c →
    ∃ t, step { s with inputs := .block :: rest } = .next t ∧ t.pending = none ∧
      s.sameControl t ∧ s.sameOperands t ∧
      step { s with ieDone := x, ieErr := y, inputs := .block :: rest } =
        .next { t with ieDone := x, ieErr := y }) ∧
  (∀ (s t : State) (c : Command), s.busy = true → s.pending = some c → step s = .next t →
    t.pending ≠ some c →
    s.inputs = [] ∨ (∃ rest, s.inputs = .block :: rest) ∨ (∃ rest, s.inputs = .reset :: rest))

/-- R79: a command uses the operands as they stood when it was accepted. Whatever transactions the
host makes while it is pending, the command stays pending, no operand and no result changes, and the
completion gives the results it would have given at once. -/
def Obligations.CommandsUseTheOperandsOfAcceptance : Prop :=
  ∀ (s : State) (c : Command) (ws : List BusWord) (rest : List Input),
    s.busy = true → s.pending = some c →
    ∃ t u v, Sys2Proof.core.run ws.length (s.withInputs (ws.map .host ++ .block :: rest)) = .next t ∧
      t.inputs = .block :: rest ∧ t.busy = true ∧ t.pending = some c ∧
      s.sameOperands t ∧ s.sameResults t ∧
      step t = .next u ∧ step (s.withInputs (.block :: rest)) = .next v ∧
      v.sameResults u ∧ v.sameOperands u ∧ u.pending = none

/-- R76: once a read of STATUS returns BUSY = 0 no command is pending, and from then on, as long as no
command is accepted and no reset comes, every result stays, however many steps the agents take. -/
def Obligations.ResultsStayUntilTheNextCommand : Prop :=
  ∀ s : State, s.Inv →
    (∃ u, exec (.busRead 0x000C#16) s = .next u ∧
      (u.rdata.getLsbD 0 = false ↔ s.pending = none)) ∧
    (∀ (n : Nat) (t : State), Sys2Proof.core.run n s = .next t → .reset ∉ s.inputs →
      (∀ m ≤ n, ∀ u, Sys2Proof.core.run m s = .next u → u.pending = none) →
      s.sameResults t ∧ t.busy = false)

/-- R186: completion always comes. With one host, a finite schedule runs dry within as many steps as it
has inputs, and one step more leaves no command pending (that the Block completes once the host is
silent is log 3). In a run that never ends and in which the Block's step is weakly fair, again and
again no command is pending. And there a host that stands at a WAIT (R100) and keeps taking turns
stops polling: it comes to the line after, with BUSY = 0. -/
def Obligations.CompletionAlwaysComes : Prop :=
  (∀ s : State, soleHost s.inputs = true →
    ∃ t, Sys2Proof.core.run (s.inputs.length + 1) s = .next t ∧ t.inputs = [] ∧ t.pending = none) ∧
  (∀ (g : Nat → Agent) (y : System), blockFair g y →
    ∀ n, ∃ m z, n ≤ m ∧ systemAt g y m = .next z ∧ z.block.pending = none) ∧
  (∀ (g : Nat → Agent) (y : System) (l x : Nat) (after : List HostLine),
    blockFair g y → hostRuns g → y.block.busy = y.block.pending.isSome →
    y.host.prog.drop y.host.line = pseudoWait l x ++ after →
    labelLine l y.host.prog 0 = some y.host.line →
    ∃ n z, systemAt g y n = .next z ∧ z.host.prog = y.host.prog ∧
      z.host.line = y.host.line + 3 ∧ z.block.busy = false ∧ z.block.pending = none)

/-! ### The interrupt -/

/-- R44: irq is the level IE_DONE & DONE | IE_ERR & any error bit, of every state. It falls only by a
write to CTRL, a write of ones to STATUS, the acceptance of a command or a reset (R206); masking a source does not clear it, so enabling it again raises irq at once. -/
def Obligations.IrqFallsOnlyWhenCleared : Prop :=
  (∀ s : State, s.irq = true ↔
    (s.ieDone = true ∧ s.done = true) ∨ (s.ieErr = true ∧ ∃ e, s.err e = true)) ∧
  (∀ s t : State, step s = .next t → s.irq = true → t.irq = false →
    (∃ rest, s.inputs = .reset :: rest) ∨
    (∃ a v rest, s.inputs = .host (busWriteWord a v) :: rest ∧
      (wordOffset a = 0x0004 ∨ (wordOffset a = 0x000C ∧ v &&& 0x00000702#32 ≠ 0#32) ∨
        (wordOffset a = 0x0008 ∧ t.pending ≠ none ∧ t.done = false)))) ∧
  (∀ s : State, s.irq = true →
    ∃ t u, exec (.busWrite 0x0004#16 0#32) s = .next t ∧ t.irq = false ∧
      t.done = s.done ∧ (∀ e, t.err e = s.err e) ∧
      exec (.busWrite 0x0004#16 3#32) t = .next u ∧ u.irq = true)

/-! ### The CRC function -/

/-- R112: crc16(F) is the remainder of F(x)·x¹⁶ divided by G(x) = x¹⁶ + x¹² + x⁵ + 1 over GF(2). -/
def Obligations.CrcIsThePolynomialRemainder : Prop :=
  ∀ f : Frame,
    (∑ j ∈ Finset.range 16,
        if (crc16 f).getLsbD j then (Polynomial.X : Polynomial (ZMod 2)) ^ j else 0) =
      ((∑ i ∈ Finset.range 100,
          if f.getLsbD i then (Polynomial.X : Polynomial (ZMod 2)) ^ i else 0) *
        Polynomial.X ^ 16) %ₘ
      (Polynomial.X ^ 16 + Polynomial.X ^ 12 + Polynomial.X ^ 5 + 1)

/-- R113: the bit-serial shift register gives the same result for every frame. -/
def Obligations.SerialFormEqualsTheDivision : Prop := ∀ f : Frame, crc16Serial f = crc16 f

/-- R115: crc16 is linear over GF(2), so crc16(F) is the XOR of the codes of its single bits. -/
def Obligations.CrcIsLinear : Prop :=
  crc16 0#100 = 0#16 ∧ (∀ a b : Frame, crc16 (a ^^^ b) = crc16 a ^^^ crc16 b) ∧
  (∀ f : Frame, crc16 f = (List.range 100).foldl
    (fun c i => if f.getLsbD i then c ^^^ crc16 (BitVec.twoPow 100 i) else c) 0#16)

/-- R116: every single-bit change and every two-bit change of a frame changes its code. -/
def Obligations.OneAndTwoBitChangesAreDetected : Prop :=
  (∀ (f : Frame) (i : Nat), i < 100 → crc16 (f ^^^ BitVec.twoPow 100 i) ≠ crc16 f) ∧
  (∀ (f : Frame) (i j : Nat), i < j → j < 100 →
    crc16 (f ^^^ BitVec.twoPow 100 i ^^^ BitVec.twoPow 100 j) ≠ crc16 f) ∧
  (∀ i j : Nat, i < j → j < 100 → crc16 (BitVec.twoPow 100 i) ≠ crc16 (BitVec.twoPow 100 j))

/-- R119 on the machine: CRC_GEN, its code written to CRC_EXPECT, CRC_VERIFY, each followed by the
Block's turn, gives MATCH = 1 from every idle state; and verify(F, crc16(F)) is true for every F. -/
def Obligations.VerifyAfterComputeAlwaysPasses : Prop :=
  (∀ f : Frame, verify f (crc16 f) = true) ∧
  (∀ (s : State) (rest : List Input), s.busy = false →
    ∃ t, Sys2Proof.core.run 5 (s.withInputs
        (.host (encodeBus .crcGen) :: .block ::
         .host (busWriteWord 0x0024#16 ((crc16 s.frame).setWidth 32)) ::
         .host (encodeBus .crcVerify) :: .block :: rest)) = .next t ∧
      t.matched = true ∧ t.crcResult = crc16 s.frame ∧ t.frame = s.frame ∧ t.inputs = rest)

/-! ### The stuffer's functions -/

/-- R141, R151: the length of stuff, its bounds and when the upper one is reached, and the length of
destuff. -/
def Obligations.LengthsOfStuffAndDestuff : Prop :=
  (∀ s : List Byte,
    (stuff s).length = s.length + 2 + s.countP (fun b => b == 0x7E#8 || b == 0x7D#8) ∧
    2 ≤ (stuff s).length ∧ (stuff s).length ≤ 2 * s.length + 2 ∧
    ((stuff s).length = 2 * s.length + 2 ↔ ∀ b ∈ s, b = 0x7E#8 ∨ b = 0x7D#8)) ∧
  (∀ (a b : Byte) (mid : List Byte),
    (destuff (a :: (mid ++ [b]))).1.length + escapesRead false mid = mid.length) ∧
  (∀ y : List Byte, (destuff y).1.length ≤ y.length - 2)

/-- R142: stuff's output begins and ends with FLAG and holds no other; each ESCAPE in it is interior
and followed by 0x5E or 0x5D. -/
def Obligations.StuffShape : Prop :=
  ∀ s : List Byte, ∃ body : List Byte, stuff s = 0x7E#8 :: (body ++ [0x7E#8]) ∧ 0x7E#8 ∉ body ∧
    ∀ k, (stuff s)[k]? = some 0x7D#8 → 0 < k ∧ k + 1 < (stuff s).length ∧
      ((stuff s)[k + 1]? = some 0x5E#8 ∨ (stuff s)[k + 1]? = some 0x5D#8)

/-- R152, R153: an input of fewer than two bytes gives no output and DS_FRAME alone; of any other the
first and last bytes are skipped whatever they are, and only DS_FRAME tells of them. -/
def Obligations.OuterBytesAreSkippedUnchecked : Prop :=
  (∀ y : List Byte, y.length < 2 → destuff y = ([], ⟨true, false, false, false⟩)) ∧
  ∀ (a b : Byte) (mid : List Byte),
    (destuff (a :: (mid ++ [b]))).1 = (destuff (0x7E#8 :: (mid ++ [0x7E#8]))).1 ∧
    (destuff (a :: (mid ++ [b]))).2 =
      { (destuff (0x7E#8 :: (mid ++ [0x7E#8]))).2 with frame := a != 0x7E#8 || b != 0x7E#8 }

/-- R154: an unescaped 0x7E in the interior, after any interior p that leaves no escape open, is
emitted unchanged, does not end the frame, and is reported as DS_RAWFLAG. -/
def Obligations.RawFlagIsEmittedUnchanged : Prop :=
  ∀ (a b : Byte) (p q : List Byte), (destuff (a :: (p ++ [b]))).2.dangle = false →
    (destuff (a :: (p ++ 0x7E#8 :: q ++ [b]))).1 =
      (destuff (a :: (p ++ [b]))).1 ++ 0x7E#8 :: (destuff (a :: (q ++ [b]))).1 ∧
    (destuff (a :: (p ++ 0x7E#8 :: q ++ [b]))).2.rawflag = true

/-- R155: an ESCAPE at the interior's end, processed with esc = 0, is dropped and reported as
DS_DANGLE; the other three flags are those of the input without it. -/
def Obligations.DanglingEscapeIsDropped : Prop :=
  ∀ (a b : Byte) (p : List Byte), (destuff (a :: (p ++ [b]))).2.dangle = false →
    destuff (a :: (p ++ [0x7D#8] ++ [b])) =
      ((destuff (a :: (p ++ [b]))).1, { (destuff (a :: (p ++ [b]))).2 with dangle := true })

/-- R156: a byte after an ESCAPE is emitted XORed with 0x20 whatever it is, and one other than 0x5E
and 0x5D is reported as DS_BADESC. -/
def Obligations.NonCanonicalEscapeIsUndone : Prop :=
  ∀ (a b c : Byte) (p q : List Byte), (destuff (a :: (p ++ [b]))).2.dangle = false →
    (destuff (a :: (p ++ 0x7D#8 :: c :: q ++ [b]))).1 =
      (destuff (a :: (p ++ [b]))).1 ++ (c ^^^ 0x20#8) :: (destuff (a :: (q ++ [b]))).1 ∧
    (c ≠ 0x5E#8 → c ≠ 0x5D#8 →
      (destuff (a :: (p ++ 0x7D#8 :: c :: q ++ [b]))).2.badesc = true)

/-- R157: destuffing what stuff made gives the payload back with all four flags 0. -/
def Obligations.DestuffInvertsStuff : Prop :=
  ∀ s : List Byte, destuff (stuff s) = (s, ⟨false, false, false, false⟩)

/-- R158: stuffing what destuff made gives the framed sequence back exactly when destuff reported no
anomaly. -/
def Obligations.StuffInvertsDestuffExactlyOnCanonicalFrames : Prop :=
  ∀ y : List Byte, stuff (destuff y).1 = y ↔ (destuff y).2 = ⟨false, false, false, false⟩

/-- R10: OBUF_BYTES = 2·IBUF_BYTES + 4 makes every output fit, and is a whole number of words. -/
def Obligations.EveryOutputFitsTheOutputBuffer : Prop :=
  ∀ s : State, Config.legalIbufBytes s.ibufBytes = true → s.obufBytes % 4 = 0 ∧
    ∀ p : List Byte, p.length ≤ s.ibufBytes →
      (stuff p).length ≤ 2 * p.length + 2 ∧ (stuff p).length + 2 ≤ s.obufBytes ∧
      (destuff p).1.length ≤ p.length ∧ (destuff p).1.length ≤ s.obufBytes ∧
      s.obufBytes < 2 ^ 16

/-- The round trip on the machine (R162, R157): STUFF on one state, its output copied to IBUF and its
length to ILEN of a second, idle state with the same IBUF_BYTES, DESTUFF there: OBUF and OLEN give the
first payload back, with all DS_* flags 0. An output longer than IBUF_BYTES does not fit: DESTUFF is
then not accepted and raises ERR_LEN (R183). -/
def Obligations.StuffThenDestuffRestoresThePayload : Prop :=
  ∀ (s t u : State) (rest rest' : List Input),
    s.pending = some .stuff → s.inputs = .block :: rest →
    Config.legalIbufBytes s.ibufBytes = true → s.ilen.toNat ≤ s.ibufBytes → step s = .next t →
    u.busy = false → u.ibufBytes = s.ibufBytes → u.ilen = t.olen →
    (u.ilen.toNat ≤ u.ibufBytes → (∀ k, k < u.ilen.toNat → u.ibufByte k = t.obufByte k) →
      ∃ w, Sys2Proof.core.run 2 { u with inputs := .host (encodeBus .destuff) :: .block :: rest' } =
          .next w ∧
        w.olen = s.ilen ∧ (∀ k, k < s.ilen.toNat → w.obufByte k = s.ibufByte k) ∧
        w.dsFrame = false ∧ w.dsDangle = false ∧ w.dsRawflag = false ∧ w.dsBadesc = false) ∧
    (u.ibufBytes < (stuff s.payload).length → exec .destuff u = .next { u with errLen := true })

/-! ### The host's programs -/

/-- The lines of a host program (R99, R190): WR and RD are one transaction each and go on to the next
line, RD writes its variable with what was read and no other variable, BIT and labels make no
transaction, BIT goes to its label exactly if the bit is 1, HALT changes nothing. -/
def Obligations.HostLinesMeanTheirTransactions : Prop :=
  ∀ y : System,
    (∀ a v, y.host.prog[y.host.line]? = some (.wr a v) → ∃ s z,
      exec (.busWrite a v) y.block = .next s ∧ hostTurn y = .next z ∧
      z.block = s ∧ z.host = { y.host with line := y.host.line + 1 }) ∧
    (∀ a x, y.host.prog[y.host.line]? = some (.wrVar a x) → ∃ s z,
      exec (.busWrite a (y.host.getVar x)) y.block = .next s ∧ hostTurn y = .next z ∧
      z.block = s ∧ z.host = { y.host with line := y.host.line + 1 }) ∧
    (∀ a x, y.host.prog[y.host.line]? = some (.rd a x) → ∃ s z,
      exec (.busRead a) y.block = .next s ∧ hostTurn y = .next z ∧ z.block = s ∧
      z.host.line = y.host.line + 1 ∧ z.host.prog = y.host.prog ∧ z.host.getVar x = s.rdata ∧
      ∀ x', x' ≠ x → z.host.getVar x' = y.host.getVar x') ∧
    (∀ x n l k, y.host.prog[y.host.line]? = some (.bit x n l) →
      labelLine l y.host.prog 0 = some k →
      y.host.prog[k]? = some (.label l) ∧
      ∃ z, hostTurn y = .next z ∧ z.block = y.block ∧ z.host = { y.host with line := z.host.line } ∧
        z.host.line = if (y.host.getVar x).getLsbD n then k else y.host.line + 1) ∧
    (∀ l, y.host.prog[y.host.line]? = some (.label l) →
      hostTurn y = .next { y with host := { y.host with line := y.host.line + 1 } }) ∧
    (y.host.prog[y.host.line]? = some .halt → hostTurn y = .next y)
end

