-- ==== Sys2Proof/Laws/Decode.lean ====
section
/-! SUPPORT. The fields of a packed transaction, and the opcode of a CMD word. -/

namespace Sys2Proof

@[simp] theorem busWr_write (a : Addr) (v : Word) : busWr (busWriteWord a v) = true := by
  simp only [busWr, busWriteWord, BitVec.getLsbD_cast, BitVec.getLsbD_append]; rfl

@[simp] theorem busWr_read (a : Addr) : busWr (busReadWord a) = false := by
  simp only [busWr, busReadWord, BitVec.getLsbD_cast, BitVec.getLsbD_append]; rfl

@[simp] theorem busAddr_write (a : Addr) (v : Word) : busAddr (busWriteWord a v) = a := by
  apply BitVec.eq_of_getLsbD_eq
  intro i hi
  simp only [busAddr, busWriteWord, BitVec.getLsbD_cast, BitVec.getLsbD_append, BitVec.getLsbD_extractLsb', hi,
    show ¬ 32 + i < 32 by omega, show 32 + i - 32 = i by omega, decide_true, Bool.true_and, if_true,
    if_false]

@[simp] theorem busAddr_read (a : Addr) : busAddr (busReadWord a) = a := by
  apply BitVec.eq_of_getLsbD_eq
  intro i hi
  simp only [busAddr, busReadWord, BitVec.getLsbD_cast, BitVec.getLsbD_append, BitVec.getLsbD_extractLsb', hi,
    show ¬ 32 + i < 32 by omega, show 32 + i - 32 = i by omega, decide_true, Bool.true_and, if_true,
    if_false]

@[simp] theorem busData_write (a : Addr) (v : Word) : busData (busWriteWord a v) = v := by
  apply BitVec.eq_of_getLsbD_eq
  intro i hi
  simp only [busData, busWriteWord, BitVec.getLsbD_cast, BitVec.getLsbD_append,
    BitVec.getLsbD_extractLsb', hi, Nat.zero_add, decide_true, Bool.true_and, if_true]

/-- A write transaction is packed from its fields. -/
theorem busWriteWord_fields {t : BusWord} (h : busWr t = true) :
    busWriteWord (busAddr t) (busData t) = t := by
  apply BitVec.eq_of_getLsbD_eq
  intro i hi
  simp only [busWr, busWriteWord, busAddr, busData, BitVec.getLsbD_cast, BitVec.getLsbD_append,
    BitVec.getLsbD_extractLsb'] at h ⊢
  by_cases h1 : i < 32
  · simp [h1]
  · by_cases h2 : i - 32 < 16
    · simp [h1, h2, show 32 + (i - 32) = i by omega]
    · have h3 : i = 48 := by omega
      subst h3
      simpa using h.symm

/-- The opcode of a CMD word. -/
@[simp] theorem cmdOp_cmdWord (op : Byte) : cmdOp (cmdWord op) = op := by
  apply BitVec.eq_of_getLsbD_eq
  intro i hi
  simp only [cmdOp, cmdWord, BitVec.getLsbD_extractLsb', BitVec.getLsbD_setWidth, hi,
    show i < 32 by omega, decide_true, Bool.true_and, Nat.zero_add]

end Sys2Proof
end

