-- ==== Sys2Proof/Laws/Flags.lean ====
section
/-! SUPPORT. The bits of the words a host reads: CTRL, STATUS, the parts of the frame, and the bytes of
a buffer word. -/

namespace Sys2Proof.Machine

/-- The bits of CTRL (10_state.md R25). -/
theorem ctrlWord_getLsbD (s : State) {i : Nat} (hi : i < 32) :
    s.ctrlWord.getLsbD i = if i = 0 then s.ieDone else if i = 1 then s.ieErr else false := by
  interval_cases i <;>
    simp only [State.ctrlWord, BitVec.getLsbD_cast, BitVec.getLsbD_append, BitVec.getLsbD_ofBool,
      BitVec.getLsbD_zero] <;> simp

/-- The bits of STATUS (42_bus_and_command.md R170). -/
theorem statusWord_getLsbD (s : State) {i : Nat} (hi : i < 32) :
    s.statusWord.getLsbD i =
      if i = 0 then s.busy else if i = 1 then s.done else if i = 2 then s.unlessBusy 2 s.matched
      else if i = 8 then s.errIllegal else if i = 9 then s.errLen else if i = 10 then s.errBusy
      else if i = 16 then s.unlessBusy 16 s.dsFrame else if i = 17 then s.unlessBusy 17 s.dsDangle
      else if i = 18 then s.unlessBusy 18 s.dsRawflag
      else if i = 19 then s.unlessBusy 19 s.dsBadesc else false := by
  interval_cases i <;>
    simp only [State.statusWord, BitVec.getLsbD_cast, BitVec.getLsbD_append, BitVec.getLsbD_ofBool,
      BitVec.getLsbD_zero] <;> simp

/-- Byte j of a buffer word (20_memory.md R64). -/
theorem wordOfBytes_byte (b0 b1 b2 b3 : Byte) {j : Nat} (hj : j < 4) :
    some ((wordOfBytes b0 b1 b2 b3).extractLsb' (8 * j) 8) = [b0, b1, b2, b3][j]? := by
  have key : ∀ {b : Byte}, (∀ i < 8, (wordOfBytes b0 b1 b2 b3).getLsbD (8 * j + i) = b.getLsbD i) →
      (wordOfBytes b0 b1 b2 b3).extractLsb' (8 * j) 8 = b := by
    intro b h
    apply BitVec.eq_of_getLsbD_eq
    intro i hi
    rw [BitVec.getLsbD_extractLsb', h i hi]
    simp [hi]
  interval_cases j <;> refine congrArg some (key fun i hi => ?_) <;>
    simp only [wordOfBytes, BitVec.getLsbD_cast, BitVec.getLsbD_append]
  · rw [if_pos (by omega), Nat.mul_zero, Nat.zero_add]
  · rw [if_neg (by omega), if_pos (by omega)]; congr 1; omega
  · rw [if_neg (by omega), if_neg (by omega), if_pos (by omega)]; congr 1; omega
  · rw [if_neg (by omega), if_neg (by omega), if_neg (by omega)]; congr 1; omega

/-- Byte j of the IBUF word at byte offset p. -/
theorem ibufWord_byte (s : State) {p j : Nat} (hp : p % 4 = 0) (hj : j < 4) :
    (s.ibufWord (p / 4)).extractLsb' (8 * j) 8 = s.ibufByte (p + j) := by
  have h := wordOfBytes_byte (s.ibufByte (4 * (p / 4))) (s.ibufByte (4 * (p / 4) + 1))
    (s.ibufByte (4 * (p / 4) + 2)) (s.ibufByte (4 * (p / 4) + 3)) hj
  have e : 4 * (p / 4) = p := by omega
  rw [e] at h
  rw [State.ibufWord, e]
  interval_cases j <;> exact Option.some.inj h

/-- Byte j of the OBUF word at byte offset p. -/
theorem obufWord_byte (s : State) {p j : Nat} (hp : p % 4 = 0) (hj : j < 4) :
    (s.obufWord (p / 4)).extractLsb' (8 * j) 8 = s.obufByte (p + j) := by
  have h := wordOfBytes_byte (s.obufByte (4 * (p / 4))) (s.obufByte (4 * (p / 4) + 1))
    (s.obufByte (4 * (p / 4) + 2)) (s.obufByte (4 * (p / 4) + 3)) hj
  have e : 4 * (p / 4) = p := by omega
  rw [e] at h
  rw [State.obufWord, e]
  interval_cases j <;> exact Option.some.inj h

/-- The bits of the frame after a write of FRAME0 (10_state.md R30). -/
theorem setFrame0_getLsbD (f : Frame) (v : Word) (i : Nat) (hi : i < 100) :
    (setFrame0 f v).getLsbD i = if i < 32 then v.getLsbD i else f.getLsbD i := by
  simp only [setFrame0, BitVec.getLsbD_cast, BitVec.getLsbD_append, BitVec.getLsbD_extractLsb']
  split
  · rfl
  · rw [show 32 + (i - 32) = i by omega, decide_eq_true (by omega : i - 32 < 68), Bool.true_and]

/-- The bits of the frame after a write of FRAME1. -/
theorem setFrame1_getLsbD (f : Frame) (v : Word) (i : Nat) (hi : i < 100) :
    (setFrame1 f v).getLsbD i = if 32 ≤ i ∧ i < 64 then v.getLsbD (i - 32) else f.getLsbD i := by
  simp only [setFrame1, BitVec.getLsbD_cast, BitVec.getLsbD_append, BitVec.getLsbD_extractLsb']
  by_cases h1 : i < 32
  · grind
  · by_cases h2 : i < 64
    · rw [if_neg h1, if_pos (by omega), if_pos (by omega)]
    · rw [if_neg h1, if_neg (by omega), if_neg (by omega), show 64 + (i - 32 - 32) = i by omega,
        decide_eq_true (by omega : i - 32 - 32 < 36), Bool.true_and]

/-- The bits of the frame after a write of FRAME2. -/
theorem setFrame2_getLsbD (f : Frame) (v : Word) (i : Nat) (hi : i < 100) :
    (setFrame2 f v).getLsbD i = if 64 ≤ i ∧ i < 96 then v.getLsbD (i - 64) else f.getLsbD i := by
  simp only [setFrame2, BitVec.getLsbD_cast, BitVec.getLsbD_append, BitVec.getLsbD_extractLsb']
  by_cases h1 : i < 64
  · grind
  · by_cases h2 : i < 96
    · rw [if_neg h1, if_pos (by omega), if_pos (by omega)]
    · rw [if_neg h1, if_neg (by omega), if_neg (by omega), show 96 + (i - 64 - 32) = i by omega,
        decide_eq_true (by omega : i - 64 - 32 < 4), Bool.true_and]

/-- The bits of the frame after a write of FRAME3. -/
theorem setFrame3_getLsbD (f : Frame) (v : Word) (i : Nat) (hi : i < 100) :
    (setFrame3 f v).getLsbD i = if 96 ≤ i then v.getLsbD (i - 96) else f.getLsbD i := by
  simp only [setFrame3, BitVec.getLsbD_cast, BitVec.getLsbD_append, BitVec.getLsbD_extractLsb']
  by_cases h1 : i < 96
  · grind
  · rw [if_neg h1, if_pos (by omega), decide_eq_true (by omega : i - 96 < 4), Bool.true_and,
      Nat.zero_add]

end Sys2Proof.Machine
end

