-- ==== Sys2Proof/Laws/State.lean ====
section
/-! SUPPORT. What each named update of State does to each field: one lemma a field, so that no proof
unfolds a record update. -/

namespace Sys2Proof.Machine

/-! ### raise -/

@[simp] theorem raise_ieDone (e : ErrCause) (s : State) : (s.raise e).ieDone = s.ieDone :=
  by cases e <;> rfl
@[simp] theorem raise_ieErr (e : ErrCause) (s : State) : (s.raise e).ieErr = s.ieErr :=
  by cases e <;> rfl
@[simp] theorem raise_busy (e : ErrCause) (s : State) : (s.raise e).busy = s.busy :=
  by cases e <;> rfl
@[simp] theorem raise_done (e : ErrCause) (s : State) : (s.raise e).done = s.done :=
  by cases e <;> rfl
@[simp] theorem raise_matched (e : ErrCause) (s : State) : (s.raise e).matched = s.matched :=
  by cases e <;> rfl
@[simp] theorem raise_errIllegal (e : ErrCause) (s : State) : (s.raise e).errIllegal = (s.errIllegal || e == .illegal) :=
  by cases e <;> simp [State.raise]
@[simp] theorem raise_errLen (e : ErrCause) (s : State) : (s.raise e).errLen = (s.errLen || e == .len) :=
  by cases e <;> simp [State.raise]
@[simp] theorem raise_errBusy (e : ErrCause) (s : State) : (s.raise e).errBusy = (s.errBusy || e == .busy) :=
  by cases e <;> simp [State.raise]
@[simp] theorem raise_dsFrame (e : ErrCause) (s : State) : (s.raise e).dsFrame = s.dsFrame :=
  by cases e <;> rfl
@[simp] theorem raise_dsDangle (e : ErrCause) (s : State) : (s.raise e).dsDangle = s.dsDangle :=
  by cases e <;> rfl
@[simp] theorem raise_dsRawflag (e : ErrCause) (s : State) : (s.raise e).dsRawflag = s.dsRawflag :=
  by cases e <;> rfl
@[simp] theorem raise_dsBadesc (e : ErrCause) (s : State) : (s.raise e).dsBadesc = s.dsBadesc :=
  by cases e <;> rfl
@[simp] theorem raise_frame (e : ErrCause) (s : State) : (s.raise e).frame = s.frame :=
  by cases e <;> rfl
@[simp] theorem raise_crcResult (e : ErrCause) (s : State) : (s.raise e).crcResult = s.crcResult :=
  by cases e <;> rfl
@[simp] theorem raise_crcExpect (e : ErrCause) (s : State) : (s.raise e).crcExpect = s.crcExpect :=
  by cases e <;> rfl
@[simp] theorem raise_ilen (e : ErrCause) (s : State) : (s.raise e).ilen = s.ilen :=
  by cases e <;> rfl
@[simp] theorem raise_olen (e : ErrCause) (s : State) : (s.raise e).olen = s.olen :=
  by cases e <;> rfl
@[simp] theorem raise_ibuf (e : ErrCause) (s : State) : (s.raise e).ibuf = s.ibuf :=
  by cases e <;> rfl
@[simp] theorem raise_obuf (e : ErrCause) (s : State) : (s.raise e).obuf = s.obuf :=
  by cases e <;> rfl
@[simp] theorem raise_pending (e : ErrCause) (s : State) : (s.raise e).pending = s.pending :=
  by cases e <;> rfl
@[simp] theorem raise_ibufBytes (e : ErrCause) (s : State) : (s.raise e).ibufBytes = s.ibufBytes :=
  by cases e <;> rfl
@[simp] theorem raise_rdata (e : ErrCause) (s : State) : (s.raise e).rdata = s.rdata :=
  by cases e <;> rfl
@[simp] theorem raise_draws (e : ErrCause) (s : State) : (s.raise e).draws = s.draws :=
  by cases e <;> rfl
@[simp] theorem raise_obufEpoch (e : ErrCause) (s : State) : (s.raise e).obufEpoch = s.obufEpoch :=
  by cases e <;> rfl
@[simp] theorem raise_inputs (e : ErrCause) (s : State) : (s.raise e).inputs = s.inputs :=
  by cases e <;> rfl

/-! ### ackStatus -/

@[simp] theorem ackStatus_ieDone (v : Word) (s : State) : (s.ackStatus v).ieDone = s.ieDone := rfl
@[simp] theorem ackStatus_ieErr (v : Word) (s : State) : (s.ackStatus v).ieErr = s.ieErr := rfl
@[simp] theorem ackStatus_busy (v : Word) (s : State) : (s.ackStatus v).busy = s.busy := rfl
@[simp] theorem ackStatus_done (v : Word) (s : State) : (s.ackStatus v).done = (s.done && !v.getLsbD 1) :=
  rfl
@[simp] theorem ackStatus_matched (v : Word) (s : State) : (s.ackStatus v).matched = s.matched :=
  rfl
@[simp] theorem ackStatus_errIllegal (v : Word) (s : State) : (s.ackStatus v).errIllegal = (s.errIllegal && !v.getLsbD 8) :=
  rfl
@[simp] theorem ackStatus_errLen (v : Word) (s : State) : (s.ackStatus v).errLen = (s.errLen && !v.getLsbD 9) :=
  rfl
@[simp] theorem ackStatus_errBusy (v : Word) (s : State) : (s.ackStatus v).errBusy = (s.errBusy && !v.getLsbD 10) :=
  rfl
@[simp] theorem ackStatus_dsFrame (v : Word) (s : State) : (s.ackStatus v).dsFrame = s.dsFrame :=
  rfl
@[simp] theorem ackStatus_dsDangle (v : Word) (s : State) : (s.ackStatus v).dsDangle = s.dsDangle :=
  rfl
@[simp] theorem ackStatus_dsRawflag (v : Word) (s : State) : (s.ackStatus v).dsRawflag = s.dsRawflag :=
  rfl
@[simp] theorem ackStatus_dsBadesc (v : Word) (s : State) : (s.ackStatus v).dsBadesc = s.dsBadesc :=
  rfl
@[simp] theorem ackStatus_frame (v : Word) (s : State) : (s.ackStatus v).frame = s.frame := rfl
@[simp] theorem ackStatus_crcResult (v : Word) (s : State) : (s.ackStatus v).crcResult = s.crcResult :=
  rfl
@[simp] theorem ackStatus_crcExpect (v : Word) (s : State) : (s.ackStatus v).crcExpect = s.crcExpect :=
  rfl
@[simp] theorem ackStatus_ilen (v : Word) (s : State) : (s.ackStatus v).ilen = s.ilen := rfl
@[simp] theorem ackStatus_olen (v : Word) (s : State) : (s.ackStatus v).olen = s.olen := rfl
@[simp] theorem ackStatus_ibuf (v : Word) (s : State) : (s.ackStatus v).ibuf = s.ibuf := rfl
@[simp] theorem ackStatus_obuf (v : Word) (s : State) : (s.ackStatus v).obuf = s.obuf := rfl
@[simp] theorem ackStatus_pending (v : Word) (s : State) : (s.ackStatus v).pending = s.pending :=
  rfl
@[simp] theorem ackStatus_ibufBytes (v : Word) (s : State) : (s.ackStatus v).ibufBytes = s.ibufBytes :=
  rfl
@[simp] theorem ackStatus_rdata (v : Word) (s : State) : (s.ackStatus v).rdata = s.rdata := rfl
@[simp] theorem ackStatus_draws (v : Word) (s : State) : (s.ackStatus v).draws = s.draws := rfl
@[simp] theorem ackStatus_obufEpoch (v : Word) (s : State) : (s.ackStatus v).obufEpoch = s.obufEpoch :=
  rfl
@[simp] theorem ackStatus_inputs (v : Word) (s : State) : (s.ackStatus v).inputs = s.inputs := rfl

/-! ### accept -/

@[simp] theorem accept_ieDone (c : Command) (s : State) : (s.accept c).ieDone = s.ieDone := rfl
@[simp] theorem accept_ieErr (c : Command) (s : State) : (s.accept c).ieErr = s.ieErr := rfl
@[simp] theorem accept_busy (c : Command) (s : State) : (s.accept c).busy = true := rfl
@[simp] theorem accept_done (c : Command) (s : State) : (s.accept c).done = false := rfl
@[simp] theorem accept_matched (c : Command) (s : State) : (s.accept c).matched = s.matched := rfl
@[simp] theorem accept_errIllegal (c : Command) (s : State) : (s.accept c).errIllegal = s.errIllegal :=
  rfl
@[simp] theorem accept_errLen (c : Command) (s : State) : (s.accept c).errLen = s.errLen := rfl
@[simp] theorem accept_errBusy (c : Command) (s : State) : (s.accept c).errBusy = s.errBusy := rfl
@[simp] theorem accept_dsFrame (c : Command) (s : State) : (s.accept c).dsFrame = s.dsFrame := rfl
@[simp] theorem accept_dsDangle (c : Command) (s : State) : (s.accept c).dsDangle = s.dsDangle :=
  rfl
@[simp] theorem accept_dsRawflag (c : Command) (s : State) : (s.accept c).dsRawflag = s.dsRawflag :=
  rfl
@[simp] theorem accept_dsBadesc (c : Command) (s : State) : (s.accept c).dsBadesc = s.dsBadesc :=
  rfl
@[simp] theorem accept_frame (c : Command) (s : State) : (s.accept c).frame = s.frame := rfl
@[simp] theorem accept_crcResult (c : Command) (s : State) : (s.accept c).crcResult = s.crcResult :=
  rfl
@[simp] theorem accept_crcExpect (c : Command) (s : State) : (s.accept c).crcExpect = s.crcExpect :=
  rfl
@[simp] theorem accept_ilen (c : Command) (s : State) : (s.accept c).ilen = s.ilen := rfl
@[simp] theorem accept_olen (c : Command) (s : State) : (s.accept c).olen = s.olen := rfl
@[simp] theorem accept_ibuf (c : Command) (s : State) : (s.accept c).ibuf = s.ibuf := rfl
@[simp] theorem accept_obuf (c : Command) (s : State) : (s.accept c).obuf = s.obuf := rfl
@[simp] theorem accept_pending (c : Command) (s : State) : (s.accept c).pending = some c := rfl
@[simp] theorem accept_ibufBytes (c : Command) (s : State) : (s.accept c).ibufBytes = s.ibufBytes :=
  rfl
@[simp] theorem accept_rdata (c : Command) (s : State) : (s.accept c).rdata = s.rdata := rfl
@[simp] theorem accept_draws (c : Command) (s : State) : (s.accept c).draws = s.draws := rfl
@[simp] theorem accept_obufEpoch (c : Command) (s : State) : (s.accept c).obufEpoch = s.obufEpoch :=
  rfl
@[simp] theorem accept_inputs (c : Command) (s : State) : (s.accept c).inputs = s.inputs := rfl

/-! ### finish -/

@[simp] theorem finish_ieDone (s : State) : s.finish.ieDone = s.ieDone := rfl
@[simp] theorem finish_ieErr (s : State) : s.finish.ieErr = s.ieErr := rfl
@[simp] theorem finish_busy (s : State) : s.finish.busy = false := rfl
@[simp] theorem finish_done (s : State) : s.finish.done = true := rfl
@[simp] theorem finish_matched (s : State) : s.finish.matched = s.matched := rfl
@[simp] theorem finish_errIllegal (s : State) : s.finish.errIllegal = s.errIllegal := rfl
@[simp] theorem finish_errLen (s : State) : s.finish.errLen = s.errLen := rfl
@[simp] theorem finish_errBusy (s : State) : s.finish.errBusy = s.errBusy := rfl
@[simp] theorem finish_dsFrame (s : State) : s.finish.dsFrame = s.dsFrame := rfl
@[simp] theorem finish_dsDangle (s : State) : s.finish.dsDangle = s.dsDangle := rfl
@[simp] theorem finish_dsRawflag (s : State) : s.finish.dsRawflag = s.dsRawflag := rfl
@[simp] theorem finish_dsBadesc (s : State) : s.finish.dsBadesc = s.dsBadesc := rfl
@[simp] theorem finish_frame (s : State) : s.finish.frame = s.frame := rfl
@[simp] theorem finish_crcResult (s : State) : s.finish.crcResult = s.crcResult := rfl
@[simp] theorem finish_crcExpect (s : State) : s.finish.crcExpect = s.crcExpect := rfl
@[simp] theorem finish_ilen (s : State) : s.finish.ilen = s.ilen := rfl
@[simp] theorem finish_olen (s : State) : s.finish.olen = s.olen := rfl
@[simp] theorem finish_ibuf (s : State) : s.finish.ibuf = s.ibuf := rfl
@[simp] theorem finish_obuf (s : State) : s.finish.obuf = s.obuf := rfl
@[simp] theorem finish_pending (s : State) : s.finish.pending = none := rfl
@[simp] theorem finish_ibufBytes (s : State) : s.finish.ibufBytes = s.ibufBytes := rfl
@[simp] theorem finish_rdata (s : State) : s.finish.rdata = s.rdata := rfl
@[simp] theorem finish_draws (s : State) : s.finish.draws = s.draws := rfl
@[simp] theorem finish_obufEpoch (s : State) : s.finish.obufEpoch = s.obufEpoch := rfl
@[simp] theorem finish_inputs (s : State) : s.finish.inputs = s.inputs := rfl

/-! ### setCtrl -/

@[simp] theorem setCtrl_ieDone (v : Word) (s : State) : (s.setCtrl v).ieDone = v.getLsbD 0 := rfl
@[simp] theorem setCtrl_ieErr (v : Word) (s : State) : (s.setCtrl v).ieErr = v.getLsbD 1 := rfl
@[simp] theorem setCtrl_busy (v : Word) (s : State) : (s.setCtrl v).busy = s.busy := rfl
@[simp] theorem setCtrl_done (v : Word) (s : State) : (s.setCtrl v).done = s.done := rfl
@[simp] theorem setCtrl_matched (v : Word) (s : State) : (s.setCtrl v).matched = s.matched := rfl
@[simp] theorem setCtrl_errIllegal (v : Word) (s : State) : (s.setCtrl v).errIllegal = s.errIllegal :=
  rfl
@[simp] theorem setCtrl_errLen (v : Word) (s : State) : (s.setCtrl v).errLen = s.errLen := rfl
@[simp] theorem setCtrl_errBusy (v : Word) (s : State) : (s.setCtrl v).errBusy = s.errBusy := rfl
@[simp] theorem setCtrl_dsFrame (v : Word) (s : State) : (s.setCtrl v).dsFrame = s.dsFrame := rfl
@[simp] theorem setCtrl_dsDangle (v : Word) (s : State) : (s.setCtrl v).dsDangle = s.dsDangle := rfl
@[simp] theorem setCtrl_dsRawflag (v : Word) (s : State) : (s.setCtrl v).dsRawflag = s.dsRawflag :=
  rfl
@[simp] theorem setCtrl_dsBadesc (v : Word) (s : State) : (s.setCtrl v).dsBadesc = s.dsBadesc := rfl
@[simp] theorem setCtrl_frame (v : Word) (s : State) : (s.setCtrl v).frame = s.frame := rfl
@[simp] theorem setCtrl_crcResult (v : Word) (s : State) : (s.setCtrl v).crcResult = s.crcResult :=
  rfl
@[simp] theorem setCtrl_crcExpect (v : Word) (s : State) : (s.setCtrl v).crcExpect = s.crcExpect :=
  rfl
@[simp] theorem setCtrl_ilen (v : Word) (s : State) : (s.setCtrl v).ilen = s.ilen := rfl
@[simp] theorem setCtrl_olen (v : Word) (s : State) : (s.setCtrl v).olen = s.olen := rfl
@[simp] theorem setCtrl_ibuf (v : Word) (s : State) : (s.setCtrl v).ibuf = s.ibuf := rfl
@[simp] theorem setCtrl_obuf (v : Word) (s : State) : (s.setCtrl v).obuf = s.obuf := rfl
@[simp] theorem setCtrl_pending (v : Word) (s : State) : (s.setCtrl v).pending = s.pending := rfl
@[simp] theorem setCtrl_ibufBytes (v : Word) (s : State) : (s.setCtrl v).ibufBytes = s.ibufBytes :=
  rfl
@[simp] theorem setCtrl_rdata (v : Word) (s : State) : (s.setCtrl v).rdata = s.rdata := rfl
@[simp] theorem setCtrl_draws (v : Word) (s : State) : (s.setCtrl v).draws = s.draws := rfl
@[simp] theorem setCtrl_obufEpoch (v : Word) (s : State) : (s.setCtrl v).obufEpoch = s.obufEpoch :=
  rfl
@[simp] theorem setCtrl_inputs (v : Word) (s : State) : (s.setCtrl v).inputs = s.inputs := rfl

/-! ### setDs -/

@[simp] theorem setDs_ieDone (f : DsFlags) (s : State) : (s.setDs f).ieDone = s.ieDone := rfl
@[simp] theorem setDs_ieErr (f : DsFlags) (s : State) : (s.setDs f).ieErr = s.ieErr := rfl
@[simp] theorem setDs_busy (f : DsFlags) (s : State) : (s.setDs f).busy = s.busy := rfl
@[simp] theorem setDs_done (f : DsFlags) (s : State) : (s.setDs f).done = s.done := rfl
@[simp] theorem setDs_matched (f : DsFlags) (s : State) : (s.setDs f).matched = s.matched := rfl
@[simp] theorem setDs_errIllegal (f : DsFlags) (s : State) : (s.setDs f).errIllegal = s.errIllegal :=
  rfl
@[simp] theorem setDs_errLen (f : DsFlags) (s : State) : (s.setDs f).errLen = s.errLen := rfl
@[simp] theorem setDs_errBusy (f : DsFlags) (s : State) : (s.setDs f).errBusy = s.errBusy := rfl
@[simp] theorem setDs_dsFrame (f : DsFlags) (s : State) : (s.setDs f).dsFrame = f.frame := rfl
@[simp] theorem setDs_dsDangle (f : DsFlags) (s : State) : (s.setDs f).dsDangle = f.dangle := rfl
@[simp] theorem setDs_dsRawflag (f : DsFlags) (s : State) : (s.setDs f).dsRawflag = f.rawflag := rfl
@[simp] theorem setDs_dsBadesc (f : DsFlags) (s : State) : (s.setDs f).dsBadesc = f.badesc := rfl
@[simp] theorem setDs_frame (f : DsFlags) (s : State) : (s.setDs f).frame = s.frame := rfl
@[simp] theorem setDs_crcResult (f : DsFlags) (s : State) : (s.setDs f).crcResult = s.crcResult :=
  rfl
@[simp] theorem setDs_crcExpect (f : DsFlags) (s : State) : (s.setDs f).crcExpect = s.crcExpect :=
  rfl
@[simp] theorem setDs_ilen (f : DsFlags) (s : State) : (s.setDs f).ilen = s.ilen := rfl
@[simp] theorem setDs_olen (f : DsFlags) (s : State) : (s.setDs f).olen = s.olen := rfl
@[simp] theorem setDs_ibuf (f : DsFlags) (s : State) : (s.setDs f).ibuf = s.ibuf := rfl
@[simp] theorem setDs_obuf (f : DsFlags) (s : State) : (s.setDs f).obuf = s.obuf := rfl
@[simp] theorem setDs_pending (f : DsFlags) (s : State) : (s.setDs f).pending = s.pending := rfl
@[simp] theorem setDs_ibufBytes (f : DsFlags) (s : State) : (s.setDs f).ibufBytes = s.ibufBytes :=
  rfl
@[simp] theorem setDs_rdata (f : DsFlags) (s : State) : (s.setDs f).rdata = s.rdata := rfl
@[simp] theorem setDs_draws (f : DsFlags) (s : State) : (s.setDs f).draws = s.draws := rfl
@[simp] theorem setDs_obufEpoch (f : DsFlags) (s : State) : (s.setDs f).obufEpoch = s.obufEpoch :=
  rfl
@[simp] theorem setDs_inputs (f : DsFlags) (s : State) : (s.setDs f).inputs = s.inputs := rfl

/-! ### putOutput -/

@[simp] theorem putOutput_ieDone (o : List Byte) (s : State) : (s.putOutput o).ieDone = s.ieDone :=
  rfl
@[simp] theorem putOutput_ieErr (o : List Byte) (s : State) : (s.putOutput o).ieErr = s.ieErr := rfl
@[simp] theorem putOutput_busy (o : List Byte) (s : State) : (s.putOutput o).busy = s.busy := rfl
@[simp] theorem putOutput_done (o : List Byte) (s : State) : (s.putOutput o).done = s.done := rfl
@[simp] theorem putOutput_matched (o : List Byte) (s : State) : (s.putOutput o).matched = s.matched :=
  rfl
@[simp] theorem putOutput_errIllegal (o : List Byte) (s : State) : (s.putOutput o).errIllegal = s.errIllegal :=
  rfl
@[simp] theorem putOutput_errLen (o : List Byte) (s : State) : (s.putOutput o).errLen = s.errLen :=
  rfl
@[simp] theorem putOutput_errBusy (o : List Byte) (s : State) : (s.putOutput o).errBusy = s.errBusy :=
  rfl
@[simp] theorem putOutput_dsFrame (o : List Byte) (s : State) : (s.putOutput o).dsFrame = s.dsFrame :=
  rfl
@[simp] theorem putOutput_dsDangle (o : List Byte) (s : State) : (s.putOutput o).dsDangle = s.dsDangle :=
  rfl
@[simp] theorem putOutput_dsRawflag (o : List Byte) (s : State) : (s.putOutput o).dsRawflag = s.dsRawflag :=
  rfl
@[simp] theorem putOutput_dsBadesc (o : List Byte) (s : State) : (s.putOutput o).dsBadesc = s.dsBadesc :=
  rfl
@[simp] theorem putOutput_frame (o : List Byte) (s : State) : (s.putOutput o).frame = s.frame := rfl
@[simp] theorem putOutput_crcResult (o : List Byte) (s : State) : (s.putOutput o).crcResult = s.crcResult :=
  rfl
@[simp] theorem putOutput_crcExpect (o : List Byte) (s : State) : (s.putOutput o).crcExpect = s.crcExpect :=
  rfl
@[simp] theorem putOutput_ilen (o : List Byte) (s : State) : (s.putOutput o).ilen = s.ilen := rfl
@[simp] theorem putOutput_olen (o : List Byte) (s : State) : (s.putOutput o).olen = BitVec.ofNat 16 o.length :=
  rfl
@[simp] theorem putOutput_ibuf (o : List Byte) (s : State) : (s.putOutput o).ibuf = s.ibuf := rfl
@[simp] theorem putOutput_obuf (o : List Byte) (s : State) : (s.putOutput o).obuf = s.obuf.writeBytes 0 o :=
  rfl
@[simp] theorem putOutput_pending (o : List Byte) (s : State) : (s.putOutput o).pending = s.pending :=
  rfl
@[simp] theorem putOutput_ibufBytes (o : List Byte) (s : State) : (s.putOutput o).ibufBytes = s.ibufBytes :=
  rfl
@[simp] theorem putOutput_rdata (o : List Byte) (s : State) : (s.putOutput o).rdata = s.rdata := rfl
@[simp] theorem putOutput_draws (o : List Byte) (s : State) : (s.putOutput o).draws = s.draws := rfl
@[simp] theorem putOutput_obufEpoch (o : List Byte) (s : State) : (s.putOutput o).obufEpoch = s.obufEpoch :=
  rfl
@[simp] theorem putOutput_inputs (o : List Byte) (s : State) : (s.putOutput o).inputs = s.inputs :=
  rfl

/-! ### writeIbufWord -/

@[simp] theorem writeIbufWord_ieDone (w : Nat) (v : Word) (s : State) : (s.writeIbufWord w v).ieDone = s.ieDone :=
  by unfold State.writeIbufWord; split <;> rfl
@[simp] theorem writeIbufWord_ieErr (w : Nat) (v : Word) (s : State) : (s.writeIbufWord w v).ieErr = s.ieErr :=
  by unfold State.writeIbufWord; split <;> rfl
@[simp] theorem writeIbufWord_busy (w : Nat) (v : Word) (s : State) : (s.writeIbufWord w v).busy = s.busy :=
  by unfold State.writeIbufWord; split <;> rfl
@[simp] theorem writeIbufWord_done (w : Nat) (v : Word) (s : State) : (s.writeIbufWord w v).done = s.done :=
  by unfold State.writeIbufWord; split <;> rfl
@[simp] theorem writeIbufWord_matched (w : Nat) (v : Word) (s : State) : (s.writeIbufWord w v).matched = s.matched :=
  by unfold State.writeIbufWord; split <;> rfl
@[simp] theorem writeIbufWord_errIllegal (w : Nat) (v : Word) (s : State) : (s.writeIbufWord w v).errIllegal = s.errIllegal :=
  by unfold State.writeIbufWord; split <;> rfl
@[simp] theorem writeIbufWord_errLen (w : Nat) (v : Word) (s : State) : (s.writeIbufWord w v).errLen = s.errLen :=
  by unfold State.writeIbufWord; split <;> rfl
@[simp] theorem writeIbufWord_errBusy (w : Nat) (v : Word) (s : State) : (s.writeIbufWord w v).errBusy = s.errBusy :=
  by unfold State.writeIbufWord; split <;> rfl
@[simp] theorem writeIbufWord_dsFrame (w : Nat) (v : Word) (s : State) : (s.writeIbufWord w v).dsFrame = s.dsFrame :=
  by unfold State.writeIbufWord; split <;> rfl
@[simp] theorem writeIbufWord_dsDangle (w : Nat) (v : Word) (s : State) : (s.writeIbufWord w v).dsDangle = s.dsDangle :=
  by unfold State.writeIbufWord; split <;> rfl
@[simp] theorem writeIbufWord_dsRawflag (w : Nat) (v : Word) (s : State) : (s.writeIbufWord w v).dsRawflag = s.dsRawflag :=
  by unfold State.writeIbufWord; split <;> rfl
@[simp] theorem writeIbufWord_dsBadesc (w : Nat) (v : Word) (s : State) : (s.writeIbufWord w v).dsBadesc = s.dsBadesc :=
  by unfold State.writeIbufWord; split <;> rfl
@[simp] theorem writeIbufWord_frame (w : Nat) (v : Word) (s : State) : (s.writeIbufWord w v).frame = s.frame :=
  by unfold State.writeIbufWord; split <;> rfl
@[simp] theorem writeIbufWord_crcResult (w : Nat) (v : Word) (s : State) : (s.writeIbufWord w v).crcResult = s.crcResult :=
  by unfold State.writeIbufWord; split <;> rfl
@[simp] theorem writeIbufWord_crcExpect (w : Nat) (v : Word) (s : State) : (s.writeIbufWord w v).crcExpect = s.crcExpect :=
  by unfold State.writeIbufWord; split <;> rfl
@[simp] theorem writeIbufWord_ilen (w : Nat) (v : Word) (s : State) : (s.writeIbufWord w v).ilen = s.ilen :=
  by unfold State.writeIbufWord; split <;> rfl
@[simp] theorem writeIbufWord_olen (w : Nat) (v : Word) (s : State) : (s.writeIbufWord w v).olen = s.olen :=
  by unfold State.writeIbufWord; split <;> rfl
@[simp] theorem writeIbufWord_ibuf (w : Nat) (v : Word) (s : State) : (s.writeIbufWord w v).ibuf = if 4 * w < s.ibufBytes then s.ibuf.writeBytes (4 * w) (bytesOfWord v) else s.ibuf :=
  by unfold State.writeIbufWord; split <;> rfl
@[simp] theorem writeIbufWord_obuf (w : Nat) (v : Word) (s : State) : (s.writeIbufWord w v).obuf = s.obuf :=
  by unfold State.writeIbufWord; split <;> rfl
@[simp] theorem writeIbufWord_pending (w : Nat) (v : Word) (s : State) : (s.writeIbufWord w v).pending = s.pending :=
  by unfold State.writeIbufWord; split <;> rfl
@[simp] theorem writeIbufWord_ibufBytes (w : Nat) (v : Word) (s : State) : (s.writeIbufWord w v).ibufBytes = s.ibufBytes :=
  by unfold State.writeIbufWord; split <;> rfl
@[simp] theorem writeIbufWord_rdata (w : Nat) (v : Word) (s : State) : (s.writeIbufWord w v).rdata = s.rdata :=
  by unfold State.writeIbufWord; split <;> rfl
@[simp] theorem writeIbufWord_draws (w : Nat) (v : Word) (s : State) : (s.writeIbufWord w v).draws = s.draws :=
  by unfold State.writeIbufWord; split <;> rfl
@[simp] theorem writeIbufWord_obufEpoch (w : Nat) (v : Word) (s : State) : (s.writeIbufWord w v).obufEpoch = s.obufEpoch :=
  by unfold State.writeIbufWord; split <;> rfl
@[simp] theorem writeIbufWord_inputs (w : Nat) (v : Word) (s : State) : (s.writeIbufWord w v).inputs = s.inputs :=
  by unfold State.writeIbufWord; split <;> rfl

/-! ### resetStep -/

@[simp] theorem resetStep_ieDone (s : State) : s.resetStep.ieDone = false := rfl
@[simp] theorem resetStep_ieErr (s : State) : s.resetStep.ieErr = false := rfl
@[simp] theorem resetStep_busy (s : State) : s.resetStep.busy = false := rfl
@[simp] theorem resetStep_done (s : State) : s.resetStep.done = false := rfl
@[simp] theorem resetStep_matched (s : State) : s.resetStep.matched = false := rfl
@[simp] theorem resetStep_errIllegal (s : State) : s.resetStep.errIllegal = false := rfl
@[simp] theorem resetStep_errLen (s : State) : s.resetStep.errLen = false := rfl
@[simp] theorem resetStep_errBusy (s : State) : s.resetStep.errBusy = false := rfl
@[simp] theorem resetStep_dsFrame (s : State) : s.resetStep.dsFrame = false := rfl
@[simp] theorem resetStep_dsDangle (s : State) : s.resetStep.dsDangle = false := rfl
@[simp] theorem resetStep_dsRawflag (s : State) : s.resetStep.dsRawflag = false := rfl
@[simp] theorem resetStep_dsBadesc (s : State) : s.resetStep.dsBadesc = false := rfl
@[simp] theorem resetStep_frame (s : State) : s.resetStep.frame = 0#100 := rfl
@[simp] theorem resetStep_crcResult (s : State) : s.resetStep.crcResult = 0#16 := rfl
@[simp] theorem resetStep_crcExpect (s : State) : s.resetStep.crcExpect = 0#16 := rfl
@[simp] theorem resetStep_ilen (s : State) : s.resetStep.ilen = 0#16 := rfl
@[simp] theorem resetStep_olen (s : State) : s.resetStep.olen = 0#16 := rfl
@[simp] theorem resetStep_ibuf (s : State) : s.resetStep.ibuf = s.ibuf := rfl
@[simp] theorem resetStep_obuf (s : State) : s.resetStep.obuf = if s.stufferPending then [] else s.obuf :=
  rfl
@[simp] theorem resetStep_pending (s : State) : s.resetStep.pending = none := rfl
@[simp] theorem resetStep_ibufBytes (s : State) : s.resetStep.ibufBytes = s.ibufBytes := rfl
@[simp] theorem resetStep_rdata (s : State) : s.resetStep.rdata = s.rdata := rfl
@[simp] theorem resetStep_draws (s : State) : s.resetStep.draws = s.draws := rfl
@[simp] theorem resetStep_obufEpoch (s : State) : s.resetStep.obufEpoch = if s.stufferPending then s.obufEpoch + 1 else s.obufEpoch :=
  rfl
@[simp] theorem resetStep_inputs (s : State) : s.resetStep.inputs = s.inputs := rfl

/-! ### withInputs -/

@[simp] theorem withInputs_ieDone (is : List Input) (s : State) : (s.withInputs is).ieDone = s.ieDone :=
  rfl
@[simp] theorem withInputs_ieErr (is : List Input) (s : State) : (s.withInputs is).ieErr = s.ieErr :=
  rfl
@[simp] theorem withInputs_busy (is : List Input) (s : State) : (s.withInputs is).busy = s.busy :=
  rfl
@[simp] theorem withInputs_done (is : List Input) (s : State) : (s.withInputs is).done = s.done :=
  rfl
@[simp] theorem withInputs_matched (is : List Input) (s : State) : (s.withInputs is).matched = s.matched :=
  rfl
@[simp] theorem withInputs_errIllegal (is : List Input) (s : State) : (s.withInputs is).errIllegal = s.errIllegal :=
  rfl
@[simp] theorem withInputs_errLen (is : List Input) (s : State) : (s.withInputs is).errLen = s.errLen :=
  rfl
@[simp] theorem withInputs_errBusy (is : List Input) (s : State) : (s.withInputs is).errBusy = s.errBusy :=
  rfl
@[simp] theorem withInputs_dsFrame (is : List Input) (s : State) : (s.withInputs is).dsFrame = s.dsFrame :=
  rfl
@[simp] theorem withInputs_dsDangle (is : List Input) (s : State) : (s.withInputs is).dsDangle = s.dsDangle :=
  rfl
@[simp] theorem withInputs_dsRawflag (is : List Input) (s : State) : (s.withInputs is).dsRawflag = s.dsRawflag :=
  rfl
@[simp] theorem withInputs_dsBadesc (is : List Input) (s : State) : (s.withInputs is).dsBadesc = s.dsBadesc :=
  rfl
@[simp] theorem withInputs_frame (is : List Input) (s : State) : (s.withInputs is).frame = s.frame :=
  rfl
@[simp] theorem withInputs_crcResult (is : List Input) (s : State) : (s.withInputs is).crcResult = s.crcResult :=
  rfl
@[simp] theorem withInputs_crcExpect (is : List Input) (s : State) : (s.withInputs is).crcExpect = s.crcExpect :=
  rfl
@[simp] theorem withInputs_ilen (is : List Input) (s : State) : (s.withInputs is).ilen = s.ilen :=
  rfl
@[simp] theorem withInputs_olen (is : List Input) (s : State) : (s.withInputs is).olen = s.olen :=
  rfl
@[simp] theorem withInputs_ibuf (is : List Input) (s : State) : (s.withInputs is).ibuf = s.ibuf :=
  rfl
@[simp] theorem withInputs_obuf (is : List Input) (s : State) : (s.withInputs is).obuf = s.obuf :=
  rfl
@[simp] theorem withInputs_pending (is : List Input) (s : State) : (s.withInputs is).pending = s.pending :=
  rfl
@[simp] theorem withInputs_ibufBytes (is : List Input) (s : State) : (s.withInputs is).ibufBytes = s.ibufBytes :=
  rfl
@[simp] theorem withInputs_rdata (is : List Input) (s : State) : (s.withInputs is).rdata = s.rdata :=
  rfl
@[simp] theorem withInputs_draws (is : List Input) (s : State) : (s.withInputs is).draws = s.draws :=
  rfl
@[simp] theorem withInputs_obufEpoch (is : List Input) (s : State) : (s.withInputs is).obufEpoch = s.obufEpoch :=
  rfl
@[simp] theorem withInputs_inputs (is : List Input) (s : State) : (s.withInputs is).inputs = is :=
  rfl

/-! ### withFetchWord -/

@[simp] theorem withFetchWord_ieDone (nbits w : Nat) (s : State) : (s.withFetchWord nbits w).ieDone = s.ieDone :=
  rfl
@[simp] theorem withFetchWord_ieErr (nbits w : Nat) (s : State) : (s.withFetchWord nbits w).ieErr = s.ieErr :=
  rfl
@[simp] theorem withFetchWord_busy (nbits w : Nat) (s : State) : (s.withFetchWord nbits w).busy = s.busy :=
  rfl
@[simp] theorem withFetchWord_done (nbits w : Nat) (s : State) : (s.withFetchWord nbits w).done = s.done :=
  rfl
@[simp] theorem withFetchWord_matched (nbits w : Nat) (s : State) : (s.withFetchWord nbits w).matched = s.matched :=
  rfl
@[simp] theorem withFetchWord_errIllegal (nbits w : Nat) (s : State) : (s.withFetchWord nbits w).errIllegal = s.errIllegal :=
  rfl
@[simp] theorem withFetchWord_errLen (nbits w : Nat) (s : State) : (s.withFetchWord nbits w).errLen = s.errLen :=
  rfl
@[simp] theorem withFetchWord_errBusy (nbits w : Nat) (s : State) : (s.withFetchWord nbits w).errBusy = s.errBusy :=
  rfl
@[simp] theorem withFetchWord_dsFrame (nbits w : Nat) (s : State) : (s.withFetchWord nbits w).dsFrame = s.dsFrame :=
  rfl
@[simp] theorem withFetchWord_dsDangle (nbits w : Nat) (s : State) : (s.withFetchWord nbits w).dsDangle = s.dsDangle :=
  rfl
@[simp] theorem withFetchWord_dsRawflag (nbits w : Nat) (s : State) : (s.withFetchWord nbits w).dsRawflag = s.dsRawflag :=
  rfl
@[simp] theorem withFetchWord_dsBadesc (nbits w : Nat) (s : State) : (s.withFetchWord nbits w).dsBadesc = s.dsBadesc :=
  rfl
@[simp] theorem withFetchWord_frame (nbits w : Nat) (s : State) : (s.withFetchWord nbits w).frame = s.frame :=
  rfl
@[simp] theorem withFetchWord_crcResult (nbits w : Nat) (s : State) : (s.withFetchWord nbits w).crcResult = s.crcResult :=
  rfl
@[simp] theorem withFetchWord_crcExpect (nbits w : Nat) (s : State) : (s.withFetchWord nbits w).crcExpect = s.crcExpect :=
  rfl
@[simp] theorem withFetchWord_ilen (nbits w : Nat) (s : State) : (s.withFetchWord nbits w).ilen = s.ilen :=
  rfl
@[simp] theorem withFetchWord_olen (nbits w : Nat) (s : State) : (s.withFetchWord nbits w).olen = s.olen :=
  rfl
@[simp] theorem withFetchWord_ibuf (nbits w : Nat) (s : State) : (s.withFetchWord nbits w).ibuf = s.ibuf :=
  rfl
@[simp] theorem withFetchWord_obuf (nbits w : Nat) (s : State) : (s.withFetchWord nbits w).obuf = s.obuf :=
  rfl
@[simp] theorem withFetchWord_pending (nbits w : Nat) (s : State) : (s.withFetchWord nbits w).pending = s.pending :=
  rfl
@[simp] theorem withFetchWord_ibufBytes (nbits w : Nat) (s : State) : (s.withFetchWord nbits w).ibufBytes = s.ibufBytes :=
  rfl
@[simp] theorem withFetchWord_rdata (nbits w : Nat) (s : State) : (s.withFetchWord nbits w).rdata = s.rdata :=
  rfl
@[simp] theorem withFetchWord_draws (nbits w : Nat) (s : State) : (s.withFetchWord nbits w).draws = s.draws :=
  rfl
@[simp] theorem withFetchWord_obufEpoch (nbits w : Nat) (s : State) : (s.withFetchWord nbits w).obufEpoch = s.obufEpoch :=
  rfl
@[simp] theorem withFetchWord_inputs (nbits w : Nat) (s : State) : (s.withFetchWord nbits w).inputs = .host (tableBusWord nbits w) :: s.inputs :=
  rfl

end Sys2Proof.Machine
end

