-- ==== Sys2Proof/Laws/Memory.lean ====
section
/-! SUPPORT. The laws of the buffers: read after write, and every write keeps the canonical form and
the bounds. -/

namespace Sys2Proof.Machine

theorem Memory.read?_write (m : Memory) (k j : Nat) (v : Byte) :
    (m.write k v).read? j = if j = k then some v else m.read? j := by
  induction m with
  | nil => simp [Memory.write, Memory.read?]
  | cons c m ih =>
    obtain ⟨a, b⟩ := c
    simp only [Memory.write]
    split
    · simp [Memory.read?]
    · split <;> simp only [Memory.read?, ih] <;> grind

/-- A read after a write to the same index gives the value written. -/
@[simp] theorem Memory.read?_write_same (m : Memory) (k : Nat) (v : Byte) :
    (m.write k v).read? k = some v := by simp [Memory.read?_write]

/-- A write leaves every other index alone. -/
theorem Memory.read?_write_other (m : Memory) {k j : Nat} (v : Byte) (h : j ≠ k) :
    (m.write k v).read? j = m.read? j := by simp [Memory.read?_write, h]

/-- MemWrite stores the list from index k on and nothing else. -/
theorem Memory.read?_writeBytes (m : Memory) (k j : Nat) (bs : List Byte) :
    (m.writeBytes k bs).read? j = if k ≤ j ∧ j < k + bs.length then bs[j - k]? else m.read? j := by
  induction bs generalizing k with
  | nil => simp [Memory.writeBytes]
  | cons b bs ih =>
    simp only [Memory.writeBytes, Memory.read?_write, ih, List.length_cons]
    by_cases h : j = k
    · subst h; simp
    · by_cases h2 : k + 1 ≤ j ∧ j < k + 1 + bs.length
      · obtain ⟨d, rfl⟩ := Nat.exists_eq_add_of_le h2.1
        rw [if_neg h, if_pos h2, if_pos (by omega), show k + 1 + d - (k + 1) = d by omega,
          show k + 1 + d - k = d + 1 by omega, List.getElem?_cons_succ]
      · rw [if_neg h, if_neg h2, if_neg (by omega)]

theorem Memory.risesFrom_mono {lo lo' : Nat} {m : Memory} (h : lo' ≤ lo)
    (hm : m.risesFrom lo = true) : m.risesFrom lo' = true := by
  cases m with
  | nil => rfl
  | cons c m =>
    simp only [Memory.risesFrom, Bool.and_eq_true, decide_eq_true_eq] at *
    exact ⟨by omega, hm.2⟩

theorem Memory.risesFrom_write {lo : Nat} {m : Memory} (k : Nat) (v : Byte)
    (hm : m.risesFrom lo = true) (hk : lo ≤ k) : (m.write k v).risesFrom lo = true := by
  induction m generalizing lo with
  | nil => simp [Memory.write, Memory.risesFrom, hk]
  | cons c m ih =>
    obtain ⟨a, b⟩ := c
    simp only [Memory.risesFrom, Bool.and_eq_true, decide_eq_true_eq] at hm
    simp only [Memory.write]
    split
    · simp only [Memory.risesFrom, Bool.and_eq_true, decide_eq_true_eq]
      exact ⟨hk, by omega, hm.2⟩
    · split
      · subst_vars; simp [Memory.risesFrom, hm]
      · simp only [Memory.risesFrom, Bool.and_eq_true, decide_eq_true_eq]
        exact ⟨hm.1, ih hm.2 (by omega)⟩

/-- A write keeps the canonical form. -/
theorem Memory.wf_write {m : Memory} (k : Nat) (v : Byte) (h : m.wf = true) :
    (m.write k v).wf = true := Memory.risesFrom_write k v h (Nat.zero_le k)

/-- MemWrite keeps the canonical form. -/
theorem Memory.wf_writeBytes {m : Memory} (k : Nat) (bs : List Byte) (h : m.wf = true) :
    (m.writeBytes k bs).wf = true := by
  induction bs generalizing k with
  | nil => exact h
  | cons b bs ih => exact Memory.wf_write k b (ih (k + 1))

/-- A write inside a buffer keeps its bound. -/
theorem Memory.inside_write {n : Nat} {m : Memory} (k : Nat) (v : Byte) (hk : k < n)
    (h : m.inside n = true) : (m.write k v).inside n = true := by
  induction m with
  | nil => simp [Memory.write, Memory.inside, hk]
  | cons c m ih =>
    obtain ⟨a, b⟩ := c
    simp only [Memory.inside, List.all_cons, Bool.and_eq_true, decide_eq_true_eq] at h ih ⊢
    simp only [Memory.write]
    split
    · simpa [hk] using h
    · split
      · simpa [hk] using h.2
      · simpa [h.1] using ih h.2

/-- MemWrite inside a buffer keeps its bound. -/
theorem Memory.inside_writeBytes {n : Nat} {m : Memory} (k : Nat) (bs : List Byte)
    (hk : k + bs.length ≤ n) (h : m.inside n = true) : (m.writeBytes k bs).inside n = true := by
  induction bs generalizing k with
  | nil => exact h
  | cons b bs ih =>
    simp only [List.length_cons] at hk
    exact Memory.inside_write k b (by omega) (ih (k + 1) (by omega))

/-- Both buffers are canonical at reset. -/
theorem reset_memory_wf : State.reset.ibuf.wf = true ∧ State.reset.obuf.wf = true := ⟨rfl, rfl⟩

/-- The reset step keeps both buffers canonical. -/
theorem resetStep_memory_wf {s : State} (hi : s.ibuf.wf = true) (ho : s.obuf.wf = true) :
    s.resetStep.ibuf.wf = true ∧ s.resetStep.obuf.wf = true := by
  refine ⟨hi, ?_⟩
  rw [resetStep_obuf]
  split
  · rfl
  · exact ho

/-! ### The bytes a state reads -/

/-- What OBUF holds after a command's output is put there. -/
theorem putOutput_obufByte (s : State) (o : List Byte) (k : Nat) :
    (s.putOutput o).obufByte k = o[k]?.getD (s.obufByte k) := by
  simp only [State.obufByte, putOutput_obuf, putOutput_obufEpoch, Memory.read?_writeBytes]
  by_cases h : k < o.length
  · simp [h]
  · simp [h]

/-- What IBUF holds after a host write of word w. -/
theorem writeIbufWord_ibufByte (s : State) (w : Nat) (v : Word) (k : Nat) :
    (s.writeIbufWord w v).ibufByte k =
      if 4 * w < s.ibufBytes ∧ 4 * w ≤ k ∧ k < 4 * w + 4 then v.extractLsb' (8 * (k - 4 * w)) 8
      else s.ibufByte k := by
  simp only [State.ibufByte, writeIbufWord_ibuf]
  by_cases hw : 4 * w < s.ibufBytes
  · simp only [hw, if_true, true_and, Memory.read?_writeBytes, bytesOfWord, List.length_cons,
      List.length_nil]
    by_cases hk : 4 * w ≤ k ∧ k < 4 * w + 4
    · obtain ⟨d, rfl⟩ := Nat.exists_eq_add_of_le hk.1
      have hd : d < 4 := by omega
      rw [if_pos (by omega), if_pos hk, Nat.add_sub_cancel_left]
      interval_cases d <;> rfl
    · rw [if_neg (by omega), if_neg hk]
  · simp [hw]

/-- Byte k of R20's array IBUF. -/
@[simp] theorem block_ibuf (s : State) {k : Nat} (hk : k < s.ibufBytes) :
    s.block.ibuf[k] = s.ibufByte k := by
  simp [State.block, BlockState.withBuffers]

/-- Byte k of R20's array OBUF. -/
@[simp] theorem block_obuf (s : State) {k : Nat} (hk : k < s.obufBytes) :
    s.block.obuf[k] = s.obufByte k := by
  simp [State.block, BlockState.withBuffers]

@[simp] theorem block_ieDone (s : State) : s.block.ieDone = s.ieDone := rfl
@[simp] theorem block_ieErr (s : State) : s.block.ieErr = s.ieErr := rfl
@[simp] theorem block_busy (s : State) : s.block.busy = s.busy := rfl
@[simp] theorem block_done (s : State) : s.block.done = s.done := rfl
@[simp] theorem block_matched (s : State) : s.block.matched = s.matched := rfl
@[simp] theorem block_errIllegal (s : State) : s.block.errIllegal = s.errIllegal := rfl
@[simp] theorem block_errLen (s : State) : s.block.errLen = s.errLen := rfl
@[simp] theorem block_errBusy (s : State) : s.block.errBusy = s.errBusy := rfl
@[simp] theorem block_dsFrame (s : State) : s.block.dsFrame = s.dsFrame := rfl
@[simp] theorem block_dsDangle (s : State) : s.block.dsDangle = s.dsDangle := rfl
@[simp] theorem block_dsRawflag (s : State) : s.block.dsRawflag = s.dsRawflag := rfl
@[simp] theorem block_dsBadesc (s : State) : s.block.dsBadesc = s.dsBadesc := rfl
@[simp] theorem block_frame (s : State) : s.block.frame = s.frame := rfl
@[simp] theorem block_crcResult (s : State) : s.block.crcResult = s.crcResult := rfl
@[simp] theorem block_crcExpect (s : State) : s.block.crcExpect = s.crcExpect := rfl
@[simp] theorem block_ilen (s : State) : s.block.ilen = s.ilen := rfl
@[simp] theorem block_olen (s : State) : s.block.olen = s.olen := rfl
@[simp] theorem block_pending (s : State) : s.block.pending = s.pending := rfl

/-- MemRead gives n bytes. -/
@[simp] theorem readIbuf_length (s : State) (k n : Nat) : (s.readIbuf k n).length = n := by
  simp [State.readIbuf]

/-- MemRead gives the bytes from index k on. -/
theorem readIbuf_getElem? (s : State) (k n j : Nat) (h : j < n) :
    (s.readIbuf k n)[j]? = some (s.ibufByte (k + j)) := by
  simp [State.readIbuf, h]

end Sys2Proof.Machine
end

