-- ==== Sys2Proof/Laws/Ops.lean ====
section
/-! SUPPORT. What each shared operation can do, said once: command dispatch, completion, a write to a
location, and from these everything one host transaction can do to the state. -/

namespace Sys2Proof.Machine

/-- The frame operand assembled from its four registers is the frame (30_encoding.md R95). -/
@[simp] theorem frameOperand_eq (s : State) : s.frameOperand = s.frame := by
  unfold State.frameOperand State.frame3 State.frame2 State.frame1 State.frame0
  apply BitVec.eq_of_getLsbD_eq
  intro i hi
  simp only [BitVec.getLsbD_cast, BitVec.getLsbD_append, BitVec.getLsbD_extractLsb',
    BitVec.getLsbD_setWidth]
  by_cases h1 : i < 32
  · simp [h1]
  · by_cases h2 : i < 64
    · have h3 : i - 32 < 32 := by omega
      simp [h1, h3, show 32 + (i - 32) = i by omega]
    · by_cases h4 : i < 96
      · have h5 : ¬ i - 32 < 32 := by omega
        have h6 : i - 32 - 32 < 32 := by omega
        simp [h1, h5, h6, show 64 + (i - 32 - 32) = i by omega]
      · have h5 : ¬ i - 32 < 32 := by omega
        have h6 : ¬ i - 32 - 32 < 32 := by omega
        have h7 : i - 32 - 32 - 32 < 4 := by omega
        simp [h1, h5, h6, h7, show 96 + (i - 32 - 32 - 32) = i by omega,
          show i - 32 - 32 - 32 < 32 by omega]

/-- An opcode starts no command exactly when it is NOP's or not assigned. -/
theorem commandOf_none_iff (op : Byte) :
    commandOf op = none ↔ op = 0x00#8 ∨ assignedOp op = false := by
  unfold commandOf assignedOp
  grind

/-- `command(op)` does one of four things (42_bus_and_command.md R180). -/
theorem command_cases (op : Byte) (s : State) :
    (op = 0x00#8 ∧ command op s = s) ∨
    (assignedOp op = false ∧ command op s = s.raise .illegal) ∨
    (∃ c, commandOf op = some c ∧ usesIbuf c = true ∧ s.tooLong = true ∧
      command op s = s.raise .len) ∨
    (∃ c, commandOf op = some c ∧ (usesIbuf c && s.tooLong) = false ∧
      command op s = s.accept c) := by
  unfold command
  cases h : commandOf op with
  | none =>
    rcases (commandOf_none_iff op).1 h with h0 | h0
    · exact .inl ⟨h0, by simp [h0]⟩
    · refine .inr (.inl ⟨h0, ?_⟩)
      have : op ≠ 0x00#8 := by rintro rfl; simp [assignedOp] at h0
      simp [this]
  | some c =>
    cases hu : (usesIbuf c && s.tooLong) with
    | true =>
      have hh := hu
      simp only [Bool.and_eq_true] at hh
      exact .inr (.inr (.inl ⟨c, rfl, hh.1, hh.2, by simp [hu]⟩))
    | false => exact .inr (.inr (.inr ⟨c, rfl, hu, by simp [hu]⟩))

/-- A write to CMD while busy only raises ERR_BUSY (42_bus_and_command.md R172). -/
theorem cmdWrite_of_busy {s : State} (op : Byte) (h : s.busy = true) :
    cmdWrite op s = s.raise .busy := by simp [cmdWrite, h]

/-- A write to CMD while idle is command(op). -/
theorem cmdWrite_of_idle {s : State} (op : Byte) (h : s.busy = false) :
    cmdWrite op s = command op s := by simp [cmdWrite, h]

/-- Everything one host transaction can do to the state. -/
inductive HostEffect (s : State) : State → Prop
  | read (v : Word) (n : Nat) : HostEffect s { s with rdata := v, draws := n }
  | nothing : HostEffect s s
  | raise (e : ErrCause) : HostEffect s (s.raise e)
  | accept (c : Command) (idle : s.busy = false)
      (fits : usesIbuf c = true → s.tooLong = false) : HostEffect s (s.accept c)
  | setCtrl (v : Word) : HostEffect s (s.setCtrl v)
  | ackStatus (v : Word) : HostEffect s (s.ackStatus v)
  | frame (f : Frame) (idle : s.busy = false) : HostEffect s { s with frame := f }
  | crcExpect (e : Half) (idle : s.busy = false) : HostEffect s { s with crcExpect := e }
  | ilen (n : Half) (idle : s.busy = false) : HostEffect s { s with ilen := n }
  | ibuf (w : Nat) (v : Word) (idle : s.busy = false) : HostEffect s (s.writeIbufWord w v)

theorem command_effect (op : Byte) {s : State} (h : s.busy = false) :
    HostEffect s (command op s) := by
  rcases command_cases op s with ⟨_, e⟩ | ⟨_, e⟩ | ⟨c, _, _, _, e⟩ | ⟨c, _, hc, e⟩ <;> rw [e]
  · exact .nothing
  · exact .raise _
  · exact .raise _
  · exact .accept c h fun hu => by simpa [hu] using hc

theorem cmdWrite_effect (op : Byte) (s : State) : HostEffect s (cmdWrite op s) := by
  cases h : s.busy
  · rw [cmdWrite_of_idle op h]; exact command_effect op h
  · rw [cmdWrite_of_busy op h]; exact .raise _

theorem writeLoc_effect (v : Word) (l : Loc) {s : State} (h : (s.busy && guarded l) = false) :
    HostEffect s (s.writeLoc v l) := by
  cases l <;> simp only [guarded, Bool.and_true, Bool.and_false] at h
  case ctrl => exact .setCtrl v
  case cmd => exact command_effect _ h
  case status => exact .ackStatus v
  case frame0 => exact .frame _ h
  case frame1 => exact .frame _ h
  case frame2 => exact .frame _ h
  case frame3 => exact .frame _ h
  case crcExpect => exact .crcExpect _ h
  case ilen => exact .ilen _ h
  case ibuf w => exact .ibuf w v h
  all_goals exact .nothing

/-- exec always answers a next state, and it is one that a host transaction can make. -/
theorem exec_effect (i : Instr) (s : State) : ∃ t, exec i s = .next t ∧ HostEffect s t := by
  cases i with
  | nop => exact ⟨_, rfl, cmdWrite_effect _ s⟩
  | crcGen => exact ⟨_, rfl, cmdWrite_effect _ s⟩
  | crcVerify => exact ⟨_, rfl, cmdWrite_effect _ s⟩
  | stuff => exact ⟨_, rfl, cmdWrite_effect _ s⟩
  | destuff => exact ⟨_, rfl, cmdWrite_effect _ s⟩
  | reserved op => exact ⟨_, rfl, cmdWrite_effect _ s⟩
  | busRead addr => exact ⟨_, rfl, .read _ _⟩
  | busWrite addr v =>
    refine ⟨_, rfl, ?_⟩
    cases h : (s.busy && guarded (locate addr))
    · simpa [h] using writeLoc_effect v (locate addr) h
    · simpa [h] using HostEffect.raise (s := s) .busy

/-- The Block's turn completes the pending command, or does nothing. -/
theorem blockTurn_cases (s : State) :
    (s.pending = none ∧ blockTurn s = s) ∨ ∃ c, s.pending = some c ∧ blockTurn s = complete c s := by
  unfold blockTurn
  cases h : s.pending with
  | none => exact .inl ⟨rfl, rfl⟩
  | some c => exact .inr ⟨c, rfl, rfl⟩

/-- A completion ends the command and sets DONE, whichever command it is. -/
theorem complete_finished (c : Command) (s : State) :
    (complete c s).pending = none ∧ (complete c s).busy = false ∧ (complete c s).done = true := by
  cases c <;> exact ⟨rfl, rfl, rfl⟩

end Sys2Proof.Machine
end

