-- ==== Sys2Proof/Laws/Step.lean ====
section
/-! SUPPORT. What a step can do, said once, by the agent that takes it. -/

namespace Sys2Proof.Machine

/-- With no input left, the Block moves. -/
theorem step_of_nil {s : State} (h : s.inputs = []) : step s = .next (blockTurn s) := by
  simp [step, h]

/-- A host's transaction is decoded and run. -/
theorem step_of_host {s : State} {w : BusWord} {rest : List Input}
    (h : s.inputs = .host w :: rest) : step s = exec (decodeBus w) (s.withInputs rest) := by
  simp [step, h, State.withInputs]

/-- A second host is refused. -/
theorem step_of_otherHost {s : State} {w : BusWord} {rest : List Input}
    (h : s.inputs = .otherHost w :: rest) : step s = .refused .secondHost := by
  simp [step, h]

/-- The Block's turn. -/
theorem step_of_block {s : State} {rest : List Input} (h : s.inputs = .block :: rest) :
    step s = .next (blockTurn (s.withInputs rest)) := by
  simp [step, h, State.withInputs]

/-- The platform's reset. -/
theorem step_of_reset {s : State} {rest : List Input} (h : s.inputs = .reset :: rest) :
    step s = .next (s.withInputs rest).resetStep := by
  simp [step, h, State.withInputs]

/-- Everything a step that answers a next state can have done. -/
theorem step_cases {s t : State} (h : step s = .next t) :
    (s.inputs = [] ∧ t = blockTurn s) ∨
    (∃ w rest, s.inputs = .host w :: rest ∧ exec (decodeBus w) (s.withInputs rest) = .next t ∧
      HostEffect (s.withInputs rest) t) ∨
    (∃ rest, s.inputs = .block :: rest ∧ t = blockTurn (s.withInputs rest)) ∨
    (∃ rest, s.inputs = .reset :: rest ∧ t = (s.withInputs rest).resetStep) := by
  cases hi : s.inputs with
  | nil => rw [step_of_nil hi] at h; cases h; exact .inl ⟨rfl, rfl⟩
  | cons i rest =>
    cases i with
    | host w =>
      rw [step_of_host hi] at h
      obtain ⟨u, hu, he⟩ := exec_effect (decodeBus w) (s.withInputs rest)
      rw [h] at hu
      cases hu
      exact .inr (.inl ⟨w, rest, rfl, h, he⟩)
    | otherHost w => rw [step_of_otherHost hi] at h; cases h
    | block => rw [step_of_block hi] at h; cases h; exact .inr (.inr (.inl ⟨rest, rfl, rfl⟩))
    | reset => rw [step_of_reset hi] at h; cases h; exact .inr (.inr (.inr ⟨rest, rfl, rfl⟩))

/-- k + 1 steps are one step and then k. -/
theorem run_succ_of_step {k : Nat} {s t : State} (h : step s = .next t) :
    Sys2Proof.core.run (k + 1) s = Sys2Proof.core.run k t := by
  have h' : Sys2Proof.core.step s = .next t := h
  simp only [Host.Core.run, h']

end Sys2Proof.Machine
end

