-- ==== Sys2Proof/Laws/Host.lean ====
section
/-! SUPPORT. What each agent's turn does to the system of a host and its block, and runs of turns. -/

namespace Sys2Proof.Machine

/-- An input given to the block is the step that takes it. -/
theorem drive_of_step {y : System} {i : Input} {f : State → HostProc} {s : State}
    (h : step { y.block with inputs := i :: y.block.inputs } = .next s) :
    y.drive i f = .next ⟨f s, s⟩ := by
  simp only [System.drive, h]

/-- A transaction of the host's is run by exec and always answers. -/
theorem drive_host (y : System) (w : BusWord) (f : State → HostProc) :
    ∃ s, exec (decodeBus w) y.block = .next s ∧ HostEffect y.block s ∧
      y.drive (.host w) f = .next ⟨f s, s⟩ := by
  obtain ⟨s, hs, he⟩ := exec_effect (decodeBus w) y.block
  exact ⟨s, hs, he, drive_of_step hs⟩

/-- The Block's turn. -/
theorem systemStep_block (y : System) :
    systemStep .block y = .next ⟨y.host, blockTurn y.block⟩ := rfl

/-- The platform's turn. -/
theorem systemStep_platform (y : System) :
    systemStep .platform y = .next ⟨y.host, y.block.resetStep⟩ := rfl

/-- The host's turn always answers. -/
theorem hostTurn_next (y : System) : ∃ z, hostTurn y = .next z := by
  unfold hostTurn
  split
  case h_5 a v _ => obtain ⟨s, -, -, h⟩ := drive_host y _ _; exact ⟨_, h⟩
  case h_6 a t _ => obtain ⟨s, -, -, h⟩ := drive_host y _ _; exact ⟨_, h⟩
  case h_7 a t _ => obtain ⟨s, -, -, h⟩ := drive_host y _ _; exact ⟨_, h⟩
  all_goals exact ⟨_, rfl⟩

/-- Every agent's turn answers. -/
theorem systemStep_next (g : Agent) (y : System) : ∃ z, systemStep g y = .next z := by
  cases g with
  | host => exact hostTurn_next y
  | block => exact ⟨_, systemStep_block y⟩
  | platform => exact ⟨_, systemStep_platform y⟩

/-- After a Block turn no command is pending. -/
theorem blockTurn_pending (s : State) : (blockTurn s).pending = none := by
  rcases blockTurn_cases s with ⟨h, e⟩ | ⟨c, -, e⟩
  · rw [e, h]
  · rw [e, (complete_finished c s).1]

/-- Turns one after the other. -/
theorem systemRun_append {gs hs : List Agent} {y z : System} (h : systemRun gs y = .next z) :
    systemRun (gs ++ hs) y = systemRun hs z := by
  induction gs generalizing y with
  | nil => cases h; rfl
  | cons g gs ih =>
    obtain ⟨u, hu⟩ := systemStep_next g y
    simp only [systemRun, hu, List.cons_append] at h ⊢
    exact ih h

@[simp] theorem systemAt_zero (g : Nat → Agent) (y : System) : systemAt g y 0 = .next y := rfl

/-- One turn more. -/
theorem systemAt_succ {g : Nat → Agent} {y z : System} {n : Nat} (h : systemAt g y n = .next z) :
    systemAt g y (n + 1) = systemStep (g n) z := by
  obtain ⟨u, hu⟩ := systemStep_next (g n) z
  rw [systemAt, List.range_succ, List.map_append, systemRun_append h]
  simp only [List.map_cons, List.map_nil, systemRun, hu]

/-- Every number of turns answers. -/
theorem systemAt_next (g : Nat → Agent) (y : System) (n : Nat) : ∃ z, systemAt g y n = .next z := by
  induction n with
  | zero => exact ⟨y, rfl⟩
  | succ n ih =>
    obtain ⟨z, hz⟩ := ih
    rw [systemAt_succ hz]
    exact systemStep_next (g n) z

end Sys2Proof.Machine
end

