-- ==== Sys2Proof/Laws/Operands.lean ====
section
/-! SUPPORT. Where each word address leads, in terms of `addr & 0xFFFC` (20_memory.md R69, R73). Cite
these and do not unfold locate: its chain of tests is long for split and simp. -/

namespace Sys2Proof.Machine

theorem locate_def {a : Addr} {n : Nat} (h : wordOffset a = n) : locate a =
    if n < 0x4000 then
      if n = 0x0000 then .id
      else if n = 0x0004 then .ctrl
      else if n = 0x0008 then .cmd
      else if n = 0x000C then .status
      else if n = 0x0010 then .frame0
      else if n = 0x0014 then .frame1
      else if n = 0x0018 then .frame2
      else if n = 0x001C then .frame3
      else if n = 0x0020 then .crcResult
      else if n = 0x0024 then .crcExpect
      else if n = 0x0028 then .ilen
      else if n = 0x002C then .olen
      else if n = 0x0030 then .param
      else .reserved
    else if n < 0x8000 then .ibuf ((n - 0x4000) / 4)
    else .obuf ((n - 0x8000) / 4) := by subst h; rfl

theorem locate_id {a : Addr} (h : wordOffset a = 0x0000) : locate a = .id := by
  rw [locate_def h]; rfl

theorem locate_ctrl {a : Addr} (h : wordOffset a = 0x0004) : locate a = .ctrl := by
  rw [locate_def h]; rfl

theorem locate_cmd {a : Addr} (h : wordOffset a = 0x0008) : locate a = .cmd := by
  rw [locate_def h]; rfl

theorem locate_status {a : Addr} (h : wordOffset a = 0x000C) : locate a = .status := by
  rw [locate_def h]; rfl

theorem locate_frame0 {a : Addr} (h : wordOffset a = 0x0010) : locate a = .frame0 := by
  rw [locate_def h]; rfl

theorem locate_frame1 {a : Addr} (h : wordOffset a = 0x0014) : locate a = .frame1 := by
  rw [locate_def h]; rfl

theorem locate_frame2 {a : Addr} (h : wordOffset a = 0x0018) : locate a = .frame2 := by
  rw [locate_def h]; rfl

theorem locate_frame3 {a : Addr} (h : wordOffset a = 0x001C) : locate a = .frame3 := by
  rw [locate_def h]; rfl

theorem locate_crcResult {a : Addr} (h : wordOffset a = 0x0020) : locate a = .crcResult := by
  rw [locate_def h]; rfl

theorem locate_crcExpect {a : Addr} (h : wordOffset a = 0x0024) : locate a = .crcExpect := by
  rw [locate_def h]; rfl

theorem locate_ilen {a : Addr} (h : wordOffset a = 0x0028) : locate a = .ilen := by
  rw [locate_def h]; rfl

theorem locate_olen {a : Addr} (h : wordOffset a = 0x002C) : locate a = .olen := by
  rw [locate_def h]; rfl

theorem locate_param {a : Addr} (h : wordOffset a = 0x0030) : locate a = .param := by
  rw [locate_def h]; rfl

theorem locate_reserved {a : Addr} (h : 0x0034 ≤ wordOffset a) (h' : wordOffset a < 0x4000) :
    locate a = .reserved := by
  rw [locate_def rfl, if_pos h']
  iterate 13 rw [if_neg (by omega)]

theorem locate_ibuf {a : Addr} (h : 0x4000 ≤ wordOffset a) (h' : wordOffset a < 0x8000) :
    locate a = .ibuf ((wordOffset a - 0x4000) / 4) := by
  rw [locate_def rfl, if_neg (by omega), if_pos h']

theorem locate_obuf {a : Addr} (h : 0x8000 ≤ wordOffset a) :
    locate a = .obuf ((wordOffset a - 0x8000) / 4) := by
  rw [locate_def rfl, if_neg (by omega), if_neg (by omega)]

/-- A word offset is a multiple of 4. -/
theorem wordOffset_mod (a : Addr) : wordOffset a % 4 = 0 := by
  have h : (a &&& 0xFFFC#16) &&& 0x3#16 = 0#16 := by
    rw [BitVec.and_assoc, show (0xFFFC#16 &&& 0x3#16) = 0#16 from rfl, BitVec.and_zero]
  have h2 := congrArg BitVec.toNat h
  rw [BitVec.toNat_and] at h2
  have h3 : (a &&& 0xFFFC#16).toNat &&& (2 ^ 2 - 1) = (a &&& 0xFFFC#16).toNat % 2 ^ 2 :=
    Nat.and_two_pow_sub_one_eq_mod _ 2
  exact h3.symm.trans h2

theorem wordOffset_lt (a : Addr) : wordOffset a < 0x10000 := (a &&& 0xFFFC#16).isLt

/-- Every address leads to one place, and where it leads says what its word offset is. -/
theorem locate_cases (a : Addr) :
    (wordOffset a = 0x0000 ∧ locate a = .id) ∨
    (wordOffset a = 0x0004 ∧ locate a = .ctrl) ∨
    (wordOffset a = 0x0008 ∧ locate a = .cmd) ∨
    (wordOffset a = 0x000C ∧ locate a = .status) ∨
    (wordOffset a = 0x0010 ∧ locate a = .frame0) ∨
    (wordOffset a = 0x0014 ∧ locate a = .frame1) ∨
    (wordOffset a = 0x0018 ∧ locate a = .frame2) ∨
    (wordOffset a = 0x001C ∧ locate a = .frame3) ∨
    (wordOffset a = 0x0020 ∧ locate a = .crcResult) ∨
    (wordOffset a = 0x0024 ∧ locate a = .crcExpect) ∨
    (wordOffset a = 0x0028 ∧ locate a = .ilen) ∨
    (wordOffset a = 0x002C ∧ locate a = .olen) ∨
    (wordOffset a = 0x0030 ∧ locate a = .param) ∨
    (0x0034 ≤ wordOffset a ∧ wordOffset a < 0x4000 ∧ locate a = .reserved) ∨
    (0x4000 ≤ wordOffset a ∧ wordOffset a < 0x8000 ∧
      locate a = .ibuf ((wordOffset a - 0x4000) / 4)) ∨
    (0x8000 ≤ wordOffset a ∧ locate a = .obuf ((wordOffset a - 0x8000) / 4)) := by
  have hm := wordOffset_mod a
  by_cases h1 : 0x8000 ≤ wordOffset a
  · simp [h1, locate_obuf h1]
  by_cases h2 : 0x4000 ≤ wordOffset a
  · have h3 : wordOffset a < 0x8000 := by omega
    simp [h2, h3, locate_ibuf h2 h3]
  by_cases h4 : 0x0034 ≤ wordOffset a
  · have h5 : wordOffset a < 0x4000 := by omega
    simp [h4, h5, locate_reserved h4 h5]
  have h6 : wordOffset a = 0x0000 ∨ wordOffset a = 0x0004 ∨ wordOffset a = 0x0008 ∨ wordOffset a = 0x000C ∨
      wordOffset a = 0x0010 ∨ wordOffset a = 0x0014 ∨ wordOffset a = 0x0018 ∨ wordOffset a = 0x001C ∨
      wordOffset a = 0x0020 ∨ wordOffset a = 0x0024 ∨ wordOffset a = 0x0028 ∨ wordOffset a = 0x002C ∨
      wordOffset a = 0x0030 := by
    omega
  rcases h6 with h | h | h | h | h | h | h | h | h | h | h | h | h
  · simp [h, locate_id h]
  · simp [h, locate_ctrl h]
  · simp [h, locate_cmd h]
  · simp [h, locate_status h]
  · simp [h, locate_frame0 h]
  · simp [h, locate_frame1 h]
  · simp [h, locate_frame2 h]
  · simp [h, locate_frame3 h]
  · simp [h, locate_crcResult h]
  · simp [h, locate_crcExpect h]
  · simp [h, locate_ilen h]
  · simp [h, locate_olen h]
  · simp [h, locate_param h]

/-- CMD's address is the one whose word offset is 8 (30_encoding.md R90). -/
theorem isCmdAddr_iff (a : Addr) : isCmdAddr a = true ↔ wordOffset a = 0x0008 := by
  unfold isCmdAddr wordOffset
  rw [beq_iff_eq]
  exact ⟨fun h => by rw [h]; rfl, fun h => BitVec.eq_of_toNat_eq h⟩

/-- The CMD location is the CMD address. -/
theorem locate_cmd_iff (a : Addr) : locate a = .cmd ↔ wordOffset a = 0x0008 := by
  refine ⟨fun h => ?_, locate_cmd⟩
  have hc := locate_cases a
  rw [h] at hc
  simp only [reduceCtorEq, and_false, or_false, false_or, and_true] at hc
  exact hc

/-- The busy guard over word offsets (42_bus_and_command.md R172). -/
theorem guarded_iff (a : Addr) : guarded (locate a) = true ↔ guardedAddr a := by
  have hc := locate_cases a
  cases hl : locate a <;>
    simp only [hl, reduceCtorEq, and_false, false_or, or_false, and_true] at hc <;>
    simp only [guarded, guardedAddr, Bool.false_eq_true, true_iff, false_iff] <;> omega

/-- A location depends on the word address alone. -/
theorem locate_congr {a b : Addr} (h : wordOffset a = wordOffset b) : locate a = locate b := by
  rw [locate_def h, locate_def rfl]

end Sys2Proof.Machine
end

