-- ==== Sys2Proof/Laws/PerInstr.lean ====
section
/-! SUPPORT. Statements for all instructions, made per instruction. -/

namespace Sys2Proof.Laws.EncodeLength

/-- An instruction with an opcode encodes to the 4 bytes of a CMD word, a bus transaction to 7 bytes
(30_encoding.md R90). -/
def Statement (i : Instr) : Prop := (encode i).length = if (opOf i).isSome then 4 else 7

theorem nop : Statement .nop := rfl
theorem crcGen : Statement .crcGen := rfl
theorem crcVerify : Statement .crcVerify := rfl
theorem stuff : Statement .stuff := rfl
theorem destuff : Statement .destuff := rfl
theorem reserved (op : Byte) : Statement (.reserved op) := rfl
theorem busRead (addr : Addr) : Statement (.busRead addr) := rfl
theorem busWrite (addr : Addr) (v : Word) : Statement (.busWrite addr v) := rfl

end Sys2Proof.Laws.EncodeLength
end

