-- ==== Sys2Proof/Tests/Slice0.lean ====
section
/-! SUPPORT. Tests on fixed values, their expected results from 95_test_vectors.md or the rule named,
and for each statement of Certificates/Slice0 with hypotheses a witness that they can be met. -/

namespace Sys2Proof.Tests

open Sys2Proof Sys2Proof.Machine

/-- The next state, if there is one. -/
def after (o : Host.Outcome State Fault Refusal) : Option State :=
  match o with
  | .next t => some t
  | .fault _ => none
  | .refused _ => none

/-- One field of the state after one instruction. -/
def see {α : Type} (i : Instr) (s : State) (f : State → α) : Option α := (after (exec i s)).map f

/-- A reset block with a command accepted. -/
def busyWith (c : Command) : State := State.reset.accept c

/-- A reset block with bytes in IBUF and ILEN set to their number. -/
def loaded (bs : List Byte) : State :=
  { State.reset with ibuf := Memory.writeBytes [] 0 bs, ilen := BitVec.ofNat 16 bs.length }

/-- A reset block with a schedule. -/
def scheduled (is : List Input) : State := { State.reset with inputs := is }

/-- A busy block with a schedule. -/
def busyScheduled (c : Command) (is : List Input) : State := { busyWith c with inputs := is }

/-! ### WellFormed refuses each ill-formed term -/

theorem test_wf_refuses_assigned_as_reserved :
    [0x00#8, 0x01#8, 0x02#8, 0x10#8, 0x11#8].all (fun op => !(Instr.reserved op).wf) = true := by
  decide
theorem test_wf_refuses_plain_write_to_cmd :
    [0x0008#16, 0x0009#16, 0x000A#16, 0x000B#16].all (fun a => !(Instr.busWrite a 0#32).wf) = true := by
  decide
theorem test_wf_accepts_neighbours :
    ([0x03#8, 0x0F#8, 0x12#8, 0xFF#8].all (fun op => (Instr.reserved op).wf) &&
      [0x0007#16, 0x000C#16].all (fun a => (Instr.busWrite a 0#32).wf)) = true := by decide

/-! ### Decoding words written out from R90 and R91 -/

theorem test_decode_nop : decode [0x00#8, 0x00#8, 0x00#8, 0x00#8] = .ok .nop := by rfl
theorem test_decode_crcGen : decode [0x01#8, 0xEF#8, 0xCD#8, 0xAB#8] = .ok .crcGen := by rfl
theorem test_decode_crcVerify : decodeTableWord 32 0b00000010 = some .crcVerify := by decide
theorem test_decode_stuff : decodeTableWord 32 0b00010000 = some .stuff := by decide
theorem test_decode_destuff : decodeTableWord 32 0b00010001 = some .destuff := by decide
theorem test_decode_reserved : decodeTableWord 32 0b11111111 = some (.reserved 0xFF#8) := by decide
-- wr = 0, addr = 0x0033: 0 ++ 0000000000110011 ++ no data
theorem test_decode_busRead :
    decode [0#8, 0#8, 0#8, 0#8, 0x33#8, 0x00#8, 0x00#8] = .ok (.busRead 0x0033#16) := by rfl
-- wr = 1, addr = 0x4000, data = 0x44332211 (vector B10)
theorem test_decode_busWrite :
    decode [0x11#8, 0x22#8, 0x33#8, 0x44#8, 0x00#8, 0x40#8, 0x01#8] =
      .ok (.busWrite 0x4000#16 0x44332211#32) := by rfl
-- a write to CMD at 0x0008 with data 0x03 is a command (R90)
theorem test_decode_bus_command :
    decode [0x03#8, 0x00#8, 0x00#8, 0x00#8, 0x08#8, 0x00#8, 0x01#8] = .ok (.reserved 0x03#8) := by rfl
theorem test_decode_rejects_length : decode [0x01#8] = .error (.badLength 1) := by rfl
theorem test_decode_rejects_stray_bits :
    decode [0#8, 0#8, 0#8, 0#8, 0#8, 0#8, 0x02#8] = .error (.strayBits 0x02#8) := by rfl
theorem test_encode_command : encode .destuff = [0x11#8, 0x00#8, 0x00#8, 0x00#8] := by decide
theorem test_fetch_runs_the_table_word :
    (after (step (State.reset.withFetchWord 32 0x10))).map (·.pending) = some (some .stuff) := by
  decide

/-! ### The functions (vectors CG, S, DT) -/

theorem test_crc_cg1_cg9 : crc16 0x4141414141414141414141414#100 = 0x4B0B#16 ∧
    crc16 0x8000000000000000000000000#100 = 0x0B5A#16 := by decide +kernel
theorem test_crc_cg12_cg14 : crc16 0x3132333435363738390000000#100 = 0xA84B#16 ∧
    crc16 0x0123456789ABCDEF012345678#100 = 0xD696#16 := by decide +kernel
theorem test_crc_serial_cg10 : crc16Serial (BitVec.allOnes 100) = 0x0273#16 := by decide +kernel
theorem test_stuff_s5 : stuff [0x41#8, 0x7E#8, 0x7D#8, 0x00#8] =
    [0x7E#8, 0x41#8, 0x7D#8, 0x5E#8, 0x7D#8, 0x5D#8, 0x00#8, 0x7E#8] := by decide
theorem test_destuff_dt7_dt9 :
    destuff [0x7E#8, 0x41#8, 0x7E#8, 0x42#8, 0x7E#8] =
      ([0x41#8, 0x7E#8, 0x42#8], ⟨false, false, true, false⟩) ∧
    destuff [0x7E#8, 0x7D#8, 0x7D#8, 0x7E#8] = ([0x5D#8], ⟨false, false, false, true⟩) := by decide
theorem test_destuff_dt6_dt11 :
    destuff [0x7E#8, 0x7D#8, 0x7E#8] = ([], ⟨false, true, false, false⟩) ∧
    destuff [0x00#8, 0x41#8, 0x42#8, 0x00#8] = ([0x41#8, 0x42#8], ⟨true, false, false, false⟩) := by
  decide

/-! ### One step of each instruction (vectors B) -/

theorem test_nop_b16 : see .nop State.reset id = some State.reset := by decide
theorem test_nop_busy : see .nop (busyWith .crcGen) (fun t => (t.errBusy, t.pending)) =
    some (true, some .crcGen) := by decide
theorem test_crcGen_b25 : see .crcGen { State.reset with done := true } (·.statusWord) ≠ none ∧
    see .crcGen { State.reset with done := true } (fun t => (t.busy, t.done)) =
      some (true, false) := by decide
theorem test_crcGen_completes : (blockTurn { busyWith .crcGen with frame := 1#100 }).crcResult =
    0x1021#16 := by decide +kernel
theorem test_crcVerify_accepts : see .crcVerify State.reset (·.pending) = some (some .crcVerify) := by
  decide
theorem test_crcVerify_v4 :
    (blockTurn { busyWith .crcVerify with crcExpect := 1#16, matched := true }).matched = false := by
  decide +kernel
theorem test_stuff_b18_b19 :
    see .stuff { State.reset with ilen := 257#16 } (fun t => (t.errLen, t.busy)) =
      some (true, false) ∧
    see .stuff { State.reset with ilen := 256#16 } (fun t => (t.errLen, t.busy)) =
      some (false, true) := by decide
theorem test_stuff_s3 : ((blockTurn ((loaded [0x7E#8]).accept .stuff)).obuf,
    (blockTurn ((loaded [0x7E#8]).accept .stuff)).olen) =
    ([(0, 0x7E#8), (1, 0x7D#8), (2, 0x5E#8), (3, 0x7E#8)], 4#16) := by decide
theorem test_destuff_accepts : see .destuff State.reset (·.pending) = some (some .destuff) := by
  decide
theorem test_destuff_dt8 :
    ((blockTurn ((loaded [0x7E#8, 0x7D#8, 0x41#8, 0x7E#8]).accept .destuff)).obuf,
     (blockTurn ((loaded [0x7E#8, 0x7D#8, 0x41#8, 0x7E#8]).accept .destuff)).dsBadesc) =
    ([(0, 0x61#8)], true) := by decide
theorem test_reserved_b14 : see (.reserved 0x03#8) State.reset (fun t => (t.statusWord, t.irq)) =
    some (0x00000100#32, false) := by decide
theorem test_reserved_b21 :
    see (.reserved 0x03#8) (busyWith .crcGen) (fun t => (t.errIllegal, t.errBusy)) =
      some (false, true) := by decide
theorem test_busRead_b4 : see (.busRead 0x0033#16) State.reset (·.rdata) = some 0x02040100#32 := by
  decide
theorem test_busRead_b11_b12 : see (.busRead 0x4100#16) State.reset (·.rdata) = some 0#32 ∧
    see (.busRead 0x8204#16) (busyWith .stuff) (fun t => (t.rdata, t.draws)) = some (0#32, 0) := by
  decide
theorem test_busWrite_b10 : see (.busWrite 0x4000#16 0x44332211#32) State.reset (·.ibuf) =
    some [(0, 0x11#8), (1, 0x22#8), (2, 0x33#8), (3, 0x44#8)] := by decide
theorem test_busWrite_b24 :
    see (.busWrite 0x000C#16 0x00000200#32)
      { State.reset with done := true, errIllegal := true, errLen := true, errBusy := true }
      (·.statusWord) = some 0x00000502#32 := by decide
theorem test_reset_b28 :
    (after (step (busyScheduled .crcGen [.reset]))).map (fun t => (t.pending, t.busy)) =
      some (none, false) := by decide

/-! ### Witnesses: the hypotheses of each statement can be met, at the edges of their clauses -/

theorem witness_DecodeInvertsEncode :
    (Instr.reserved 0x03#8).wf = true ∧ (Instr.reserved 0xFF#8).wf = true ∧
    (Instr.busWrite 0x0007#16 0#32).wf = true ∧ (Instr.busRead 0x0008#16).wf = true := by decide

theorem witness_OpcodeIsTheLowByteAlone :
    (0xABCDEF00#32).extractLsb' 0 8 = 0x00#8 ∧ (0xABCDEF01#32).extractLsb' 0 8 = 0x01#8 ∧
    (0xABCDEF02#32).extractLsb' 0 8 = 0x02#8 ∧ (0xABCDEF10#32).extractLsb' 0 8 = 0x10#8 ∧
    (0xABCDEF11#32).extractLsb' 0 8 = 0x11#8 ∧
    [0x03#8, 0x0F#8, 0x12#8, 0xFF#8].all (fun op => op != 0x00#8 && op != 0x01#8 &&
      op != 0x02#8 && op != 0x10#8 && op != 0x11#8) = true := by decide

theorem witness_ReservedCmdBitsAreIgnored :
    wordOffset 0x0008#16 = 0x0008 ∧ wordOffset 0x000B#16 = 0x0008 := by decide

theorem witness_StepRunsTheDecodedInstruction :
    (scheduled [.host (busReadWord 0#16)]).inputs = .host (busReadWord 0#16) :: [] ∧
    (Instr.reserved 0x12#8).wf = true ∧ decodeTableWord 8 0x01 = some .crcGen ∧
    decodeTableWord 32 0xFFFFFF11 = some .destuff ∧
    decodeTableWord 49 0x1FFFC00000007 = some (.busWrite 0xFFFC#16 7#32) ∧
    decodeTableWord 56 0x0FFFF00000000 = some (.busRead 0xFFFF#16) := by decide

theorem witness_OnlyASecondHostIsRefused :
    (∀ w rest, State.reset.inputs ≠ .otherHost w :: rest) ∧
    (scheduled [.otherHost 0#49]).inputs = .otherHost 0#49 :: [] := by
  refine ⟨fun w rest h => ?_, rfl⟩
  cases h

theorem witness_ResetStepGivesTheResetValues :
    Config.legalIbufBytes 4 = true ∧ Config.legalIbufBytes 8192 = true ∧
    Config.legalIbufBytes (busyWith .crcGen).ibufBytes = true ∧
    (busyWith .crcGen).pending ≠ some .stuff ∧ (busyWith .crcGen).pending ≠ some .destuff := by decide

theorem witness_ResetCancelsThePendingCommand :
    (busyWith .stuff).pending = some .stuff ∧ (busyWith .destuff).pending = some .destuff := by decide

/-- A state with a pending STUFF of the largest input, an output in OBUF and an error. -/
def fullState : State :=
  { busyWith .stuff with
    ilen := 256#16, ibuf := [(0, 1#8), (255, 2#8)], obuf := [(0, 3#8), (515, 4#8)], olen := 514#16
    errLen := true, ieErr := true }

theorem fullState_inv : fullState.Inv where
  params := by decide
  busy_iff := by decide
  done_busy := by decide
  fits := by decide
  ibuf_wf := by decide
  ibuf_inside := by decide
  obuf_wf := by decide
  obuf_inside := by decide
  olen_le := by decide

theorem witness_EveryStepKeepsTheInvariant :
    fullState.Inv ∧ ∃ t, step fullState = .next t := ⟨fullState_inv, _, rfl⟩

theorem witness_BusyExactlyWhilePending :
    fullState.busy = fullState.pending.isSome ∧ ∃ t, step fullState = .next t :=
  ⟨by decide, _, rfl⟩

theorem witness_DoneIsSetByCompletionAlone :
    (busyWith .crcVerify).pending = some .crcVerify ∧
    (∃ t, State.reset.pending = none ∧ exec .crcGen State.reset = .next t ∧ t.pending ≠ none) ∧
    (wordOffset 0x000F#16 = 0x000C ∧ (0x00000002#32).getLsbD 1 = true) ∧
    (∃ t, step (busyScheduled .stuff [.block]) = .next t ∧
      (busyScheduled .stuff [.block]).done = false ∧ t.done = true) :=
  ⟨rfl, ⟨_, rfl, rfl, by decide⟩, by decide, ⟨_, rfl, by decide, by decide⟩⟩

theorem witness_ResultsChangeOnlyAtTheirCompletion :
    fullState.Inv ∧ (∀ rest, fullState.inputs ≠ .reset :: rest) ∧
    (∃ t, step fullState = .next t ∧ fullState.pending = some .stuff) ∧
    (blockTurn { busyWith .crcGen with crcResult := 1#16 }).crcResult ≠ 1#16 ∧
    (blockTurn (busyWith .crcVerify)).matched ≠ (busyWith .crcVerify).matched ∧
    (blockTurn (busyWith .stuff)).olen ≠ (busyWith .stuff).olen ∧
    (blockTurn { busyWith .stuff with obuf := [(1, 0#8)] }).obufByte 1 ≠ 0#8 ∧
    (blockTurn (busyWith .destuff)).dsFrame ≠ (busyWith .destuff).dsFrame :=
  ⟨fullState_inv, (fun _ h => by cases h), ⟨_, rfl, rfl⟩, by decide +kernel, by decide +kernel,
    by decide, by decide, by decide⟩

theorem witness_IbufChangesOnlyByHostWrites :
    ∃ t, step { loaded [0x41#8] with inputs := [.host (busWriteWord 0x4000#16 0x42#32)] } = .next t ∧
      t.ibufByte 0 ≠ (loaded [0x41#8]).ibufByte 0 := ⟨_, rfl, by decide⟩

theorem witness_ErrorsAreStickyAndPrecise :
    (∃ t, step { fullState with inputs := [.reset] } = .next t ∧ fullState.err .len = true ∧
      t.err .len = false) ∧
    (∃ t, step { fullState with inputs := [.host (busWriteWord 0x000C#16 0x00000200#32)] } = .next t ∧
      t.err .len = false) ∧
    (∃ t, exec (.reserved 0x03#8) State.reset = .next t ∧ t.err .illegal = true) ∧
    (∃ t, exec .stuff { State.reset with ilen := 257#16 } = .next t ∧ t.err .len = true) ∧
    (∃ t, exec .nop (busyWith .crcGen) = .next t ∧ t.err .busy = true) :=
  ⟨⟨_, rfl, by decide, by decide⟩, ⟨_, rfl, by decide⟩, ⟨_, rfl, by decide⟩, ⟨_, rfl, by decide⟩,
    ⟨_, rfl, by decide⟩⟩

theorem witness_IdAndParamReadTheirConstants :
    wordOffset 0x0003#16 = 0x0000 ∧ wordOffset 0x0033#16 = 0x0030 ∧
    Config.legalIbufBytes State.reset.ibufBytes = true ∧ State.reset.ibufBytes = 256 ∧
    Config.legalIbufBytes { State.reset with ibufBytes := 8192 }.ibufBytes = true := by decide

theorem witness_IdleReadReturnsTheLocation :
    State.reset.busy = false ∧ wordOffset 0x0003#16 = 0x0000 ∧ wordOffset 0x0033#16 = 0x0030 ∧
    Config.legalIbufBytes State.reset.ibufBytes = true ∧
    [0x0004#16, 0x0008#16, 0x000C#16, 0x0010#16, 0x001C#16, 0x0020#16, 0x0024#16, 0x0028#16,
      0x002C#16].map wordOffset = [4, 8, 12, 16, 28, 32, 36, 40, 44] ∧
    wordOffset 0x0034#16 = 0x0034 ∧ wordOffset 0x3FFF#16 = 0x3FFC ∧
    wordOffset 0x4000#16 = 0x4000 ∧ wordOffset 0x40FC#16 - 0x4000 < State.reset.ibufBytes ∧
    State.reset.ibufBytes ≤ wordOffset 0x4100#16 - 0x4000 ∧ wordOffset 0x7FFF#16 < 0x8000 ∧
    wordOffset 0x8200#16 - 0x8000 < State.reset.obufBytes ∧
    State.reset.obufBytes ≤ wordOffset 0x8204#16 - 0x8000 ∧ 0x8000 ≤ wordOffset 0xFFFF#16 := by decide

theorem witness_BusyReadDrawsOnlyWhatIsUnspecified :
    (busyWith .stuff).busy = true ∧ wordOffset 0x0020#16 = 0x0020 ∧ wordOffset 0x002C#16 = 0x002C ∧
    wordOffset 0x000C#16 = 0x000C ∧ wordOffset 0x8200#16 - 0x8000 < (busyWith .stuff).obufBytes ∧
    wordOffset 0x7FFC#16 < 0x8000 ∧ (busyWith .stuff).obufBytes ≤ wordOffset 0x8204#16 - 0x8000 := by
  decide

theorem witness_LowAddressBitsAreIgnored :
    (0x4000#16).extractLsb' 2 14 = (0x4003#16).extractLsb' 2 14 := by decide

theorem witness_BusyGuardRejectsGuardedWrites :
    (busyWith .crcGen).busy = true ∧ guardedAddr 0x0008#16 ∧ guardedAddr 0x4000#16 ∧
    guardedAddr 0x7FFF#16 ∧ ¬ guardedAddr 0x000C#16 ∧ ¬ guardedAddr 0x3FFF#16 ∧
    ¬ guardedAddr 0x8000#16 := by
  unfold guardedAddr
  decide

theorem witness_ErrBusyIsRaisedExactlyByGuardedWrites :
    (busyWith .crcGen).errBusy = false ∧ (busyWith .crcGen).busy = true ∧
    writeAddr (.busWrite 0x0010#16 1#32) = some 0x0010#16 ∧ guardedAddr 0x0010#16 := by
  unfold guardedAddr
  decide

theorem witness_ErrIllegalIsRaisedExactlyByReservedOpcodes :
    (Instr.reserved 0x0F#8).wf = true ∧ Instr.nop.wf = true ∧ State.reset.errIllegal = false := by
  decide

theorem witness_ErrLenIsRaisedExactlyByOverlongInput :
    State.reset.errLen = false ∧ State.reset.busy = false ∧ State.reset.ilen = 0#16 ∧
    { State.reset with ilen := 257#16 }.ibufBytes < { State.reset with ilen := 257#16 }.ilen.toNat ∧
    ¬ { State.reset with ilen := 256#16 }.ibufBytes < { State.reset with ilen := 256#16 }.ilen.toNat ∧
    writtenOp (.busWrite 0x0009#16 0xFFFFFF10#32) = some 0x10#8 := by decide

theorem witness_OneWriteRaisesAtMostOneError :
    (∃ t, exec (.reserved 0x03#8) State.reset = .next t ∧ State.reset.err .illegal = false ∧
      t.err .illegal = true) ∧
    { busyWith .crcGen with ilen := 257#16 }.busy = true ∧
    { busyWith .crcGen with ilen := 257#16 }.ibufBytes <
      { busyWith .crcGen with ilen := 257#16 }.ilen.toNat :=
  ⟨⟨_, rfl, by decide, by decide⟩, by decide, by decide⟩

theorem witness_ErrorBitsAffectNoCommand :
    (∀ a, Instr.stuff = .busRead a → wordOffset a ≠ 0x000C) ∧
    (∀ a, Instr.busRead 0x0010#16 = .busRead a → wordOffset a ≠ 0x000C) ∧
    State.reset.ieErr = false := by
  refine ⟨(fun a h => by cases h), (fun a h => ?_), rfl⟩
  cases h
  decide

theorem witness_ControlWritesAreNotGuarded :
    wordOffset 0x0007#16 = 0x0004 ∧ wordOffset 0x000C#16 = 0x000C := by decide

theorem witness_FrameRegistersAreThePartsOfTheFrame :
    wordOffset 0x0010#16 = 0x0010 + 4 * 0 ∧ wordOffset 0x001F#16 = 0x0010 + 4 * 3 ∧
    State.reset.busy = false ∧ (busyWith .crcGen).busy = true := by decide

theorem witness_ExpectAndLengthHoldTheLowHalf :
    wordOffset 0x0024#16 = 0x0024 ∧ wordOffset 0x0028#16 = 0x0028 ∧ State.reset.busy = false ∧
    (busyWith .crcGen).busy = true ∧
    State.reset.ibufBytes < ((0x00000101#32).extractLsb' 0 16).toNat := by decide

theorem witness_IbufWindowIsLittleEndian :
    0x4000 ≤ wordOffset 0x4000#16 ∧ wordOffset 0x7FFF#16 < 0x8000 ∧ State.reset.busy = false ∧
    wordOffset 0x40FF#16 - 0x4000 < State.reset.ibufBytes ∧
    State.reset.ibufBytes ≤ wordOffset 0x4100#16 - 0x4000 ∧ (busyWith .crcGen).busy = true := by decide

theorem witness_WritesToReadOnlyPlacesChangeNothing :
    [0x0000#16, 0x0020#16, 0x002C#16, 0x0030#16, 0x3FFC#16, 0x8000#16, 0x0004#16, 0x000C#16,
      0x001C#16, 0x0024#16, 0x0028#16].map wordOffset =
      [0, 0x20, 0x2C, 0x30, 0x3FFC, 0x8000, 4, 0xC, 0x1C, 0x24, 0x28] ∧ State.reset.busy = false ∧
    0x4000 + State.reset.ibufBytes ≤ wordOffset 0x4100#16 ∧ wordOffset 0x7FFF#16 < 0x8000 := by decide

theorem witness_ReadAfterWriteReturnsTheValue :
    State.reset.busy = false ∧
    ((busyWith .crcGen).busy = true ∧ wordOffset 0x0007#16 = 0x0004) ∧
    [0x0004#16, 0x0010#16, 0x0014#16, 0x0018#16, 0x001C#16, 0x0024#16, 0x0028#16].map wordOffset =
      [4, 0x10, 0x14, 0x18, 0x1C, 0x24, 0x28] ∧
    0x4000 ≤ wordOffset 0x4000#16 ∧ wordOffset 0x40FC#16 < 0x4000 + State.reset.ibufBytes ∧
    (∃ t, exec (.busWrite 0x0008#16 0x01#32) State.reset = .next t ∧
      t.pending ≠ State.reset.pending) :=
  ⟨by decide, by decide, by decide, by decide, by decide, ⟨_, rfl, by decide⟩⟩

theorem witness_NopDoesNothing : State.reset.busy = false ∧ (busyWith .stuff).busy = true := by decide

theorem witness_ReservedOpcodeRaisesErrIllegal :
    State.reset.busy = false ∧ (Instr.reserved 0x03#8).wf = true ∧
    (Instr.reserved 0xFF#8).wf = true := by decide

theorem witness_CrcGenComputesTheCrc :
    State.reset.busy = false ∧ (busyWith .crcGen).busy = true := by decide

theorem witness_CrcVerifyComparesTheCrc :
    State.reset.busy = false ∧ (busyWith .crcVerify).busy = true ∧ Command.stuff ≠ .crcVerify ∧
    (∃ t, step { State.reset with pending := some .stuff, inputs := .block :: [] } = .next t) :=
  ⟨by decide, by decide, by decide, _, rfl⟩

theorem witness_StuffFillsTheOutputBuffer :
    Config.legalIbufBytes State.reset.ibufBytes = true ∧
    { State.reset with ilen := 256#16 }.busy = false ∧
    { State.reset with ilen := 256#16 }.ilen.toNat ≤ { State.reset with ilen := 256#16 }.ibufBytes ∧
    { State.reset with ilen := 257#16 }.ibufBytes < { State.reset with ilen := 257#16 }.ilen.toNat ∧
    (busyWith .stuff).busy = true := by decide

theorem witness_DestuffFillsTheOutputBuffer :
    Config.legalIbufBytes State.reset.ibufBytes = true ∧
    State.reset.busy = false ∧ State.reset.ilen.toNat ≤ State.reset.ibufBytes ∧
    { State.reset with ilen := 0xFFFF#16 }.ibufBytes <
      { State.reset with ilen := 0xFFFF#16 }.ilen.toNat ∧
    (busyWith .destuff).busy = true := by decide

theorem witness_CompletionTouchesResultsOnly :
    (busyWith .destuff).busy = true ∧ (busyWith .destuff).pending = some .destuff ∧
    (∃ t, step (busyScheduled .destuff [.block]) = .next t ∧ t.pending ≠ some .destuff) ∧
    (∃ t, step (busyScheduled .destuff [.reset]) = .next t ∧ t.pending ≠ some .destuff) :=
  ⟨rfl, rfl, ⟨_, rfl, by decide⟩, ⟨_, rfl, by decide⟩⟩

theorem witness_CommandsUseTheOperandsOfAcceptance :
    (busyWith .crcGen).busy = true ∧ (busyWith .crcGen).pending = some .crcGen := by decide

theorem witness_ResultsStayUntilTheNextCommand :
    State.reset.Inv ∧ Input.reset ∉ State.reset.inputs ∧
    (∃ t, Sys2Proof.core.run 1 State.reset = .next t) ∧ fullState.Inv := by
  refine ⟨⟨by decide, by decide, by decide, by decide, by decide, by decide, by decide, by decide,
    by decide⟩, by decide, ⟨_, rfl⟩, fullState_inv⟩

/-- A host at a WAIT, over a busy block. -/
def waiting : System := ⟨⟨pseudoWait 0 1 ++ [.halt], 0, []⟩, busyWith .stuff⟩

/-- The host and the Block, turn about. -/
def turnAbout (n : Nat) : Agent := if n % 2 = 0 then .host else .block

theorem witness_CompletionAlwaysComes :
    soleHost (busyScheduled .stuff [.host 0#49, .block, .reset]).inputs = true ∧
    blockFair turnAbout waiting ∧ hostRuns turnAbout ∧
    waiting.block.busy = waiting.block.pending.isSome ∧
    waiting.host.prog.drop waiting.host.line = pseudoWait 0 1 ++ [.halt] ∧
    labelLine 0 waiting.host.prog 0 = some waiting.host.line := by
  refine ⟨by decide, fun n => ⟨2 * n + 1, by omega, .inl ?_⟩, fun n => ⟨2 * n, by omega, ?_⟩,
    by decide, by decide, by decide⟩ <;> simp [turnAbout]

/-- The poll of R186 once through: the read sees BUSY = 1, the Block completes, the next read ends it. -/
theorem test_wait_stops :
    (match systemAt turnAbout waiting 12 with
      | .next z => some (z.host.line, z.block.busy)
      | .fault _ => none
      | .refused _ => none) = some (3, false) := by decide +kernel

theorem witness_IrqFallsOnlyWhenCleared :
    ({ State.reset with ieDone := true, done := true }.irq = true) ∧ fullState.irq = true ∧
    (∃ t, step { fullState with inputs := [.reset] } = .next t ∧ t.irq = false) ∧
    (∃ t, step { State.reset with ieDone := true, done := true,
                                  inputs := [.host (encodeBus .crcGen)] } = .next t ∧ t.irq = false) :=
  ⟨by decide, by decide, ⟨_, rfl, by decide⟩, ⟨_, rfl, by decide⟩⟩

theorem witness_OneAndTwoBitChangesAreDetected : 0 < 100 ∧ 99 < 100 ∧ 98 < 99 := by decide

theorem witness_VerifyAfterComputeAlwaysPasses : State.reset.busy = false := by decide

theorem witness_StuffShape : (stuff [0x7E#8])[1]? = some 0x7D#8 := by decide

theorem witness_OuterBytesAreSkippedUnchecked :
    ([] : List Byte).length < 2 ∧ [0x41#8].length < 2 := by decide

theorem witness_RawFlagIsEmittedUnchanged :
    (destuff (0x7E#8 :: ([0x7D#8, 0x5E#8] ++ [0x7E#8]))).2.dangle = false := by decide

theorem witness_DanglingEscapeIsDropped :
    (destuff (0x00#8 :: ([] ++ [0x00#8]))).2.dangle = false := by decide

theorem witness_NonCanonicalEscapeIsUndone :
    (destuff (0x7E#8 :: ([0x41#8] ++ [0x7E#8]))).2.dangle = false ∧ 0x7D#8 ≠ 0x5E#8 ∧
    0x7D#8 ≠ 0x5D#8 := by decide

theorem witness_EveryOutputFitsTheOutputBuffer :
    Config.legalIbufBytes State.reset.ibufBytes = true ∧
    ([] : List Byte).length ≤ State.reset.ibufBytes ∧
    (List.replicate 256 0x7E#8).length ≤ State.reset.ibufBytes := by decide +kernel

theorem witness_StuffThenDestuffRestoresThePayload :
    (∃ t u, ((loaded [0x7E#8]).accept .stuff).pending = some .stuff ∧
      step { (loaded [0x7E#8]).accept .stuff with inputs := [.block] } = .next t ∧
      Config.legalIbufBytes (loaded [0x7E#8]).ibufBytes = true ∧
      (loaded [0x7E#8]).ilen.toNat ≤ (loaded [0x7E#8]).ibufBytes ∧
      u = loaded [0x7E#8, 0x7D#8, 0x5E#8, 0x7E#8] ∧ u.busy = false ∧
      u.ibufBytes = (loaded [0x7E#8]).ibufBytes ∧ u.ilen = t.olen ∧ u.ilen.toNat ≤ u.ibufBytes ∧
      u.ibufByte 0 = t.obufByte 0 ∧ u.ibufByte 1 = t.obufByte 1 ∧ u.ibufByte 2 = t.obufByte 2 ∧
      u.ibufByte 3 = t.obufByte 3) ∧
    (∃ s : State, s = { loaded [0x7E#8, 0x41#8, 0x41#8, 0x41#8] with ibufBytes := 4 } ∧
      Config.legalIbufBytes s.ibufBytes = true ∧ s.ilen.toNat ≤ s.ibufBytes ∧
      s.ibufBytes < (stuff s.payload).length) :=
  ⟨⟨_, _, by decide, rfl, by decide, by decide, rfl, by decide⟩, _, rfl, by decide⟩

/-- A host whose program has every kind of line, at line n. -/
def hostAt (n : Nat) : System :=
  ⟨⟨[.wr 0x0004#16 1#32, .wrVar 0x0024#16 7, .rd 0x000C#16 7, .bit 7 31 9, .label 9, .halt], n, []⟩,
    State.reset⟩

theorem witness_HostLinesMeanTheirTransactions :
    progWf (hostAt 0).host.prog = true ∧
    (hostAt 0).host.prog[(hostAt 0).host.line]? = some (.wr 0x0004#16 1#32) ∧
    (hostAt 1).host.prog[(hostAt 1).host.line]? = some (.wrVar 0x0024#16 7) ∧
    (hostAt 2).host.prog[(hostAt 2).host.line]? = some (.rd 0x000C#16 7) ∧
    (hostAt 3).host.prog[(hostAt 3).host.line]? = some (.bit 7 31 9) ∧
    labelLine 9 (hostAt 3).host.prog 0 = some 4 ∧
    (hostAt 4).host.prog[(hostAt 4).host.line]? = some (.label 9) ∧
    (hostAt 5).host.prog[(hostAt 5).host.line]? = some .halt := by decide

end Sys2Proof.Tests
end

