-- ==== Sys2Proof/Proofs/StufferLengths.lean ====
section
/-! The lengths of what stuff and destuff make (41_stuff.md R141, R151), and that every output fits
OBUF (00_scope.md R10). -/

namespace Sys2Proof.Machine

/-! ### stuff -/

theorem length_stuffByte (b : Byte) :
    (stuffByte b).length = 1 + if mustEscape b then 1 else 0 := by
  unfold stuffByte
  split <;> rfl

theorem length_stuffBody (p : List Byte) :
    (stuffBody p).length = p.length + p.countP mustEscape := by
  induction p with
  | nil => rfl
  | cons b bs ih =>
    simp only [stuffBody, List.length_append, List.length_cons, List.countP_cons,
      length_stuffByte, ih]
    omega

/-- R141: the two FLAGs, the payload, and one more byte for each byte escaped. -/
theorem length_stuff (p : List Byte) :
    (stuff p).length = p.length + 2 + p.countP mustEscape := by
  simp only [stuff, List.length_cons, List.length_append, List.length_nil, length_stuffBody]
  omega

theorem length_stuff_le (p : List Byte) : (stuff p).length ≤ 2 * p.length + 2 := by
  have escaped : p.countP mustEscape ≤ p.length := List.countP_le_length
  rw [length_stuff]
  omega

/-! ### destuff -/

/-- R151: of the bytes scanned, just the ESCAPEs read while esc = 0 are not emitted. -/
theorem length_destuffScan_add_escapesRead (esc raw bad : Bool) (mid : List Byte) :
    (destuffScan esc raw bad mid).1.length + escapesRead esc mid = mid.length := by
  induction mid generalizing esc raw bad with
  | nil => rfl
  | cons b bs ih =>
    simp only [destuffScan, escapesRead, List.length_cons]
    split
    · -- the byte after an ESCAPE
      rw [List.length_cons, Nat.add_right_comm, ih]
    · split
      · -- an ESCAPE
        rw [← Nat.add_assoc, ih]
      · -- any other byte
        rw [List.length_cons, Nat.add_right_comm, ih]

theorem length_destuffScan_le (esc raw bad : Bool) (mid : List Byte) :
    (destuffScan esc raw bad mid).1.length ≤ mid.length :=
  Nat.le.intro (length_destuffScan_add_escapesRead esc raw bad mid)

/-- R151, for inputs of fewer than two bytes too: the outer two bytes are never emitted. -/
theorem length_destuff_le : ∀ y : List Byte, (destuff y).1.length ≤ y.length - 2
  | [] => Nat.le_refl 0
  | [_] => Nat.le_refl 0
  | _ :: b :: bs =>
    calc (destuffScan false false false (b :: bs).dropLast).1.length
      _ ≤ (b :: bs).dropLast.length := length_destuffScan_le ..
      _ = (b :: bs).length - 1 := List.length_dropLast

/-! ### The size of OBUF -/

theorem legalIbufBytes_iff (n : Nat) :
    Config.legalIbufBytes n = true ↔ n % 4 = 0 ∧ 4 ≤ n ∧ n ≤ 8192 := by
  simp [Config.legalIbufBytes, and_assoc]

/-- Settles O58, from the lengths of R141 and R151: 2n + 2 bytes leave two of OBUF's
2·IBUF_BYTES + 4 free. -/
theorem everyOutputFitsTheOutputBuffer : Obligations.EveryOutputFitsTheOutputBuffer := by
  intro s legal
  obtain ⟨words, -, most⟩ := (legalIbufBytes_iff _).mp legal
  have size : s.obufBytes = 2 * s.ibufBytes + 4 := rfl
  refine ⟨by omega, fun p fits => ?_⟩
  have stuffed := length_stuff_le p
  have destuffed := length_destuff_le p
  exact ⟨stuffed, by omega, by omega, by omega, by omega⟩

end Sys2Proof.Machine
end

