-- ==== Sys2Proof/Proofs/StepEffects.lean ====
section
/-! What a transaction and a step do, said once for the statements of 10_state.md: the shape of every
transaction, of a write to CMD, and of a step. -/

namespace Sys2Proof.Machine

/-! ### A write to CMD -/

/-- A write to CMD changes nothing, raises an error, or is accepted while idle. -/
theorem cmdWrite_cases (op : Byte) (s : State) :
    cmdWrite op s = s ∨ (∃ e, cmdWrite op s = s.raise e) ∨
      s.busy = false ∧ ∃ c, cmdWrite op s = s.accept c := by
  cases busy : s.busy with
  | true => exact .inr (.inl ⟨.busy, cmdWrite_of_busy op busy⟩)
  | false =>
    rw [cmdWrite_of_idle op busy]
    rcases command_cases op s with ⟨-, e⟩ | ⟨-, e⟩ | ⟨_, -, -, -, e⟩ | ⟨c, -, -, e⟩
    · exact .inl e
    · exact .inr (.inl ⟨.illegal, e⟩)
    · exact .inr (.inl ⟨.len, e⟩)
    · exact .inr (.inr ⟨rfl, c, e⟩)

/-- A command whose input is longer than IBUF only raises ERR_LEN (42_bus_and_command.md R183). -/
theorem cmdWrite_of_tooLong {op : Byte} {c : Command} {s : State} (idle : s.busy = false)
    (starts : commandOf op = some c) (reads : usesIbuf c = true) (long : s.tooLong = true) :
    cmdWrite op s = s.raise .len := by
  simp [cmdWrite_of_idle op idle, command, starts, reads, long]

theorem tooLong_eq_true_iff (s : State) : s.tooLong = true ↔ s.ibufBytes < s.ilen.toNat :=
  decide_eq_true_iff

theorem tooLong_eq_false_iff (s : State) : s.tooLong = false ↔ s.ilen.toNat ≤ s.ibufBytes :=
  decide_eq_false_iff_not.trans Nat.not_lt

/-! ### Reads and writes of a location (42_bus_and_command.md R170, R171, R172) -/

/-- The CTRL location is the CTRL address. -/
theorem locate_ctrl_iff (a : Addr) : locate a = .ctrl ↔ wordOffset a = 0x0004 := by
  refine ⟨fun leads => ?_, locate_ctrl⟩
  simpa [leads] using locate_cases a

/-- The STATUS location is the STATUS address. -/
theorem locate_status_iff (a : Addr) : locate a = .status ↔ wordOffset a = 0x000C := by
  refine ⟨fun leads => ?_, locate_status⟩
  simpa [leads] using locate_cases a

/-- A read that uses no unspecified value changes rdata alone. -/
theorem exec_busRead_of_locate {a : Addr} {l : Loc} {s : State} (leads : locate a = l)
    (specified : s.readDraws l = false) :
    exec (.busRead a) s = .next { s with rdata := s.readLoc l } := by
  simp [exec, execBusRead, leads, specified]

/-- A write that the busy guard lets through. -/
theorem exec_busWrite_of_open {a : Addr} {l : Loc} {s : State} (v : Word) (leads : locate a = l)
    (opened : (s.busy && guarded l) = false) :
    exec (.busWrite a v) s = .next (s.writeLoc v l) := by
  simp [exec, execBusWrite, leads, opened]

/-- A guarded write while busy. -/
theorem exec_busWrite_of_busy {a : Addr} {l : Loc} {s : State} (v : Word) (leads : locate a = l)
    (busy : s.busy = true) (guard : guarded l = true) :
    exec (.busWrite a v) s = .next { s with errBusy := true } := by
  simp [exec, execBusWrite, leads, busy, guard, State.raise]

/-! ### The three kinds of transaction -/

/-- A transaction is a write to CMD (30_encoding.md R90), a read, or a write elsewhere, which the busy
guard lets through or turns into ERR_BUSY. -/
inductive Transaction (s : State) : Instr → State → Prop
  | cmd {i : Instr} {op : Byte} (writes : writtenOp i = some op) : Transaction s i (cmdWrite op s)
  | read {a : Addr} (v : Word) (n : Nat) :
      Transaction s (.busRead a) { s with rdata := v, draws := n }
  | blocked {a : Addr} {v : Word} : Transaction s (.busWrite a v) (s.raise .busy)
  | write {a : Addr} {v : Word} (opened : (s.busy && guarded (locate a)) = false)
      (notCmd : wordOffset a ≠ 0x0008) :
      Transaction s (.busWrite a v) (s.writeLoc v (locate a))

/-- The busy guard of a plain write to CMD is the one of `cmdWrite`. -/
theorem exec_busWrite_cmd {a : Addr} (v : Word) (s : State) (leads : wordOffset a = 0x0008) :
    exec (.busWrite a v) s = .next (cmdWrite (cmdOp v) s) := by
  cases busy : s.busy <;>
    simp [exec, execBusWrite, locate_cmd leads, busy, guarded, cmdWrite, State.writeLoc, cmdOp]

theorem exec_transaction {i : Instr} {s t : State} (ran : exec i s = .next t) :
    Transaction s i t := by
  cases i with
  | nop => cases ran; exact .cmd rfl
  | crcGen => cases ran; exact .cmd rfl
  | crcVerify => cases ran; exact .cmd rfl
  | stuff => cases ran; exact .cmd rfl
  | destuff => cases ran; exact .cmd rfl
  | reserved op => cases ran; exact .cmd rfl
  | busRead a => cases ran; exact .read _ _
  | busWrite a v =>
    by_cases leads : wordOffset a = 0x0008
    · rw [exec_busWrite_cmd v s leads] at ran
      cases ran
      exact .cmd (if_pos ((isCmdAddr_iff a).mpr leads))
    · cases guard : (s.busy && guarded (locate a)) with
      | true =>
        obtain ⟨busy, closed⟩ := Bool.and_eq_true_iff.mp guard
        rw [exec_busWrite_of_busy v rfl busy closed] at ran
        cases ran
        exact .blocked
      | false =>
        rw [exec_busWrite_of_open v rfl guard] at ran
        cases ran
        exact .write guard leads

/-! ### Which words of the port decode to a write -/

/-- Nothing that an opcode stands for is a plain bus transaction. -/
theorem decodeOp_ne_busWrite (op : Byte) (a : Addr) (v : Word) : decodeOp op ≠ .busWrite a v := by
  unfold decodeOp
  repeat' split
  all_goals exact nofun

/-- Only a write transaction decodes to a bus write, and its fields are the transaction's. -/
theorem eq_busWriteWord_of_decodeBus {w : BusWord} {a : Addr} {v : Word}
    (decodes : decodeBus w = .busWrite a v) : w = busWriteWord a v := by
  unfold decodeBus at decodes
  split at decodes
  · rename_i isWrite
    split at decodes
    · exact absurd decodes (decodeOp_ne_busWrite _ a v)
    · cases decodes
      exact (busWriteWord_fields isWrite).symm
  · cases decodes

/-- A transaction that writes an opcode to CMD is a write of CMD's word. -/
theorem exists_busWriteWord_of_writtenOp {w : BusWord} {op : Byte}
    (writes : writtenOp (decodeBus w) = some op) :
    ∃ a v, w = busWriteWord a v ∧ wordOffset a = 0x0008 := by
  unfold decodeBus at writes
  split at writes
  · rename_i isWrite
    refine ⟨busAddr w, busData w, (busWriteWord_fields isWrite).symm, ?_⟩
    split at writes
    · rename_i toCmd
      exact (isCmdAddr_iff _).mp toCmd
    · rename_i notCmd
      simp [writtenOp, notCmd] at writes
  · cases writes

/-! ### The completions (42_bus_and_command.md R185) -/

/-- The CRC stands under a name, so that comparing two fields does not run it. -/
theorem complete_crcGen (s : State) :
    ∃ r, r = crc16 s.frame ∧ complete .crcGen s = State.finish { s with crcResult := r } :=
  ⟨_, rfl, by rw [complete, completeCrcGen, frameOperand_eq]⟩

theorem complete_crcVerify (s : State) :
    ∃ m, m = decide (crc16 s.frame = s.crcExpect) ∧
      complete .crcVerify s = State.finish { s with matched := m } :=
  ⟨verify s.frame s.crcExpect, rfl, by
    rw [complete, completeCrcVerify, frameOperand_eq, State.expectOperand]⟩

theorem complete_stuff (s : State) :
    complete .stuff s = (s.putOutput (stuff s.bytesOperand)).finish := rfl

theorem complete_destuff (s : State) :
    complete .destuff s =
      ((s.putOutput (destuff s.bytesOperand).1).setDs (destuff s.bytesOperand).2).finish := rfl

/-! ### The kinds of step -/

/-- A step is a host's transaction, an idle Block turn, a completion, or a reset. -/
inductive StepEffect (s : State) : State → Prop
  | host {t : State} {w : BusWord} {rest : List Input} (next : s.inputs = .host w :: rest)
      (ran : exec (decodeBus w) (s.withInputs rest) = .next t)
      (effect : HostEffect (s.withInputs rest) t) : StepEffect s t
  | idle {rest : List Input} (pending : s.pending = none)
      (mover : s.inputs = [] ∨ s.inputs = .block :: rest) : StepEffect s (s.withInputs rest)
  | complete {c : Command} {rest : List Input} (pending : s.pending = some c)
      (mover : s.inputs = [] ∨ s.inputs = .block :: rest) :
      StepEffect s (complete c (s.withInputs rest))
  | reset {rest : List Input} (next : s.inputs = .reset :: rest) :
      StepEffect s (s.withInputs rest).resetStep

theorem blockTurn_effect {s : State} {rest : List Input}
    (mover : s.inputs = [] ∨ s.inputs = .block :: rest) :
    StepEffect s (blockTurn (s.withInputs rest)) := by
  rcases blockTurn_cases (s.withInputs rest) with ⟨pending, e⟩ | ⟨c, pending, e⟩ <;> rw [e]
  · exact .idle pending mover
  · exact .complete pending mover

theorem step_effect {s t : State} (stepped : step s = .next t) : StepEffect s t := by
  rcases step_cases stepped with ⟨next, rfl⟩ | ⟨w, rest, next, ran, effect⟩ | ⟨rest, next, rfl⟩ |
    ⟨rest, next, rfl⟩
  · have unchanged : s = s.withInputs [] := by rw [State.withInputs, ← next]
    rw [congrArg blockTurn unchanged]
    exact blockTurn_effect (.inl next)
  · exact .host next ran effect
  · exact blockTurn_effect (.inr next)
  · exact .reset next

end Sys2Proof.Machine
end

