-- ==== Sys2Proof/Proofs/InvariantKept.lean ====
section
/-! The invariant of Safety.lean holds at reset and every step keeps it: one lemma per operation of
Machine/Ops.lean, then the transactions, the completions and the steps made of them. -/

namespace Sys2Proof.Machine

/-! ### The predicates of the invariant -/

theorem stufferPending_of_none {s : State} (none : s.pending = none) :
    s.stufferPending = false := by
  simp [State.stufferPending, none]

theorem stufferPending_of_some {s : State} {c : Command} (pending : s.pending = some c) :
    s.stufferPending = usesIbuf c := by
  cases c <;> simp [State.stufferPending, pending, usesIbuf]

theorem State.Inv.pending_of_idle {s : State} (inv : s.Inv) (idle : s.busy = false) :
    s.pending = none := by
  simpa [idle] using inv.busy_iff.symm

/-- The bytes of a command that reads IBUF are within IBUF_BYTES. -/
theorem State.Inv.length_bytesOperand_le {s : State} (inv : s.Inv)
    (reads : s.stufferPending = true) : s.bytesOperand.length ≤ s.ibufBytes := by
  rw [State.bytesOperand, readIbuf_length]
  exact inv.fits reads

/-! ### Reset -/

theorem State.Inv.reset : State.reset.Inv where
  params := by decide
  busy_iff := rfl
  done_busy := nofun
  fits := nofun
  ibuf_wf := rfl
  ibuf_inside := rfl
  obuf_wf := rfl
  obuf_inside := rfl
  olen_le := Nat.zero_le _

theorem State.Inv.resetStep {s : State} (inv : s.Inv) : s.resetStep.Inv where
  params := inv.params
  busy_iff := rfl
  done_busy := nofun
  fits := nofun
  ibuf_wf := inv.ibuf_wf
  ibuf_inside := inv.ibuf_inside
  obuf_wf := (resetStep_memory_wf inv.ibuf_wf inv.obuf_wf).2
  obuf_inside := by
    rw [resetStep_obuf]
    split
    · rfl
    · exact inv.obuf_inside
  olen_le := Nat.zero_le _

/-! ### The operations of a transaction -/

theorem State.Inv.withInputs {s : State} (inv : s.Inv) (rest : List Input) :
    (s.withInputs rest).Inv := { inv with }

theorem State.Inv.raise {s : State} (inv : s.Inv) (e : ErrCause) : (s.raise e).Inv := by
  cases e <;> exact { inv with }

theorem State.Inv.accept {s : State} (inv : s.Inv) {c : Command}
    (fits : usesIbuf c = true → s.tooLong = false) : (s.accept c).Inv :=
  { inv with
    busy_iff := rfl
    done_busy := fun _ => rfl
    fits := fun reads =>
      (tooLong_eq_false_iff s).mp (fits ((stufferPending_of_some rfl).symm.trans reads)) }

theorem State.Inv.ackStatus {s : State} (inv : s.Inv) (v : Word) : (s.ackStatus v).Inv :=
  { inv with
    done_busy := fun busy => by rw [ackStatus_done, inv.done_busy busy, Bool.false_and] }

/-- ILEN is only written while no command that depends on it is pending. -/
theorem State.Inv.setIlen {s : State} (inv : s.Inv) (idle : s.busy = false) (n : Half) :
    { s with ilen := n }.Inv :=
  have notPending : { s with ilen := n }.stufferPending = false :=
    stufferPending_of_none (inv.pending_of_idle idle)
  { inv with fits := fun reads => by rw [notPending] at reads; cases reads }

/-- IBUF_BYTES is a multiple of 4, so that a word that begins inside IBUF lies inside it. -/
theorem State.Inv.writeIbufWord {s : State} (inv : s.Inv) (w : Nat) (v : Word) :
    (s.writeIbufWord w v).Inv := by
  unfold State.writeIbufWord
  split
  · obtain ⟨words, -, -⟩ := (legalIbufBytes_iff _).mp inv.params
    have wordInside : 4 * w + (bytesOfWord v).length ≤ s.ibufBytes := by
      simp only [bytesOfWord, List.length_cons, List.length_nil]
      omega
    exact { inv with
      ibuf_wf := Memory.wf_writeBytes _ _ inv.ibuf_wf
      ibuf_inside := Memory.inside_writeBytes _ _ wordInside inv.ibuf_inside }
  · exact inv

theorem HostEffect.inv {s t : State} (effect : HostEffect s t) (inv : s.Inv) : t.Inv := by
  cases effect with
  | read v n => exact { inv with }
  | nothing => exact inv
  | raise e => exact inv.raise e
  | accept c _ fits => exact inv.accept fits
  | setCtrl v => exact { inv with }
  | ackStatus v => exact inv.ackStatus v
  | frame f _ => exact { inv with }
  | crcExpect e _ => exact { inv with }
  | ilen n idle => exact inv.setIlen idle n
  | ibuf w v _ => exact inv.writeIbufWord w v

/-! ### The completions -/

theorem State.Inv.finish {s : State} (inv : s.Inv) : s.finish.Inv :=
  { inv with
    busy_iff := rfl
    done_busy := nofun
    fits := nofun }

theorem State.Inv.setDs {s : State} (inv : s.Inv) (f : DsFlags) : (s.setDs f).Inv :=
  { inv with }

/-- An output of at most 2·IBUF_BYTES + 2 bytes fits OBUF and OLEN. -/
theorem State.Inv.putOutput {s : State} (inv : s.Inv) {o : List Byte}
    (small : o.length ≤ 2 * s.ibufBytes + 2) : (s.putOutput o).Inv :=
  have inside : 0 + o.length ≤ s.obufBytes := by
    rw [State.obufBytes]
    omega
  { inv with
    obuf_wf := Memory.wf_writeBytes _ _ inv.obuf_wf
    obuf_inside := Memory.inside_writeBytes _ _ inside inv.obuf_inside
    olen_le := by
      rw [putOutput_olen, BitVec.toNat_ofNat]
      exact (Nat.mod_le _ _).trans small }

theorem State.Inv.complete {s : State} {c : Command} (inv : s.Inv) (pending : s.pending = some c) :
    (Machine.complete c s).Inv := by
  have input := fun reads : usesIbuf c = true =>
    inv.length_bytesOperand_le ((stufferPending_of_some pending).trans reads)
  cases c with
  | crcGen =>
    obtain ⟨r, -, e⟩ := complete_crcGen s
    rw [e]
    exact State.Inv.finish { inv with }
  | crcVerify =>
    obtain ⟨m, -, e⟩ := complete_crcVerify s
    rw [e]
    exact State.Inv.finish { inv with }
  | stuff =>
    have stuffed := length_stuff_le s.bytesOperand
    have inside := input rfl
    exact (inv.putOutput (by omega)).finish
  | destuff =>
    have destuffed := length_destuff_le s.bytesOperand
    have inside := input rfl
    exact ((inv.putOutput (by omega)).setDs _).finish

/-- Settles O12, by the kind of step: each keeps the invariant. -/
theorem everyStepKeepsTheInvariant : Obligations.EveryStepKeepsTheInvariant := by
  intro s t inv stepped
  cases step_effect stepped with
  | host _ _ effect => exact effect.inv (inv.withInputs _)
  | idle => exact inv.withInputs _
  | complete pending => exact (inv.withInputs _).complete pending
  | reset => exact (inv.withInputs _).resetStep

end Sys2Proof.Machine
end

