-- ==== Sys2Proof/Proofs/CommandLife.lean ====
section
/-! BUSY, DONE, the results and IBUF over the life of a command: what a transaction, a completion and
a reset do to each (10_state.md R28, R29, R32 to R41). -/

namespace Sys2Proof.Machine

/-! ### What a transaction keeps -/

/-- Only an acceptance changes BUSY and pending. -/
theorem HostEffect.busy_pending {s t : State} (effect : HostEffect s t) :
    (t.busy = s.busy ∧ t.pending = s.pending) ∨ (s.busy = false ∧ ∃ c, t = s.accept c) := by
  cases effect with
  | accept c idle _ => exact .inr ⟨idle, c, rfl⟩
  | raise e => exact .inl ⟨raise_busy e s, raise_pending e s⟩
  | ibuf w v _ => exact .inl ⟨writeIbufWord_busy w v s, writeIbufWord_pending w v s⟩
  | _ => exact .inl ⟨rfl, rfl⟩

/-- No transaction sets DONE. -/
theorem HostEffect.done_of_not_done {s t : State} (effect : HostEffect s t)
    (clear : s.done = false) : t.done = false := by
  cases effect with
  | accept c _ _ => rfl
  | raise e => exact (raise_done e s).trans clear
  | ackStatus v => rw [ackStatus_done, clear, Bool.false_and]
  | ibuf w v _ => exact (writeIbufWord_done w v s).trans clear
  | _ => exact clear

/-- No transaction touches a result. -/
theorem HostEffect.sameResults {s t : State} (effect : HostEffect s t) : s.sameResults t := by
  cases effect with
  | raise e => simp [State.sameResults, State.obufByte]
  | ibuf w v _ => simp [State.sameResults, State.obufByte]
  | _ => exact ⟨rfl, rfl, rfl, fun _ => rfl, rfl, rfl, rfl, rfl⟩

/-! ### What a completion writes (42_bus_and_command.md R185) -/

theorem complete_crcResult (c : Command) (s : State) :
    (complete c s).crcResult = if c = .crcGen then crc16 s.frame else s.crcResult := by
  cases c with
  | crcGen =>
    obtain ⟨r, crc, e⟩ := complete_crcGen s
    simpa [e] using crc
  | crcVerify =>
    obtain ⟨m, -, e⟩ := complete_crcVerify s
    simp [e]
  | stuff => simp [complete_stuff]
  | destuff => simp [complete_destuff]

theorem complete_matched (c : Command) (s : State) :
    (complete c s).matched =
      if c = .crcVerify then decide (crc16 s.frame = s.crcExpect) else s.matched := by
  cases c with
  | crcGen =>
    obtain ⟨r, -, e⟩ := complete_crcGen s
    simp [e]
  | crcVerify =>
    obtain ⟨m, verified, e⟩ := complete_crcVerify s
    simpa [e] using verified
  | stuff => simp [complete_stuff]
  | destuff => simp [complete_destuff]

/-- A command that does not read IBUF writes neither OLEN nor OBUF. -/
theorem complete_output_of_not_usesIbuf {c : Command} (reads : usesIbuf c = false) (s : State) :
    (complete c s).olen = s.olen ∧ ∀ k, (complete c s).obufByte k = s.obufByte k := by
  cases c with
  | crcGen =>
    obtain ⟨r, -, e⟩ := complete_crcGen s
    simp [e, State.obufByte]
  | crcVerify =>
    obtain ⟨m, -, e⟩ := complete_crcVerify s
    simp [e, State.obufByte]
  | stuff | destuff => cases reads

theorem finish_obufByte (s : State) (k : Nat) : s.finish.obufByte k = s.obufByte k := rfl

theorem setDs_obufByte (s : State) (f : DsFlags) (k : Nat) :
    (s.setDs f).obufByte k = s.obufByte k := rfl

/-- STUFF and DESTUFF put one output into OBUF and OLEN. -/
theorem complete_output_of_usesIbuf {c : Command} (reads : usesIbuf c = true) (s : State) :
    ∃ o : List Byte, o.length ≤ 2 * s.bytesOperand.length + 2 ∧
      (complete c s).olen = BitVec.ofNat 16 o.length ∧
      ∀ k, (complete c s).obufByte k = o[k]?.getD (s.obufByte k) := by
  cases c with
  | crcGen | crcVerify => cases reads
  | stuff =>
    refine ⟨stuff s.bytesOperand, length_stuff_le _, ?_, fun k => ?_⟩
    · simp [complete_stuff]
    · rw [complete_stuff, finish_obufByte, putOutput_obufByte]
  | destuff =>
    have destuffed := length_destuff_le s.bytesOperand
    refine ⟨(destuff s.bytesOperand).1, by omega, ?_, fun k => ?_⟩
    · simp [complete_destuff]
    · rw [complete_destuff, finish_obufByte, setDs_obufByte, putOutput_obufByte]

theorem complete_ds_of_ne {c : Command} (other : c ≠ .destuff) (s : State) :
    (complete c s).dsFrame = s.dsFrame ∧ (complete c s).dsDangle = s.dsDangle ∧
      (complete c s).dsRawflag = s.dsRawflag ∧ (complete c s).dsBadesc = s.dsBadesc := by
  cases c with
  | crcGen =>
    obtain ⟨r, -, e⟩ := complete_crcGen s
    simp [e]
  | crcVerify =>
    obtain ⟨m, -, e⟩ := complete_crcVerify s
    simp [e]
  | stuff => simp [complete_stuff]
  | destuff => exact absurd rfl other

theorem complete_ibuf (c : Command) (s : State) : (complete c s).ibuf = s.ibuf := by
  cases c with
  | crcGen =>
    obtain ⟨r, -, e⟩ := complete_crcGen s
    simp [e]
  | crcVerify =>
    obtain ⟨m, -, e⟩ := complete_crcVerify s
    simp [e]
  | stuff => simp [complete_stuff]
  | destuff => simp [complete_destuff]

theorem complete_sameControl (c : Command) (s : State) : s.sameControl (complete c s) := by
  cases c with
  | crcGen =>
    obtain ⟨r, -, e⟩ := complete_crcGen s
    simp [e, State.sameControl]
  | crcVerify =>
    obtain ⟨m, -, e⟩ := complete_crcVerify s
    simp [e, State.sameControl]
  | stuff => simp [complete_stuff, State.sameControl]
  | destuff => simp [complete_destuff, State.sameControl]

/-- An accepted command's output changes no byte at OLEN or beyond: its length fits OLEN's 16 bits. -/
theorem lt_olen_of_complete_obufByte_ne {s : State} {c : Command} {k : Nat} (inv : s.Inv)
    (pending : s.pending = some c) (changed : (complete c s).obufByte k ≠ s.obufByte k) :
    k < (complete c s).olen.toNat := by
  cases reads : usesIbuf c with
  | false => exact absurd ((complete_output_of_not_usesIbuf reads s).2 k) changed
  | true =>
    obtain ⟨o, small, olen, obuf⟩ := complete_output_of_usesIbuf reads s
    have inside := inv.length_bytesOperand_le ((stufferPending_of_some pending).trans reads)
    obtain ⟨-, -, most⟩ := (legalIbufBytes_iff _).mp inv.params
    rw [olen, BitVec.toNat_ofNat, Nat.mod_eq_of_lt (by omega)]
    by_contra beyond
    exact changed (by rw [obuf, List.getElem?_eq_none (by omega), Option.getD_none])

/-! ### BUSY and DONE -/

/-- A read of STATUS always shows BUSY in bit 0 (42_bus_and_command.md R170). -/
theorem exec_busRead_status_busy (s : State) :
    ∃ u, exec (.busRead 0x000C#16) s = .next u ∧ u.rdata.getLsbD 0 = s.busy :=
  ⟨_, rfl, statusWord_getLsbD s (by decide)⟩

theorem step_keeps_busy_iff {s t : State} (agree : s.busy = s.pending.isSome)
    (stepped : step s = .next t) : t.busy = t.pending.isSome := by
  cases step_effect stepped with
  | host _ _ effect =>
    rcases effect.busy_pending with ⟨busy, pending⟩ | ⟨-, c, rfl⟩
    · rw [busy, pending]
      exact agree
    · rfl
  | idle => exact agree
  | @complete c rest =>
    obtain ⟨pending, busy, -⟩ := complete_finished c (s.withInputs rest)
    rw [busy, pending]
    rfl
  | reset => rfl

/-- Settles O13: acceptance, completion and reset change BUSY and pending together, and nothing else
changes either. -/
theorem busyExactlyWhilePending : Obligations.BusyExactlyWhilePending :=
  ⟨rfl, fun _ _ => step_keeps_busy_iff, exec_busRead_status_busy⟩

/-- A transaction that leaves a command pending where none was has accepted it. -/
theorem done_of_accepted {s t : State} {i : Instr} (idle : s.pending = none)
    (ran : exec i s = .next t) (accepted : t.pending ≠ none) : t.done = false := by
  obtain ⟨u, same, effect⟩ := exec_effect i s
  cases ran.symm.trans same
  rcases effect.busy_pending with ⟨-, pending⟩ | ⟨-, c, rfl⟩
  · exact absurd (pending.trans idle) accepted
  · rfl

/-- NOP changes neither DONE nor pending, busy or not (42_bus_and_command.md R181). -/
theorem cmdWrite_nop_done_pending (s : State) :
    (cmdWrite 0x00#8 s).done = s.done ∧ (cmdWrite 0x00#8 s).pending = s.pending := by
  cases busy : s.busy with
  | true =>
    rw [cmdWrite_of_busy _ busy]
    exact ⟨raise_done _ s, raise_pending _ s⟩
  | false =>
    rw [cmdWrite_of_idle _ busy]
    exact ⟨rfl, rfl⟩

theorem step_sets_done {s t : State} (stepped : step s = .next t) (clear : s.done = false)
    (set : t.done = true) :
    s.pending ≠ none ∧ t.pending = none ∧
      (s.inputs = [] ∨ ∃ rest, s.inputs = .block :: rest) := by
  cases step_effect stepped with
  | host _ _ effect => exact absurd set (by simp [effect.done_of_not_done clear])
  | idle => exact absurd set (by simp [clear])
  | @complete c rest pending mover =>
    exact ⟨by simp [pending], (complete_finished c _).1, mover.imp_right fun next => ⟨rest, next⟩⟩
  | reset => cases set

/-- Settles O14: one lemma for each of R29's actions. -/
theorem doneIsSetByCompletionAlone : Obligations.DoneIsSetByCompletionAlone := by
  refine ⟨fun s c rest pending => ?_, fun s t i => done_of_accepted, fun s a v status bit => ?_,
    fun s => ⟨_, rfl, cmdWrite_nop_done_pending s⟩, fun s t => step_sets_done⟩
  · -- the Block's turn with a command pending is its completion
    obtain ⟨ended, -, done⟩ := complete_finished c (s.withInputs rest)
    refine ⟨complete c (s.withInputs rest), ?_, ended, done⟩
    rw [step_of_block rfl, blockTurn]
    simp [State.withInputs, pending]
  · -- a write of 1 to bit 1 of STATUS
    refine ⟨_, exec_busWrite_of_open v (locate_status status) (Bool.and_false _), ?_⟩
    exact (ackStatus_done v s).trans (by simp [bit])

/-! ### The results -/

/-- A step other than a reset keeps the results, or it is the completion of the pending command. -/
theorem step_sameResults_or_complete {s t : State} (stepped : step s = .next t)
    (noReset : ∀ rest, s.inputs ≠ .reset :: rest) :
    s.sameResults t ∨
      ∃ c rest, s.pending = some c ∧ t = complete c (s.withInputs rest) := by
  cases step_effect stepped with
  | host _ _ effect => exact .inl effect.sameResults
  | idle => exact .inl HostEffect.nothing.sameResults
  | complete pending _ => exact .inr ⟨_, _, pending, rfl⟩
  | reset next => exact absurd next (noReset _)

/-- Settles O15: a completion is the one step that writes a result, and each command writes its own. -/
theorem resultsChangeOnlyAtTheirCompletion : Obligations.ResultsChangeOnlyAtTheirCompletion := by
  intro s t inv noReset stepped
  rcases step_sameResults_or_complete stepped noReset with
    ⟨crc, matched, olen, obuf, frame, dangle, rawflag, badesc⟩ | ⟨c, rest, pending, rfl⟩
  · simp [crc, matched, olen, obuf, frame, dangle, rawflag, badesc]
  · obtain ⟨ended, -, -⟩ := complete_finished c (s.withInputs rest)
    have byReader : usesIbuf c = true → s.pending = some .stuff ∨ s.pending = some .destuff := by
      cases c <;> simp [pending, usesIbuf]
    refine ⟨fun changed => ?_, fun changed => ?_, fun changed => ⟨byReader ?_, ended⟩,
      fun k changed => ⟨byReader ?_, ended, ?_⟩, fun changed => ?_⟩
    · rw [complete_crcResult] at changed ⊢
      by_cases gen : c = .crcGen
      · exact ⟨gen ▸ pending, ended, if_pos gen⟩
      · exact absurd (if_neg gen) changed
    · rw [complete_matched] at changed ⊢
      by_cases ver : c = .crcVerify
      · exact ⟨ver ▸ pending, ended, if_pos ver⟩
      · exact absurd (if_neg ver) changed
    · by_contra other
      exact changed (complete_output_of_not_usesIbuf (Bool.eq_false_iff.mpr other) _).1
    · by_contra other
      exact changed ((complete_output_of_not_usesIbuf (Bool.eq_false_iff.mpr other) _).2 k)
    · exact lt_olen_of_complete_obufByte_ne (inv.withInputs rest) pending changed
    · by_cases destuff : c = .destuff
      · exact ⟨destuff ▸ pending, ended⟩
      · obtain ⟨frame, dangle, rawflag, badesc⟩ := complete_ds_of_ne destuff (s.withInputs rest)
        simp [frame, dangle, rawflag, badesc] at changed

/-! ### IBUF -/

theorem ibufByte_congr {s t : State} (ibuf : t.ibuf = s.ibuf) (k : Nat) :
    t.ibufByte k = s.ibufByte k := by
  rw [State.ibufByte, State.ibufByte, ibuf]

theorem cmdWrite_ibuf (op : Byte) (s : State) : (cmdWrite op s).ibuf = s.ibuf := by
  rcases cmdWrite_cases op s with e | ⟨_, e⟩ | ⟨-, _, e⟩ <;> rw [e]
  · exact raise_ibuf _ s
  · rfl

/-- A write elsewhere than to a word of the IBUF window keeps IBUF. -/
theorem writeLoc_ibuf {l : Loc} (elsewhere : ∀ w, l ≠ .ibuf w) (v : Word) (s : State) :
    (s.writeLoc v l).ibuf = s.ibuf := by
  cases l with
  | cmd =>
    rcases command_cases (v.extractLsb' 0 8) s with ⟨-, e⟩ | ⟨-, e⟩ | ⟨_, -, -, -, e⟩ |
      ⟨_, -, -, e⟩ <;> simp [State.writeLoc, e]
  | ibuf w => exact absurd rfl (elsewhere w)
  | _ => rfl

theorem locate_eq_ibuf {a : Addr} {w : Nat} (leads : locate a = .ibuf w) :
    0x4000 ≤ wordOffset a ∧ wordOffset a < 0x8000 ∧ 4 * w = wordOffset a - 0x4000 := by
  have places := locate_cases a
  simp only [leads, reduceCtorEq, and_false, false_or, or_false, Loc.ibuf.injEq] at places
  obtain ⟨low, high, word⟩ := places
  have aligned := wordOffset_mod a
  omega

/-- The one transaction that changes a byte of IBUF is an idle write of the byte's word. -/
theorem ibufByte_changed {s t : State} {i : Instr} {k : Nat} (ran : exec i s = .next t)
    (changed : t.ibufByte k ≠ s.ibufByte k) :
    s.busy = false ∧ ∃ a v w, i = .busWrite a v ∧ locate a = .ibuf w ∧
      t = s.writeIbufWord w v := by
  cases exec_transaction ran with
  | cmd => exact absurd (ibufByte_congr (cmdWrite_ibuf _ s) k) changed
  | read => exact absurd rfl changed
  | blocked => exact absurd (ibufByte_congr (raise_ibuf _ s) k) changed
  | @write a v opened =>
    by_cases window : ∃ w, locate a = .ibuf w
    · obtain ⟨w, leads⟩ := window
      rw [leads] at opened ⊢
      exact ⟨by simpa [guarded] using opened, a, v, w, rfl, leads, rfl⟩
    · have elsewhere := not_exists.mp window
      exact absurd (ibufByte_congr (writeLoc_ibuf elsewhere v s) k) changed

/-- Settles O16, by the kind of step: only a host's transaction can change IBUF, and only a write of
the byte's word does. -/
theorem ibufChangesOnlyByHostWrites : Obligations.IbufChangesOnlyByHostWrites := by
  intro s t k stepped changed
  cases step_effect stepped with
  | @host _ bus rest next ran _ =>
    obtain ⟨idle, a, v, w, decodes, leads, rfl⟩ := ibufByte_changed ran changed
    have word := writeIbufWord_ibufByte (s.withInputs rest) w v k
    obtain ⟨low, high, offset⟩ := locate_eq_ibuf leads
    rw [offset] at word
    split at word
    · rename_i here
      obtain ⟨inside, first, last⟩ := here
      rw [eq_busWriteWord_of_decodeBus decodes] at next
      exact ⟨idle, a, v, rest, next, low, high, inside, first, last, word⟩
    · exact absurd word changed
  | idle => exact absurd rfl changed
  | complete => exact absurd (ibufByte_congr (complete_ibuf _ _) k) changed
  | reset => exact absurd rfl changed

end Sys2Proof.Machine
end

