-- ==== Sys2Proof/Proofs/Registers.lean ====
section
/-! The registers one by one: the state after power-on, ID and PARAM, CTRL and STATUS, the frame's
registers, CRC_EXPECT and ILEN (10_state.md R20 to R36). -/

namespace Sys2Proof.Machine

/-! ### After power-on -/

theorem reset_ibufByte (k : Nat) : State.reset.ibufByte k = Config.ibufPowerOn k := rfl

theorem reset_obufByte (k : Nat) : State.reset.obufByte k = Config.obufDraw 0 k := rfl

/-- With no input and no command the block stays as it is (70_reset_and_hazards.md R233). -/
theorem step_reset : step State.reset = .next State.reset := rfl

/-- Settles O11, by evaluating the state after power-on. -/
theorem powerOnStateIsIdleWithDrawnBuffers : Obligations.PowerOnStateIsIdleWithDrawnBuffers :=
  ⟨reset_ibufByte, reset_obufByte, rfl, rfl, rfl, rfl, rfl, step_reset, .reset⟩

/-! ### ID and PARAM -/

/-- Legal sizes fit the halves of PARAM (10_state.md R36). -/
theorem readLoc_param_halves {s : State} (legal : Config.legalIbufBytes s.ibufBytes = true) :
    ((s.readLoc .param).extractLsb' 0 16).toNat = s.ibufBytes ∧
      ((s.readLoc .param).extractLsb' 16 16).toNat = 2 * s.ibufBytes + 4 := by
  obtain ⟨-, -, most⟩ := (legalIbufBytes_iff _).mp legal
  constructor
  · rw [State.readLoc, BitVec.cast_eq, BitVec.extractLsb'_append_eq_right]
    exact (BitVec.toNat_ofNat ..).trans (Nat.mod_eq_of_lt (by omega))
  · rw [State.readLoc, BitVec.cast_eq, BitVec.extractLsb'_append_eq_left, State.obufBytes]
    exact (BitVec.toNat_ofNat ..).trans (Nat.mod_eq_of_lt (by omega))

theorem readLoc_param_default {s : State} (default : s.ibufBytes = 256) :
    s.readLoc .param = 0x02040100#32 := by
  simp [State.readLoc, State.obufBytes, default]

/-- Settles O18: neither read uses an unspecified value, so that BUSY makes no difference. -/
theorem idAndParamReadTheirConstants : Obligations.IdAndParamReadTheirConstants := by
  refine fun s a => ⟨fun id => exec_busRead_of_locate (locate_id id) rfl, fun param legal => ?_⟩
  obtain ⟨low, high⟩ := readLoc_param_halves legal
  exact ⟨_, exec_busRead_of_locate (locate_param param) rfl, rfl, low, high, readLoc_param_default⟩

/-! ### CTRL and STATUS -/

/-- A write-1-to-clear field as R27 puts it. -/
theorem ackStatus_eq (v : Word) (s : State) :
    s.ackStatus v = { s with
      done := if v.getLsbD 1 then false else s.done
      errIllegal := if v.getLsbD 8 then false else s.errIllegal
      errLen := if v.getLsbD 9 then false else s.errLen
      errBusy := if v.getLsbD 10 then false else s.errBusy } := by
  have clear : ∀ b c : Bool, (b && !c) = if c then false else b := by decide
  simp [State.ackStatus, ErrCause.code, clear]

/-- Settles O28: the busy guard covers neither location. -/
theorem controlWritesAreNotGuarded : Obligations.ControlWritesAreNotGuarded := by
  refine fun s a v => ⟨fun ctrl => ?_, fun status => ?_⟩
  · exact exec_busWrite_of_open v (locate_ctrl ctrl) (Bool.and_false _)
  · rw [exec_busWrite_of_open v (locate_status status) (Bool.and_false _), State.writeLoc,
      ackStatus_eq]

/-! ### FRAME0 to FRAME3 -/

/-- The location of FRAMEk. -/
def frameLoc : Nat → Loc
  | 0 => .frame0
  | 1 => .frame1
  | 2 => .frame2
  | _ => .frame3

theorem locate_frame {a : Addr} {k : Nat} (hk : k < 4) (offset : wordOffset a = 0x0010 + 4 * k) :
    locate a = frameLoc k := by
  interval_cases k
  · exact locate_frame0 offset
  · exact locate_frame1 offset
  · exact locate_frame2 offset
  · exact locate_frame3 offset

theorem guarded_frameLoc (k : Nat) : guarded (frameLoc k) = true := by
  unfold frameLoc
  split <;> rfl

theorem readDraws_frameLoc (s : State) (k : Nat) : s.readDraws (frameLoc k) = false := by
  unfold frameLoc
  split <;> rfl

/-- FRAME3's bits 31:4 are the frame's bits from 100 on, which are 0. -/
theorem readLoc_frameLoc_getLsbD (s : State) {k i : Nat} (hk : k < 4) (hi : i < 32) :
    (s.readLoc (frameLoc k)).getLsbD i = s.frame.getLsbD (32 * k + i) := by
  interval_cases k <;>
    simp only [frameLoc, State.readLoc, State.frame0, State.frame1, State.frame2, State.frame3,
      BitVec.getLsbD_setWidth, BitVec.getLsbD_extractLsb', hi, decide_true, Bool.true_and]
  by_cases inside : i < 4
  · rw [decide_eq_true inside, Bool.true_and]
  · rw [decide_eq_false inside, Bool.false_and, BitVec.getLsbD_of_ge _ _ (by omega)]

theorem writeLoc_frameLoc (s : State) (v : Word) {k : Nat} (hk : k < 4) :
    ∃ f : Frame, s.writeLoc v (frameLoc k) = { s with frame := f } ∧
      ∀ i < 100, f.getLsbD i =
        if 32 * k ≤ i ∧ i < 32 * k + 32 then v.getLsbD (i - 32 * k) else s.frame.getLsbD i := by
  interval_cases k
  · refine ⟨setFrame0 s.frame v, rfl, fun i hi => ?_⟩
    simpa using setFrame0_getLsbD s.frame v i hi
  · exact ⟨setFrame1 s.frame v, rfl, setFrame1_getLsbD s.frame v⟩
  · exact ⟨setFrame2 s.frame v, rfl, setFrame2_getLsbD s.frame v⟩
  · refine ⟨setFrame3 s.frame v, rfl, fun i hi => ?_⟩
    have inside : i < 32 * 3 + 32 := by omega
    simpa [inside] using setFrame3_getLsbD s.frame v i hi

/-- Settles O29, for all four registers at once by `frameLoc`. -/
theorem frameRegistersAreThePartsOfTheFrame : Obligations.FrameRegistersAreThePartsOfTheFrame := by
  intro s a k hk offset
  have leads := locate_frame hk offset
  refine ⟨?_, fun v idle => ?_, fun v busy => ?_⟩
  · exact ⟨_, exec_busRead_of_locate leads (readDraws_frameLoc s k), rfl,
      fun i hi => readLoc_frameLoc_getLsbD s hk hi⟩
  · obtain ⟨f, write, bits⟩ := writeLoc_frameLoc s v hk
    have opened : (s.busy && guarded (frameLoc k)) = false := by rw [idle, Bool.false_and]
    exact ⟨_, (exec_busWrite_of_open v leads opened).trans (congrArg _ write), rfl, bits⟩
  · exact exec_busWrite_of_busy v leads busy (guarded_frameLoc k)

/-! ### CRC_EXPECT and ILEN -/

/-- The check of ILEN comes when a command is written (42_bus_and_command.md R183). -/
theorem exec_of_tooLong {s : State} (idle : s.busy = false) (long : s.ibufBytes < s.ilen.toNat) :
    exec .stuff s = .next { s with errLen := true } ∧
      exec .destuff s = .next { s with errLen := true } :=
  have tooLong := (tooLong_eq_true_iff s).mpr long
  ⟨congrArg _ (cmdWrite_of_tooLong (c := .stuff) idle rfl rfl tooLong),
    congrArg _ (cmdWrite_of_tooLong (c := .destuff) idle rfl rfl tooLong)⟩

/-- Settles O30, from the three rules of a guarded register: a read, an idle write, a busy write. -/
theorem expectAndLengthHoldTheLowHalf : Obligations.ExpectAndLengthHoldTheLowHalf := by
  intro s a v
  have opened : ∀ l, s.busy = false → (s.busy && guarded l) = false := by
    intro l idle
    rw [idle, Bool.false_and]
  refine ⟨fun offset => ?_, fun offset => ?_⟩
  · have leads := locate_crcExpect offset
    exact ⟨exec_busRead_of_locate leads rfl,
      fun idle => exec_busWrite_of_open v leads (opened _ idle),
      fun busy => exec_busWrite_of_busy v leads busy rfl⟩
  · have leads := locate_ilen offset
    refine ⟨exec_busRead_of_locate leads rfl, fun idle => ?_,
      fun busy => exec_busWrite_of_busy v leads busy rfl⟩
    exact ⟨_, exec_busWrite_of_open v leads (opened _ idle), rfl,
      exec_of_tooLong (s := s.writeLoc v .ilen) idle⟩

end Sys2Proof.Machine
end

