-- ==== Sys2Proof/Proofs/ErrorsAndIrq.lean ====
section
/-! What the sticky error bits can and cannot influence, and when the interrupt line falls
(10_state.md R38, R44; 60_exceptions.md R206). -/

namespace Sys2Proof.Machine

/-! ### Another state of the error bits -/

/-- The state with other error bits. -/
def State.withErrors (s : State) (x y z : Bool) : State :=
  { s with errIllegal := x, errLen := y, errBusy := z }

/-- The two states differ in the error bits at most. -/
def State.EqButErrors (s t : State) : Prop := ∃ x y z, t = s.withErrors x y z

theorem State.EqButErrors.eq {s t : State} (same : s.EqButErrors t) :
    t = { s with errIllegal := t.errIllegal, errLen := t.errLen, errBusy := t.errBusy } := by
  obtain ⟨x, y, z, rfl⟩ := same
  rfl

theorem eqButErrors_withErrors (s : State) (x y z : Bool) : s.EqButErrors (s.withErrors x y z) :=
  ⟨x, y, z, rfl⟩

section Transactions

variable {s t : State} (same : s.EqButErrors t)
include same

theorem State.EqButErrors.busy : t.busy = s.busy := by
  obtain ⟨x, y, z, rfl⟩ := same
  rfl

theorem State.EqButErrors.raise (e : ErrCause) : (s.raise e).EqButErrors (t.raise e) := by
  obtain ⟨x, y, z, rfl⟩ := same
  cases e <;> exact ⟨_, _, _, rfl⟩

theorem State.EqButErrors.accept (c : Command) : (s.accept c).EqButErrors (t.accept c) := by
  obtain ⟨x, y, z, rfl⟩ := same
  exact ⟨x, y, z, rfl⟩

theorem State.EqButErrors.tooLong : t.tooLong = s.tooLong := by
  obtain ⟨x, y, z, rfl⟩ := same
  rfl

/-- R38: a command is accepted whatever the error bits. -/
theorem State.EqButErrors.command (op : Byte) :
    (Machine.command op s).EqButErrors (Machine.command op t) := by
  unfold Machine.command
  rw [same.tooLong]
  split
  · split
    · exact same
    · exact same.raise .illegal
  · rename_i c _
    split
    · exact same.raise .len
    · exact same.accept c

theorem State.EqButErrors.writeIbufWord (w : Nat) (v : Word) :
    (s.writeIbufWord w v).EqButErrors (t.writeIbufWord w v) := by
  obtain ⟨x, y, z, rfl⟩ := same
  refine ⟨x, y, z, ?_⟩
  by_cases inside : 4 * w < s.ibufBytes <;>
    simp [State.writeIbufWord, State.withErrors, inside]

theorem State.EqButErrors.writeLoc (v : Word) (l : Loc) :
    (s.writeLoc v l).EqButErrors (t.writeLoc v l) := by
  cases l with
  | cmd => exact same.command _
  | ibuf w => exact same.writeIbufWord w v
  | _ =>
    obtain ⟨x, y, z, rfl⟩ := same
    exact ⟨_, _, _, rfl⟩

theorem State.EqButErrors.cmdWrite (op : Byte) :
    (Machine.cmdWrite op s).EqButErrors (Machine.cmdWrite op t) := by
  unfold Machine.cmdWrite
  rw [same.busy]
  split
  · exact same.raise .busy
  · exact same.command op

/-- STATUS is the one location whose value shows the error bits. -/
theorem State.EqButErrors.readLoc {l : Loc} (notStatus : l ≠ .status) :
    t.readLoc l = s.readLoc l := by
  obtain ⟨x, y, z, rfl⟩ := same
  cases l with
  | status => exact absurd rfl notStatus
  | _ => rfl

theorem State.EqButErrors.readDraws (l : Loc) : t.readDraws l = s.readDraws l := by
  obtain ⟨x, y, z, rfl⟩ := same
  cases l <;> rfl

theorem State.EqButErrors.exec {i : Instr}
    (notStatus : ∀ a, i = .busRead a → wordOffset a ≠ 0x000C) :
    ∃ s' t', Machine.exec i s = .next s' ∧ Machine.exec i t = .next t' ∧ s'.EqButErrors t' := by
  cases i with
  | nop => exact ⟨_, _, rfl, rfl, same.cmdWrite _⟩
  | crcGen => exact ⟨_, _, rfl, rfl, same.cmdWrite _⟩
  | crcVerify => exact ⟨_, _, rfl, rfl, same.cmdWrite _⟩
  | stuff => exact ⟨_, _, rfl, rfl, same.cmdWrite _⟩
  | destuff => exact ⟨_, _, rfl, rfl, same.cmdWrite _⟩
  | reserved op => exact ⟨_, _, rfl, rfl, same.cmdWrite op⟩
  | busRead a =>
    have reads := same.readLoc (mt (locate_status_iff a).mp (notStatus a rfl))
    have draws := same.readDraws (locate a)
    refine ⟨_, _, rfl, rfl, ?_⟩
    rw [reads, draws]
    obtain ⟨x, y, z, rfl⟩ := same
    exact ⟨x, y, z, rfl⟩
  | busWrite a v =>
    refine ⟨_, _, rfl, rfl, ?_⟩
    rw [same.busy]
    split
    · exact same.raise .busy
    · exact same.writeLoc v _

end Transactions

/-! ### Completion, reset and the interrupt line with other error bits -/

theorem complete_withErrors (c : Command) (s : State) (x y z : Bool) :
    complete c (s.withErrors x y z) = (complete c s).withErrors x y z := by
  cases c <;> rfl

theorem blockTurn_withErrors (s : State) (x y z : Bool) :
    blockTurn (s.withErrors x y z) = (blockTurn s).withErrors x y z := by
  have pending : (s.withErrors x y z).pending = s.pending := rfl
  unfold blockTurn
  rw [pending]
  split
  · rfl
  · exact complete_withErrors _ s x y z

/-- R230: the error bits after a reset do not depend on those before it. -/
theorem resetStep_withErrors (s : State) (x y z : Bool) :
    (s.withErrors x y z).resetStep = s.resetStep := rfl

theorem irq_withErrors_of_masked {s : State} (masked : s.ieErr = false) (x y z : Bool) :
    (s.withErrors x y z).irq = s.irq := by
  simp [State.irq, State.withErrors, masked]

/-- Settles O27: transactions keep `EqButErrors`, and completion and reset do not look at the error
bits. -/
theorem errorBitsAffectNoCommand : Obligations.ErrorBitsAffectNoCommand := by
  refine ⟨fun s i x y z notStatus => ?_, fun s rest x y z => ?_, fun s rest x y z => ?_,
    fun s x y z masked => irq_withErrors_of_masked masked x y z⟩
  · obtain ⟨t, u, ran, ran', same⟩ := (eqButErrors_withErrors s x y z).exec notStatus
    exact ⟨t, u, ran, ran', same.eq⟩
  · refine ⟨_, step_of_block rfl, (step_of_block rfl).trans ?_⟩
    exact congrArg _ (blockTurn_withErrors (s.withInputs rest) x y z)
  · refine (step_of_reset rfl).trans (Eq.trans ?_ (step_of_reset rfl).symm)
    exact congrArg _ (resetStep_withErrors (s.withInputs rest) x y z)

/-! ### The interrupt line -/

/-- The level of R44. -/
theorem irq_iff (s : State) :
    s.irq = true ↔ (s.ieDone = true ∧ s.done = true) ∨ (s.ieErr = true ∧ ∃ e, s.err e = true) := by
  have anyError : (∃ e, s.err e = true) ↔ (s.errIllegal || s.errLen || s.errBusy) = true := by
    simp only [Bool.or_eq_true]
    constructor
    · rintro ⟨_ | _ | _, raised⟩
      · exact .inl (.inl raised)
      · exact .inl (.inr raised)
      · exact .inr raised
    · rintro ((raised | raised) | raised)
      · exact ⟨.illegal, raised⟩
      · exact ⟨.len, raised⟩
      · exact ⟨.busy, raised⟩
  rw [anyError, State.irq, Bool.or_eq_true, Bool.and_eq_true, Bool.and_eq_true]

/-- irq stays up where both enables stay and no source is cleared. -/
theorem irq_mono {s t : State} (ieDone : t.ieDone = s.ieDone) (ieErr : t.ieErr = s.ieErr)
    (done : s.done = true → t.done = true) (err : ∀ e, s.err e = true → t.err e = true)
    (up : s.irq = true) : t.irq = true := by
  rw [irq_iff] at up ⊢
  rw [ieDone, ieErr]
  exact up.imp (And.imp_right done) (And.imp_right fun ⟨e, raised⟩ => ⟨e, err e raised⟩)

theorem raise_irq {s : State} (e : ErrCause) (up : s.irq = true) : (s.raise e).irq = true := by
  refine irq_mono (raise_ieDone e s) (raise_ieErr e s) (fun done => (raise_done e s).trans done)
    (fun e' raised => ?_) up
  cases e' <;> simp_all [State.err]

theorem complete_irq {s : State} (c : Command) (up : s.irq = true) :
    (complete c s).irq = true := by
  obtain ⟨ieDone, ieErr, illegal, len, busy⟩ := complete_sameControl c s
  obtain ⟨-, -, done⟩ := complete_finished c s
  refine irq_mono ieDone ieErr (fun _ => done) (fun e raised => ?_) up
  cases e
  · exact illegal.trans raised
  · exact len.trans raised
  · exact busy.trans raised

/-- Zeros at the four write-1-to-clear bits of STATUS clear nothing. -/
theorem ackStatus_of_no_ones {v : Word} (noOnes : v &&& 0x00000702#32 = 0#32) (s : State) :
    s.ackStatus v = s := by
  have zero : ∀ i, (0x00000702#32).getLsbD i = true → v.getLsbD i = false := by
    intro i field
    have bit := congrArg (BitVec.getLsbD · i) noOnes
    simpa [field] using bit
  rw [ackStatus_eq, zero 1 rfl, zero 8 rfl, zero 9 rfl, zero 10 rfl]
  rfl

/-- Away from CMD, only CTRL and ones at STATUS take irq down. -/
theorem writeLoc_irq_falls {s : State} {v : Word} {l : Loc} (notCmd : l ≠ .cmd)
    (up : s.irq = true) (down : (s.writeLoc v l).irq = false) :
    l = .ctrl ∨ (l = .status ∧ v &&& 0x00000702#32 ≠ 0#32) := by
  have same : ∀ {t : State}, t.irq = s.irq → t.irq ≠ false := by
    intro t same
    simp [same, up]
  cases l with
  | ctrl => exact .inl rfl
  | status =>
    refine .inr ⟨rfl, fun noOnes => same ?_ down⟩
    exact congrArg State.irq (ackStatus_of_no_ones noOnes s)
  | cmd => exact absurd rfl notCmd
  | ibuf w => exact absurd down (same (by simp [State.writeLoc, State.irq]))
  | _ => exact absurd down (same rfl)

/-- The transactions that take irq down (60_exceptions.md R206). -/
theorem exec_irq_falls {s t : State} {i : Instr} (ran : exec i s = .next t) (up : s.irq = true)
    (down : t.irq = false) :
    ((∃ op, writtenOp i = some op) ∧ t.pending ≠ none ∧ t.done = false) ∨
      ∃ a v, i = .busWrite a v ∧ (wordOffset a = 0x0004 ∨
        (wordOffset a = 0x000C ∧ v &&& 0x00000702#32 ≠ 0#32)) := by
  cases exec_transaction ran with
  | @cmd _ op writes =>
    refine .inl ⟨⟨op, writes⟩, ?_⟩
    rcases cmdWrite_cases op s with e | ⟨cause, e⟩ | ⟨-, c, e⟩
    · rw [e, up] at down
      cases down
    · rw [e, raise_irq cause up] at down
      cases down
    · simp [e]
  | read => exact absurd (up.symm.trans down) nofun
  | blocked => exact absurd (raise_irq .busy up) (by simp [down])
  | @write a v _ notCmd =>
    have falls := writeLoc_irq_falls (mt (locate_cmd_iff a).mp notCmd) up down
    rw [locate_ctrl_iff, locate_status_iff] at falls
    exact .inr ⟨a, v, rfl, falls⟩

theorem step_irq_falls {s t : State} (stepped : step s = .next t) (up : s.irq = true)
    (down : t.irq = false) :
    (∃ rest, s.inputs = .reset :: rest) ∨
      ∃ a v rest, s.inputs = .host (busWriteWord a v) :: rest ∧
        (wordOffset a = 0x0004 ∨ (wordOffset a = 0x000C ∧ v &&& 0x00000702#32 ≠ 0#32) ∨
          (wordOffset a = 0x0008 ∧ t.pending ≠ none ∧ t.done = false)) := by
  cases step_effect stepped with
  | @host _ w rest next ran _ =>
    rcases exec_irq_falls ran up down with ⟨⟨op, writes⟩, accepted⟩ | ⟨a, v, decodes, cleared⟩
    · obtain ⟨a, v, rfl, offset⟩ := exists_busWriteWord_of_writtenOp writes
      exact .inr ⟨a, v, rest, next, .inr (.inr ⟨offset, accepted⟩)⟩
    · obtain rfl := eq_busWriteWord_of_decodeBus decodes
      exact .inr ⟨a, v, rest, next, cleared.imp_right .inl⟩
  | idle => exact absurd (up.symm.trans down) nofun
  | @complete c rest =>
    exact absurd (complete_irq (s := s.withInputs rest) c up) (by simp [down])
  | reset next => exact .inl ⟨_, next⟩

theorem setCtrl_zero_irq (s : State) : (s.setCtrl 0#32).irq = false := by
  simp [State.irq]

/-- Enabling both sources shows every event that stands. -/
theorem setCtrl_three_irq {s t : State} (done : t.done = s.done) (err : ∀ e, t.err e = s.err e)
    (up : s.irq = true) : (t.setCtrl 3#32).irq = true := by
  rw [irq_iff] at up ⊢
  rcases up with ⟨-, set⟩ | ⟨-, e, raised⟩
  · exact .inl ⟨rfl, done.trans set⟩
  · exact .inr ⟨rfl, e, by cases e <;> exact (err _).trans raised⟩

theorem exec_write_ctrl (v : Word) (s : State) :
    exec (.busWrite 0x0004#16 v) s = .next (s.setCtrl v) :=
  exec_busWrite_of_open v (locate_ctrl rfl) (Bool.and_false _)

/-- Settles O44: the level, the steps that take it down, and its return when the mask is lifted. -/
theorem irqFallsOnlyWhenCleared : Obligations.IrqFallsOnlyWhenCleared := by
  refine ⟨irq_iff, fun s t => step_irq_falls, fun s up => ?_⟩
  have err : ∀ e, (s.setCtrl 0#32).err e = s.err e := by rintro (_ | _ | _) <;> rfl
  exact ⟨s.setCtrl 0#32, _, exec_write_ctrl _ s, setCtrl_zero_irq s, rfl, err,
    exec_write_ctrl _ _, setCtrl_three_irq (s := s) rfl err up⟩

end Sys2Proof.Machine
end

