-- ==== Sys2Proof/Proofs/HostPort.lean ====
section
/-! The host port: what a transaction decodes to, its address, its IBUF window, and that each is
answered (20_memory.md R60, R64, R69; 30_encoding.md R90). -/

namespace Sys2Proof

/-! ### What a transaction decodes to -/

theorem decodeBus_busWriteWord (a : Addr) (v : Word) :
    decodeBus (busWriteWord a v) = if isCmdAddr a then decodeCmd v else .busWrite a v := by
  simp [decodeBus]

theorem decodeBus_busReadWord (a : Addr) : decodeBus (busReadWord a) = .busRead a := by
  simp [decodeBus]

theorem decodeBus_write_cmd (v : Word) : decodeBus (busWriteWord 0x0008#16 v) = decodeCmd v := by
  rw [decodeBus_busWriteWord, if_pos (by decide)]

theorem decodeOp_of_not_assigned {op : Byte} (reserved : assignedOp op = false) :
    decodeOp op = .reserved op := by
  simp only [assignedOp, Bool.or_eq_false_iff, beq_eq_false_iff_ne] at reserved
  simp [decodeOp, reserved]

/-- R90: an instruction's transaction is the one that decodes to it. -/
theorem decodeBus_encodeBus {i : Instr} (wf : i.wf = true) : decodeBus (encodeBus i) = i := by
  have command (op : Byte) : decodeBus (busWriteWord 0x0008#16 (cmdWord op)) = decodeOp op := by
    rw [decodeBus_write_cmd, decodeCmd, cmdOp_cmdWord]
  cases i with
  | nop | crcGen | crcVerify | stuff | destuff => exact command _
  | reserved op =>
    exact (command op).trans (decodeOp_of_not_assigned (by simpa [Instr.wf] using wf))
  | busRead a => exact decodeBus_busReadWord a
  | busWrite a v =>
    have notCmd : isCmdAddr a = false := by simpa [Instr.wf] using wf
    rw [encodeBus, decodeBus_busWriteWord, notCmd]
    rfl

/-! ### The words of the opcode table -/

theorem length_natBytes (n w : Nat) : (natBytes n w).length = n := by
  induction n generalizing w with
  | zero => rfl
  | succ n ih => rw [natBytes, List.length_cons, ih]

theorem ofNat_append_byte (n w : Nat) :
    BitVec.ofNat n (w / 256) ++ BitVec.ofNat 8 w = BitVec.ofNat (n + 8) w := by
  apply BitVec.eq_of_getLsbD_eq
  intro i hi
  rw [BitVec.getLsbD_append, BitVec.getLsbD_ofNat, BitVec.getLsbD_ofNat, BitVec.getLsbD_ofNat]
  by_cases low : i < 8
  · simp [low, hi]
  · rw [if_neg low, show w / 256 = w / 2 ^ 8 from rfl, Nat.testBit_div_two_pow,
      show i - 8 + 8 = i by omega]
    simp [hi, show i - 8 < n by omega]

theorem decode_natBytes_four (w : Nat) :
    decode (natBytes 4 w) = .ok (decodeCmd (BitVec.ofNat 32 w)) := by
  simp only [natBytes, decode, ofNat_append_byte, BitVec.cast_eq]

/-- Seven bytes that decode are those of a transaction, its bits in order (log 9). -/
theorem eq_decodeBus_of_decode_natBytes_seven {w : Nat} {i : Instr}
    (decodes : decode (natBytes 7 w) = .ok i) : i = decodeBus (BitVec.ofNat 49 w) := by
  simp only [natBytes, decode] at decodes
  split at decodes
  · cases decodes
    have top (n : Nat) : (BitVec.ofNat 8 n).extractLsb' 0 1 = BitVec.ofNat 1 n := by
      rw [← BitVec.setWidth_eq_extractLsb' (by decide), BitVec.setWidth_ofNat_of_le (by decide)]
    simp only [busWordOfBytes, top, ofNat_append_byte, BitVec.cast_eq]
  · cases decodes

theorem decode_of_badLength {bytes : List Byte} (notCmd : bytes.length ≠ 4)
    (notBus : bytes.length ≠ 7) : decode bytes = .error (.badLength bytes.length) := by
  unfold decode
  split
  · exact absurd rfl notCmd
  · exact absurd rfl notBus
  · rfl

theorem decode_of_decodeTableWord {nbits w : Nat} {i : Instr}
    (decodes : decodeTableWord nbits w = some i) :
    decode (natBytes (tableBytes nbits) w) = .ok i := by
  unfold decodeTableWord at decodes
  split at decodes
  · rename_i j decoded
    cases decodes
    exact decoded
  · cases decodes

/-- The transaction of a table word decodes to what the table word decodes to. -/
theorem decodeBus_tableBusWord {nbits w : Nat} {i : Instr}
    (decodes : decodeTableWord nbits w = some i) : decodeBus (tableBusWord nbits w) = i := by
  have decoded := decode_of_decodeTableWord decodes
  unfold tableBytes at decoded
  unfold tableBusWord
  split at decoded
  · rename_i isCmd
    rw [decode_natBytes_four] at decoded
    cases decoded
    rw [if_pos isCmd, decodeBus_write_cmd]
  · rename_i notCmd
    rw [if_neg notCmd]
    split at decoded
    · exact (eq_decodeBus_of_decode_natBytes_seven decoded).symm
    · -- a longer row is neither format
      have long : 7 < (natBytes ((nbits + 7) / 8) w).length := by
        rw [length_natBytes]
        omega
      rw [decode_of_badLength (by omega) (by omega)] at decoded
      cases decoded

end Sys2Proof

namespace Sys2Proof.Machine

/-! ### The step of a host's transaction -/

/-- Settles O6: `step_of_host`, and the decoding of an instruction's own transaction and of a table
word's. -/
theorem stepRunsTheDecodedInstruction : Obligations.StepRunsTheDecodedInstruction := by
  refine ⟨fun s w rest => step_of_host, fun s i rest wf => ?_, fun s nbits w i decodes => ?_⟩
  · exact (step_of_host rfl).trans (congrArg (exec · _) (decodeBus_encodeBus wf))
  · exact (step_of_host rfl).trans (congrArg (exec · s) (decodeBus_tableBusWord decodes))

/-! ### Addresses -/

theorem and_wordMask (a : Addr) : a &&& 0xFFFC#16 = a.extractLsb' 2 14 ++ 0#2 := by
  apply BitVec.eq_of_getLsbD_eq
  intro i hi
  rw [BitVec.getLsbD_and, BitVec.getLsbD_append, BitVec.getLsbD_extractLsb']
  interval_cases i <;> simp

/-- R69: the word an address belongs to depends on its bits 15:2 alone. -/
theorem wordOffset_congr {a b : Addr} (same : a.extractLsb' 2 14 = b.extractLsb' 2 14) :
    wordOffset a = wordOffset b := by
  rw [wordOffset, wordOffset, and_wordMask, and_wordMask, same]

theorem isCmdAddr_congr {a b : Addr} (same : wordOffset a = wordOffset b) :
    isCmdAddr a = isCmdAddr b := by
  rw [Bool.eq_iff_iff, isCmdAddr_iff, isCmdAddr_iff, same]

theorem exec_busRead_congr {a b : Addr} (same : locate a = locate b) (s : State) :
    exec (.busRead a) s = exec (.busRead b) s := by
  simp only [exec, execBusRead, same]

theorem exec_busWrite_congr {a b : Addr} (same : locate a = locate b) (v : Word) (s : State) :
    exec (.busWrite a v) s = exec (.busWrite b v) s := by
  simp only [exec, execBusWrite, same]

/-- Settles O21: the location, and with it the decoding at CMD, depend on the word offset alone. -/
theorem lowAddressBitsAreIgnored : Obligations.LowAddressBitsAreIgnored := by
  intro s a b v same
  have offset := wordOffset_congr same
  have leads := locate_congr offset
  refine ⟨exec_busRead_congr leads s, exec_busWrite_congr leads v s, ?_⟩
  rw [decodeBus_busWriteWord, decodeBus_busWriteWord, isCmdAddr_congr offset]
  split
  · rfl
  · exact exec_busWrite_congr leads v s

/-! ### The port always answers -/

/-- Settles O8: exec answers every instruction, and of the agents only a second host is refused. -/
theorem onlyASecondHostIsRefused : Obligations.OnlyASecondHostIsRefused := by
  have answers : ∀ i s, ∃ t, exec i s = .next t := fun i s =>
    (exec_effect i s).imp fun _ => And.left
  refine ⟨answers, fun s notOther => ?_, fun s w rest => step_of_otherHost⟩
  cases next : s.inputs with
  | nil => exact ⟨_, step_of_nil next⟩
  | cons i rest =>
    cases i with
    | host w => rw [step_of_host next]; exact answers _ _
    | otherHost w => exact absurd next (notOther w rest)
    | block => exact ⟨_, step_of_block next⟩
    | reset => exact ⟨_, step_of_reset next⟩

/-! ### The IBUF window -/

/-- Beyond IBUF nothing is stored. -/
theorem writeIbufWord_of_le {s : State} {w : Nat} (beyond : s.ibufBytes ≤ 4 * w) (v : Word) :
    s.writeIbufWord w v = s :=
  if_neg (Nat.not_lt.mpr beyond)

/-- A write of a word of IBUF touches IBUF alone. -/
theorem writeIbufWord_eq (s : State) (w : Nat) (v : Word) :
    s.writeIbufWord w v = { s with ibuf := (s.writeIbufWord w v).ibuf } := by
  unfold State.writeIbufWord
  split <;> rfl

/-- Settles O31, from the laws of a word of IBUF at the byte offset its address gives. -/
theorem ibufWindowIsLittleEndian : Obligations.IbufWindowIsLittleEndian := by
  intro s a low high
  have leads := locate_ibuf low high
  have aligned : (wordOffset a - 0x4000) % 4 = 0 := by
    have := wordOffset_mod a
    omega
  generalize wordOffset a - 0x4000 = p at leads aligned ⊢
  have offset : 4 * (p / 4) = p := by omega
  have write : ∀ v, s.busy = false → exec (.busWrite a v) s = .next (s.writeIbufWord (p / 4) v) :=
    fun v idle => exec_busWrite_of_open v leads (by rw [idle, Bool.false_and])
  refine ⟨fun v idle => ⟨_, write v idle, writeIbufWord_eq s _ v, fun k => ?_⟩,
    fun v idle beyond => ?_, fun v busy => exec_busWrite_of_busy v leads busy rfl,
    ⟨_, exec_busRead_of_locate leads rfl, rfl, fun inside j hj => ?_, fun beyond => ?_⟩⟩
  · rw [writeIbufWord_ibufByte, offset]
  · rw [write v idle, writeIbufWord_of_le (offset.symm ▸ beyond)]
  · have window : s.readLoc (.ibuf (p / 4)) = s.ibufWord (p / 4) := if_pos (by omega)
    exact (congrArg (·.extractLsb' (8 * j) 8) window).trans (ibufWord_byte s aligned hj)
  · exact if_neg (by omega)

end Sys2Proof.Machine
end

