-- ==== Sys2Proof/Proofs/CommandRuns.lean ====
section
/-! What a pending command computes from, and what a run of steps leaves of the operands and the
results (20_memory.md R76, R79). -/

namespace Sys2Proof.Machine

/-! ### The operands -/

theorem State.sameOperands.symm {s t : State} (same : s.sameOperands t) : t.sameOperands s := by
  obtain ⟨frame, expect, ilen, ibuf, size⟩ := same
  exact ⟨frame.symm, expect.symm, ilen.symm, fun k => (ibuf k).symm, size.symm⟩

theorem State.sameOperands.trans {s t u : State} (first : s.sameOperands t)
    (second : t.sameOperands u) : s.sameOperands u := by
  obtain ⟨frame, expect, ilen, ibuf, size⟩ := first
  obtain ⟨frame', expect', ilen', ibuf', size'⟩ := second
  exact ⟨frame'.trans frame, expect'.trans expect, ilen'.trans ilen,
    fun k => (ibuf' k).trans (ibuf k), size'.trans size⟩

/-- Equal operands give STUFF and DESTUFF the same bytes (30_encoding.md R97). -/
theorem State.sameOperands.bytesOperand {s t : State} (same : s.sameOperands t) :
    t.bytesOperand = s.bytesOperand := by
  obtain ⟨-, -, ilen, ibuf, -⟩ := same
  simp only [State.bytesOperand, State.readIbuf, State.lengthOperand, ilen, ibuf]

/-! ### The results -/

theorem sameResults_refl (s : State) : s.sameResults s := HostEffect.nothing.sameResults

theorem State.sameResults.trans {s t u : State} (first : s.sameResults t)
    (second : t.sameResults u) : s.sameResults u := by
  obtain ⟨crc, matched, olen, obuf, frame, dangle, rawflag, badesc⟩ := first
  obtain ⟨crc', matched', olen', obuf', frame', dangle', rawflag', badesc'⟩ := second
  exact ⟨crc'.trans crc, matched'.trans matched, olen'.trans olen,
    fun k => (obuf' k).trans (obuf k), frame'.trans frame, dangle'.trans dangle,
    rawflag'.trans rawflag, badesc'.trans badesc⟩

/-- Two states with equal results have equal results after the same output is put into both. -/
theorem State.sameResults.putOutput {s t : State} (same : s.sameResults t) (o : List Byte) :
    (s.putOutput o).sameResults (t.putOutput o) := by
  obtain ⟨crc, matched, -, obuf, ds⟩ := same
  refine ⟨crc, matched, rfl, fun k => ?_, ds⟩
  rw [putOutput_obufByte, putOutput_obufByte, obuf]

theorem State.sameResults.setDs {s t : State} (same : s.sameResults t) (f : DsFlags) :
    (s.setDs f).sameResults (t.setDs f) := by
  obtain ⟨crc, matched, olen, obuf, -⟩ := same
  exact ⟨crc, matched, olen, obuf, rfl, rfl, rfl, rfl⟩

theorem State.sameResults.finish {s t : State} (same : s.sameResults t) :
    s.finish.sameResults t.finish := same

/-! ### Completion -/

/-- The Block's turn with a command pending is the command's completion. -/
theorem step_of_block_pending {s : State} {c : Command} {rest : List Input}
    (next : s.inputs = .block :: rest) (pending : s.pending = some c) :
    step s = .next (complete c (s.withInputs rest)) := by
  rw [step_of_block next, blockTurn, withInputs_pending, pending]

theorem complete_inputs (c : Command) (s : State) : (complete c s).inputs = s.inputs := by
  cases c <;> rfl

/-- R187: no completion writes an operand. -/
theorem complete_sameOperands (c : Command) (s : State) : s.sameOperands (complete c s) := by
  cases c with
  | crcGen =>
    obtain ⟨r, -, e⟩ := complete_crcGen s
    rw [e]
    exact ⟨rfl, rfl, rfl, fun _ => rfl, rfl⟩
  | crcVerify =>
    obtain ⟨m, -, e⟩ := complete_crcVerify s
    rw [e]
    exact ⟨rfl, rfl, rfl, fun _ => rfl, rfl⟩
  | stuff => exact ⟨rfl, rfl, rfl, fun _ => rfl, rfl⟩
  | destuff => exact ⟨rfl, rfl, rfl, fun _ => rfl, rfl⟩

/-- A completion is a function of the operands and of the results it leaves alone. -/
theorem complete_sameResults {s t : State} (c : Command) (operands : s.sameOperands t)
    (results : s.sameResults t) : (complete c s).sameResults (complete c t) := by
  have bytes := operands.bytesOperand
  obtain ⟨frame, expect, -⟩ := operands
  cases c with
  | crcGen =>
    obtain ⟨r, crc, e⟩ := complete_crcGen s
    obtain ⟨r', crc', e'⟩ := complete_crcGen t
    have equal : r' = r := by rw [crc, crc', frame]
    obtain ⟨-, others⟩ := results
    rw [e, e']
    exact ⟨equal, others⟩
  | crcVerify =>
    obtain ⟨m, verified, e⟩ := complete_crcVerify s
    obtain ⟨m', verified', e'⟩ := complete_crcVerify t
    have equal : m' = m := by rw [verified, verified', frame, expect]
    obtain ⟨crcResult, -, others⟩ := results
    rw [e, e']
    exact ⟨crcResult, equal, others⟩
  | stuff =>
    rw [complete_stuff, complete_stuff, bytes]
    exact (results.putOutput _).finish
  | destuff =>
    rw [complete_destuff, complete_destuff, bytes]
    exact ((results.putOutput _).setDs _).finish

/-! ### The host while a command is pending -/

/-- The command of the one state stands in the other as it did, operands and results included. -/
structure State.KeepsCommand (s t : State) : Prop where
  busy : t.busy = s.busy
  pending : t.pending = s.pending
  operands : s.sameOperands t
  results : s.sameResults t

theorem keepsCommand_withInputs (s : State) (is : List Input) : s.KeepsCommand (s.withInputs is) :=
  ⟨rfl, rfl, ⟨rfl, rfl, rfl, fun _ => rfl, rfl⟩, sameResults_refl s⟩

theorem State.KeepsCommand.trans {s t u : State} (first : s.KeepsCommand t)
    (second : t.KeepsCommand u) : s.KeepsCommand u :=
  ⟨second.busy.trans first.busy, second.pending.trans first.pending,
    first.operands.trans second.operands, first.results.trans second.results⟩

/-- The schedule is no part of the command. -/
theorem State.KeepsCommand.withInputs {s t : State} (keeps : s.KeepsCommand t) (is : List Input) :
    (s.withInputs is).KeepsCommand (t.withInputs is) :=
  ⟨keeps.busy, keeps.pending, keeps.operands, keeps.results⟩

/-- The two completions of the command come to the same. -/
theorem State.KeepsCommand.complete {s t : State} (keeps : s.KeepsCommand t) (c : Command) :
    (complete c s).sameResults (complete c t) ∧ (complete c s).sameOperands (complete c t) :=
  ⟨complete_sameResults c keeps.operands keeps.results,
    ((complete_sameOperands c s).symm.trans keeps.operands).trans (complete_sameOperands c t)⟩

theorem HostEffect.inputs {s t : State} (effect : HostEffect s t) : t.inputs = s.inputs := by
  cases effect with
  | raise e => exact raise_inputs e s
  | ibuf w v _ => exact writeIbufWord_inputs w v s
  | _ => rfl

/-- The busy guard keeps every operand while a command is pending (42_bus_and_command.md R172). -/
theorem HostEffect.sameOperands_of_busy {s t : State} (effect : HostEffect s t)
    (busy : s.busy = true) : s.sameOperands t := by
  have guarded : s.busy ≠ false := by simp [busy]
  cases effect with
  | raise e => simp [State.sameOperands, State.ibufByte]
  | frame _ idle | crcExpect _ idle | ilen _ idle | ibuf _ _ idle => exact absurd idle guarded
  | _ => exact ⟨rfl, rfl, rfl, fun _ => rfl, rfl⟩

theorem HostEffect.keepsCommand {s t : State} (effect : HostEffect s t) (busy : s.busy = true) :
    s.KeepsCommand t := by
  rcases effect.busy_pending with ⟨sameBusy, samePending⟩ | ⟨idle, -⟩
  · exact ⟨sameBusy, samePending, effect.sameOperands_of_busy busy, effect.sameResults⟩
  · exact absurd (busy.symm.trans idle) nofun

theorem run_host_keepsCommand {s : State} {ws : List BusWord} {rest : List Input}
    (busy : s.busy = true) (next : s.inputs = ws.map .host ++ rest) :
    ∃ t, Sys2Proof.core.run ws.length s = .next t ∧ t.inputs = rest ∧ s.KeepsCommand t := by
  induction ws generalizing s with
  | nil => exact ⟨s, rfl, next, keepsCommand_withInputs s s.inputs⟩
  | cons w ws ih =>
    obtain ⟨u, ran, effect⟩ := exec_effect (decodeBus w) (s.withInputs (ws.map .host ++ rest))
    have stepped : step s = .next u := (step_of_host next).trans ran
    have keeps : s.KeepsCommand u := (keepsCommand_withInputs s _).trans (effect.keepsCommand busy)
    obtain ⟨t, ran', left, keeps'⟩ := ih (keeps.busy.trans busy) effect.inputs
    exact ⟨t, (run_succ_of_step stepped).trans ran', left, keeps.trans keeps'⟩

/-- Settles O41: the host's transactions keep the command, and the completion is a function of what
they keep. -/
theorem commandsUseTheOperandsOfAcceptance : Obligations.CommandsUseTheOperandsOfAcceptance := by
  intro s c ws rest busy pending
  obtain ⟨t, ran, next, kept⟩ :=
    run_host_keepsCommand (s := s.withInputs (ws.map .host ++ .block :: rest)) busy rfl
  have keeps : s.KeepsCommand t := (keepsCommand_withInputs s _).trans kept
  obtain ⟨sameResults, sameOperands⟩ := (keeps.withInputs rest).complete c
  have pending' := keeps.pending.trans pending
  obtain ⟨ended, -, -⟩ := complete_finished c (t.withInputs rest)
  exact ⟨t, _, _, ran, next, keeps.busy.trans busy, pending', keeps.operands, keeps.results,
    step_of_block_pending next pending', step_of_block_pending rfl pending, sameResults,
    sameOperands, ended⟩

/-! ### Runs with no command pending -/

theorem blockTurn_inputs (s : State) : (blockTurn s).inputs = s.inputs := by
  rcases blockTurn_cases s with ⟨-, e⟩ | ⟨c, -, e⟩ <;> rw [e]
  exact complete_inputs c s

/-- A step takes the head of the schedule off and brings nothing new. -/
theorem step_inputs {s t : State} (stepped : step s = .next t) : t.inputs = s.inputs.tail := by
  rcases step_cases stepped with ⟨next, rfl⟩ | ⟨w, rest, next, -, effect⟩ | ⟨rest, next, rfl⟩ |
    ⟨rest, next, rfl⟩ <;> rw [next, List.tail]
  · exact (blockTurn_inputs s).trans next
  · exact effect.inputs
  · exact blockTurn_inputs (s.withInputs rest)
  · exact resetStep_inputs (s.withInputs rest)

/-- The first of several steps has answered. -/
theorem exists_step_of_run_succ {n : Nat} {s t : State}
    (ran : Sys2Proof.core.run (n + 1) s = .next t) :
    ∃ u, step s = .next u ∧ Sys2Proof.core.run n u = .next t := by
  cases stepped : step s with
  | next u => exact ⟨u, rfl, (run_succ_of_step stepped).symm.trans ran⟩
  | fault r => cases r
  | refused r =>
    have stopped : Sys2Proof.core.step s = .refused r := stepped
    simp [Host.Core.run, stopped] at ran

theorem step_sameResults_of_idle {s t : State} (stepped : step s = .next t)
    (noReset : .reset ∉ s.inputs) (idle : s.pending = none) : s.sameResults t := by
  have notNext : ∀ rest, s.inputs ≠ .reset :: rest := fun rest next => noReset (by simp [next])
  rcases step_sameResults_or_complete stepped notNext with same | ⟨c, rest, pending, -⟩
  · exact same
  · exact absurd (idle.symm.trans pending) nofun

theorem State.Inv.busy_of_none {s : State} (inv : s.Inv) (idle : s.pending = none) :
    s.busy = false := by
  rw [inv.busy_iff, idle, Option.isSome_none]

/-- R76 over a run: the steps between two commands keep every result. -/
theorem run_sameResults_of_idle {n : Nat} {s t : State} (inv : s.Inv)
    (ran : Sys2Proof.core.run n s = .next t) (noReset : .reset ∉ s.inputs)
    (idle : ∀ m ≤ n, ∀ u, Sys2Proof.core.run m s = .next u → u.pending = none) :
    s.sameResults t ∧ t.busy = false := by
  induction n generalizing s with
  | zero =>
    cases ran
    exact ⟨sameResults_refl _, inv.busy_of_none (idle 0 le_rfl _ rfl)⟩
  | succ n ih =>
    obtain ⟨u, stepped, ran'⟩ := exists_step_of_run_succ ran
    have idle' : ∀ m ≤ n, ∀ w, Sys2Proof.core.run m u = .next w → w.pending = none :=
      fun m before w ranTo =>
        idle (m + 1) (Nat.succ_le_succ before) w ((run_succ_of_step stepped).trans ranTo)
    have noReset' : .reset ∉ u.inputs := by
      rw [step_inputs stepped]
      exact fun later => noReset (List.mem_of_mem_tail later)
    have now := idle 0 (Nat.zero_le _) s rfl
    obtain ⟨same, notBusy⟩ :=
      ih (everyStepKeepsTheInvariant s u inv stepped) ran' noReset' idle'
    exact ⟨(step_sameResults_of_idle stepped noReset now).trans same, notBusy⟩

/-- Settles O42: STATUS shows BUSY, which the invariant ties to pending, and with no completion and
no reset no step writes a result. -/
theorem resultsStayUntilTheNextCommand : Obligations.ResultsStayUntilTheNextCommand := by
  refine fun s inv => ⟨?_, fun n t => run_sameResults_of_idle inv⟩
  obtain ⟨u, ran, bit⟩ := exec_busRead_status_busy s
  refine ⟨u, ran, ?_⟩
  rw [bit, inv.busy_iff, Option.isSome_eq_false_iff, Option.isNone_iff_eq_none]

end Sys2Proof.Machine
end

