-- ==== Sys2Proof/Proofs/Encoding.lean ====
section
/-! Decode and encode agree, as bytes and on the bus (30_encoding.md R90 to R93): R91's table of
opcodes as a relation, the bytes of a word put together again, and what a decoded write does. -/

namespace Sys2Proof

/-! ### The opcode table (30_encoding.md R91, R92) -/

/-- The rows of R91's table, and R92's row of every other value. -/
inductive OpcodeRow : Byte → Instr → Prop
  | nop : OpcodeRow 0x00#8 .nop
  | crcGen : OpcodeRow 0x01#8 .crcGen
  | crcVerify : OpcodeRow 0x02#8 .crcVerify
  | stuff : OpcodeRow 0x10#8 .stuff
  | destuff : OpcodeRow 0x11#8 .destuff
  | reserved {op : Byte} (unassigned : assignedOp op = false) : OpcodeRow op (.reserved op)

theorem assignedOp_eq_true_iff (op : Byte) :
    assignedOp op = true ↔
      op = 0x00#8 ∨ op = 0x01#8 ∨ op = 0x02#8 ∨ op = 0x10#8 ∨ op = 0x11#8 := by
  simp [assignedOp, or_assoc]

theorem assignedOp_eq_false_iff (op : Byte) :
    assignedOp op = false ↔
      op ≠ 0x00#8 ∧ op ≠ 0x01#8 ∧ op ≠ 0x02#8 ∧ op ≠ 0x10#8 ∧ op ≠ 0x11#8 := by
  rw [← Bool.not_eq_true, assignedOp_eq_true_iff]
  simp only [not_or, ne_eq]

/-- Each opcode is in one row, and decodes to that row's instruction. -/
theorem opcodeRow_iff {op : Byte} {i : Instr} : OpcodeRow op i ↔ decodeOp op = i := by
  constructor
  · intro row
    cases row with
    | nop | crcGen | crcVerify | stuff | destuff => rfl
    | reserved unassigned => exact decodeOp_of_not_assigned unassigned
  · rintro rfl
    cases assigned : assignedOp op with
    | false => rw [decodeOp_of_not_assigned assigned]; exact .reserved assigned
    | true =>
      rcases (assignedOp_eq_true_iff op).mp assigned with rfl | rfl | rfl | rfl | rfl
      · exact .nop
      · exact .crcGen
      · exact .crcVerify
      · exact .stuff
      · exact .destuff

theorem opcodeRow_decodeOp (op : Byte) : OpcodeRow op (decodeOp op) := opcodeRow_iff.mpr rfl

/-- A well-formed instruction is in the row of the opcode it encodes to. -/
theorem opcodeRow_of_opOf {i : Instr} {op : Byte} (wf : i.wf = true) (encodes : opOf i = some op) :
    OpcodeRow op i := by
  cases i with
  | nop | crcGen | crcVerify | stuff | destuff => cases encodes; constructor
  | reserved op => cases encodes; exact .reserved (by simpa [Instr.wf] using wf)
  | busRead a | busWrite a v => cases encodes

theorem opOf_of_opcodeRow {op : Byte} {i : Instr} (row : OpcodeRow op i) : opOf i = some op := by
  cases row <;> rfl

theorem wf_of_opcodeRow {op : Byte} {i : Instr} (row : OpcodeRow op i) : i.wf = true := by
  cases row with
  | nop | crcGen | crcVerify | stuff | destuff => rfl
  | reserved unassigned => simp [Instr.wf, unassigned]

/-- Settles O3: the decoder looks at the opcode alone, and every opcode not of R91 is in R92's
row. -/
theorem opcodeIsTheLowByteAlone : Obligations.OpcodeIsTheLowByteAlone := by
  intro v
  have select {op : Byte} {i : Instr} (row : OpcodeRow op i) (low : cmdOp v = op) :
      decodeCmd v = i := by
    rw [decodeCmd, low, opcodeRow_iff.mp row]
  exact ⟨select .nop, select .crcGen, select .crcVerify, select .stuff, select .destuff,
    fun op low others => select (.reserved ((assignedOp_eq_false_iff op).mpr others)) low⟩

/-! ### Bytes (log 9) -/

/-- The four bytes of a CMD word decode to its command. -/
theorem decode_cmdBytes (v : Word) : decode (cmdBytes v) = .ok (decodeCmd v) := by
  have whole : v.extractLsb' 24 8 ++ v.extractLsb' 16 8 ++ v.extractLsb' 8 8 ++ v.extractLsb' 0 8
      = v := by
    simp only [BitVec.extractLsb'_append_extractLsb'_eq_extractLsb', BitVec.extractLsb'_eq_self]
  rw [cmdBytes, decode, BitVec.cast_eq, whole]

/-- The seventh byte of a transaction holds bit 48 and nothing above it. -/
theorem extractLsb'_top_of_setWidth (b : BitVec 1) :
    (b.setWidth 8).extractLsb' 0 1 = b ∧ (b.setWidth 8).extractLsb' 1 7 = 0#7 := by
  revert b
  decide

/-- The bits of a transaction from the bytes it is laid out in. -/
theorem busWordOfBytes_extract (t : BusWord) :
    busWordOfBytes (t.extractLsb' 0 8) (t.extractLsb' 8 8) (t.extractLsb' 16 8)
      (t.extractLsb' 24 8) (t.extractLsb' 32 8) (t.extractLsb' 40 8)
      ((t.extractLsb' 48 1).setWidth 8) = t := by
  rw [busWordOfBytes, BitVec.cast_eq, (extractLsb'_top_of_setWidth _).1]
  simp only [BitVec.extractLsb'_append_extractLsb'_eq_extractLsb', BitVec.extractLsb'_eq_self]

/-- The seven bytes of a transaction decode to what the transaction decodes to. -/
theorem decode_busBytes (t : BusWord) : decode (busBytes t) = .ok (decodeBus t) := by
  rw [busBytes, decode, if_pos (extractLsb'_top_of_setWidth _).2, busWordOfBytes_extract]

theorem decode_encode {i : Instr} (wf : i.wf = true) : decode (encode i) = .ok i := by
  unfold encode
  split
  · rename_i op encodes
    rw [decode_cmdBytes, decodeCmd, cmdOp_cmdWord,
      opcodeRow_iff.mp (opcodeRow_of_opOf wf encodes)]
  · rw [decode_busBytes, decodeBus_encodeBus wf]

/-- Settles O1: `decode_encode` for the bytes, `decodeBus_encodeBus` for the bus. -/
theorem decodeInvertsEncode : Obligations.DecodeInvertsEncode :=
  fun _ wf => ⟨decode_encode wf, decodeBus_encodeBus wf⟩

/-! ### Encoding what was decoded -/

/-- Every command is presented as a write of its opcode to CMD at 0x0008 (R90). -/
theorem encodeBus_of_opOf {i : Instr} {op : Byte} (encodes : opOf i = some op) :
    encodeBus i = busWriteWord 0x0008#16 (cmdWord op) := by
  cases i with
  | nop | crcGen | crcVerify | stuff | destuff | reserved op => cases encodes; rfl
  | busRead a | busWrite a v => cases encodes

theorem wf_decodeBus (t : BusWord) : (decodeBus t).wf = true := by
  unfold decodeBus
  split
  · split
    · exact wf_of_opcodeRow (opcodeRow_decodeOp _)
    · rename_i notCmd
      simpa [Instr.wf] using notCmd
  · rfl

/-- Settles O2, by the three kinds of transaction: a command, a write elsewhere, a read. -/
theorem encodeInvertsDecodeButForIgnoredBits :
    Obligations.EncodeInvertsDecodeButForIgnoredBits := by
  refine fun t => ⟨wf_decodeBus t, ?_⟩
  unfold decodeBus
  split
  · rename_i isWrite
    split
    · exact encodeBus_of_opOf (opOf_of_opcodeRow (opcodeRow_decodeOp _))
    · exact busWriteWord_fields isWrite
  · rfl

/-- Settles O5, by running the decoder on each word. -/
theorem sampleWordsDecode : Obligations.SampleWordsDecode :=
  ⟨rfl, rfl, rfl, rfl, rfl, rfl, rfl, rfl, rfl⟩

end Sys2Proof

namespace Sys2Proof.Machine

/-! ### The instruction a write decodes to (42_bus_and_command.md R171, R180) -/

/-- The command of an opcode is the write of that opcode to CMD. -/
theorem exec_of_opcodeRow {op : Byte} {i : Instr} (row : OpcodeRow op i) (s : State) :
    exec i s = .next (cmdWrite op s) := by
  cases row <;> rfl

/-- A write transaction decoded and run is the bus write of R171, at CMD too. -/
theorem exec_decodeBus_busWriteWord (a : Addr) (v : Word) (s : State) :
    exec (decodeBus (busWriteWord a v)) s = exec (.busWrite a v) s := by
  rw [decodeBus_busWriteWord]
  split
  · rename_i toCmd
    rw [decodeCmd, exec_of_opcodeRow (opcodeRow_decodeOp _),
      exec_busWrite_cmd v s ((isCmdAddr_iff a).mp toCmd)]
  · rfl

theorem exec_decodeBus_busReadWord (a : Addr) (s : State) :
    exec (decodeBus (busReadWord a)) s = exec (.busRead a) s := by
  rw [decodeBus_busReadWord]

/-- A host's write on the port is the bus write, with the transaction taken off the schedule. -/
theorem step_busWriteWord (a : Addr) (v : Word) (s : State) (rest : List Input) :
    step { s with inputs := .host (busWriteWord a v) :: rest } =
      exec (.busWrite a v) (s.withInputs rest) :=
  (step_of_host rfl).trans (exec_decodeBus_busWriteWord a v _)

/-- Settles O4: a write to CMD depends on its word's opcode alone, which is that of the
zero-extended opcode too. -/
theorem reservedCmdBitsAreIgnored : Obligations.ReservedCmdBitsAreIgnored := by
  intro s a v rest toCmd
  have same (u : State) : exec (.busWrite a v) u = exec (.busWrite a (cmdWord (cmdOp v))) u := by
    rw [exec_busWrite_cmd v u toCmd, exec_busWrite_cmd _ u toCmd, cmdOp_cmdWord]
  refine ⟨⟨_, (step_busWriteWord a v s rest).trans (exec_busWrite_cmd v _ toCmd)⟩, ?_, same s⟩
  rw [step_busWriteWord, step_busWriteWord]
  exact same _

end Sys2Proof.Machine
end

