-- ==== Sys2Proof/Proofs/HostLines.lean ====
section
/-! The lines of a host program (30_encoding.md R99, 42_bus_and_command.md R190): its variables, its
labels, and the host's turn at each kind of line. -/

namespace Sys2Proof.Machine

/-! ### Host variables -/

theorem getVar_setVar_same (h : HostProc) (x : Nat) (v : Word) :
    (h.setVar x v).getVar x = v := by
  simp [HostProc.getVar, HostProc.setVar]

theorem getVar_setVar_of_ne {x x' : Nat} (other : x' ≠ x) (h : HostProc) (v : Word) :
    (h.setVar x v).getVar x' = h.getVar x' := by
  have kept : (h.vars.filter fun p => p.1 != x).find? (fun p => p.1 == x') =
      h.vars.find? fun p => p.1 == x' := by
    rw [List.find?_filter]
    congr 1
    funext p
    by_cases wanted : p.1 = x' <;> simp [wanted, other]
  simp [HostProc.getVar, HostProc.setVar, kept, other.symm]

/-! ### Labels -/

/-- The search for a label goes on past every other line. -/
theorem labelLine_cons (l : Nat) (x : HostLine) (xs : List HostLine) (n : Nat) :
    labelLine l (x :: xs) n = if x = .label l then some n else labelLine l xs (n + 1) := by
  cases x <;> simp [labelLine]

/-- The line found for a label holds that label. -/
theorem getElem?_of_labelLine {l n k : Nat} {p : List HostLine} (found : labelLine l p n = some k) :
    n ≤ k ∧ p[k - n]? = some (.label l) := by
  induction p generalizing n with
  | nil => cases found
  | cons x xs ih =>
    rw [labelLine_cons] at found
    split at found
    · rename_i here
      cases found
      exact ⟨le_rfl, by simp [here]⟩
    · obtain ⟨later, holds⟩ := ih found
      refine ⟨by omega, ?_⟩
      rw [show k - n = k - (n + 1) + 1 by omega, List.getElem?_cons_succ, holds]

/-! ### The host's turn at each line -/

section Lines

variable {y : System}

theorem hostTurn_of_wr {a : Addr} {v : Word} (line : y.host.prog[y.host.line]? = some (.wr a v)) :
    hostTurn y = y.drive (.host (busWriteWord a v)) fun _ => y.host.advance := by
  simp only [hostTurn, line]

theorem hostTurn_of_wrVar {a : Addr} {x : Nat}
    (line : y.host.prog[y.host.line]? = some (.wrVar a x)) :
    hostTurn y = y.drive (.host (busWriteWord a (y.host.getVar x))) fun _ => y.host.advance := by
  simp only [hostTurn, line]

theorem hostTurn_of_rd {a : Addr} {x : Nat} (line : y.host.prog[y.host.line]? = some (.rd a x)) :
    hostTurn y =
      y.drive (.host (busReadWord a)) fun s => (y.host.setVar x s.rdata).advance := by
  simp only [hostTurn, line]

theorem hostTurn_of_bit {x : Nat} {n : Fin 32} {l : Nat}
    (line : y.host.prog[y.host.line]? = some (.bit x n l)) :
    hostTurn y = .next { y with host := y.host.branch x n l } := by
  simp only [hostTurn, line]

theorem hostTurn_of_label {l : Nat} (line : y.host.prog[y.host.line]? = some (.label l)) :
    hostTurn y = .next { y with host := y.host.advance } := by
  simp only [hostTurn, line]

theorem hostTurn_of_halt (line : y.host.prog[y.host.line]? = some .halt) :
    hostTurn y = .next y := by
  simp only [hostTurn, line]

end Lines

/-- A write of the host's is one bus write of the block. -/
theorem drive_busWrite (y : System) (a : Addr) (v : Word) (f : State → HostProc) :
    ∃ s, exec (.busWrite a v) y.block = .next s ∧
      y.drive (.host (busWriteWord a v)) f = .next ⟨f s, s⟩ := by
  obtain ⟨s, ran, -, driven⟩ := drive_host y (busWriteWord a v) f
  rw [exec_decodeBus_busWriteWord] at ran
  exact ⟨s, ran, driven⟩

/-- A read of the host's is one bus read of the block. -/
theorem drive_busRead (y : System) (a : Addr) (f : State → HostProc) :
    ∃ s, exec (.busRead a) y.block = .next s ∧
      y.drive (.host (busReadWord a)) f = .next ⟨f s, s⟩ := by
  obtain ⟨s, ran, -, driven⟩ := drive_host y (busReadWord a) f
  rw [exec_decodeBus_busReadWord] at ran
  exact ⟨s, ran, driven⟩

/-- A branch changes the host's line alone, and goes to its label exactly if the bit is 1. -/
theorem branch_eq_of_labelLine {h : HostProc} {l k : Nat} (x : Nat) (n : Fin 32)
    (found : labelLine l h.prog 0 = some k) :
    h.branch x n l = { h with line := if (h.getVar x).getLsbD n then k else h.line + 1 } := by
  rw [HostProc.branch, found]
  split <;> rfl

/-- Settles O60, line by line: the turn at each line, the transaction it makes, and the variables. -/
theorem hostLinesMeanTheirTransactions : Obligations.HostLinesMeanTheirTransactions := by
  intro y
  refine ⟨fun a v line => ?wr, fun a x line => ?wrVar, fun a x line => ?rd,
    fun x n l k line found => ?bit, fun l line => hostTurn_of_label line, hostTurn_of_halt⟩
  case wr =>
    obtain ⟨s, ran, driven⟩ := drive_busWrite y a v fun _ => y.host.advance
    exact ⟨s, _, ran, (hostTurn_of_wr line).trans driven, rfl, rfl⟩
  case wrVar =>
    obtain ⟨s, ran, driven⟩ := drive_busWrite y a (y.host.getVar x) fun _ => y.host.advance
    exact ⟨s, _, ran, (hostTurn_of_wrVar line).trans driven, rfl, rfl⟩
  case rd =>
    obtain ⟨s, ran, driven⟩ :=
      drive_busRead y a fun s => (y.host.setVar x s.rdata).advance
    exact ⟨s, _, ran, (hostTurn_of_rd line).trans driven, rfl, rfl, rfl,
      getVar_setVar_same y.host x s.rdata,
      fun _ other => getVar_setVar_of_ne other y.host s.rdata⟩
  case bit =>
    have turn := hostTurn_of_bit line
    rw [branch_eq_of_labelLine x n found] at turn
    exact ⟨(getElem?_of_labelLine found).2, _, turn, rfl, rfl, rfl⟩

end Sys2Proof.Machine
end

