-- ==== Sys2Proof/Proofs/CrcPolynomials.lean ====
section
/-! The CRC over GF(2) (40_crc.md R112, R113): a word as a polynomial, the steps of the long division
and of the shift register modulo G(x), and the code as the remainder. -/

namespace Sys2Proof.Machine

open Polynomial

/-! ### A word as a polynomial -/

/-- The low n bits of a word, bit i at xⁱ (R112). -/
noncomputable def lowPoly {w : Nat} (v : BitVec w) (n : Nat) : (ZMod 2)[X] :=
  ∑ i ∈ Finset.range n, if v.getLsbD i then X ^ i else 0

/-- A word, bit i at xⁱ. -/
noncomputable def wordPoly {w : Nat} (v : BitVec w) : (ZMod 2)[X] := lowPoly v w

theorem lowPoly_succ {w : Nat} (v : BitVec w) (n : Nat) :
    lowPoly v (n + 1) = lowPoly v n + if v.getLsbD n then X ^ n else 0 :=
  Finset.sum_range_succ _ n

theorem lowPoly_coeff {w : Nat} (v : BitVec w) (n i : Nat) :
    (lowPoly v n).coeff i = if i < n ∧ v.getLsbD i then 1 else 0 := by
  induction n with
  | zero => simp [lowPoly]
  | succ n ih =>
    rw [lowPoly_succ, coeff_add, ih, apply_ite (coeff · i), coeff_X_pow, coeff_zero]
    rcases lt_trichotomy i n with below | rfl | above
    · simp [below, below.ne, below.trans n.lt_succ_self]
    · simp
    · simp [above.not_gt, above.ne', Nat.not_lt.mpr above]

@[simp] theorem wordPoly_coeff {w : Nat} (v : BitVec w) (i : Nat) :
    (wordPoly v).coeff i = if v.getLsbD i then 1 else 0 := by
  rw [wordPoly, lowPoly_coeff]
  have inside : v.getLsbD i = true → i < w := BitVec.lt_of_getLsbD
  simp only [and_iff_right_of_imp inside]

theorem wordPoly_injective {w : Nat} : Function.Injective (wordPoly (w := w)) := by
  intro a b same
  refine BitVec.eq_of_getLsbD_eq fun i _ => ?_
  have coeffs := congrArg (coeff · i) same
  cases bitA : a.getLsbD i <;> cases bitB : b.getLsbD i <;> simp [bitA, bitB] at coeffs ⊢

theorem degree_wordPoly_lt {w : Nat} (v : BitVec w) : (wordPoly v).degree < w := by
  refine (degree_lt_iff_coeff_zero _ _).mpr fun i beyond => ?_
  simp [BitVec.getLsbD_of_ge v i beyond]

/-- XOR is addition over GF(2). -/
theorem wordPoly_xor {w : Nat} (a b : BitVec w) :
    wordPoly (a ^^^ b) = wordPoly a + wordPoly b := by
  ext i
  cases bitA : a.getLsbD i <;> cases bitB : b.getLsbD i <;>
    simp [bitA, bitB, CharTwo.add_self_eq_zero]

theorem wordPoly_twoPow {w i : Nat} (inside : i < w) :
    wordPoly (BitVec.twoPow w i) = X ^ i := by
  ext j
  by_cases here : i = j
  · simp [coeff_X_pow, inside, ← here]
  · simp [coeff_X_pow, BitVec.getLsbD_twoPow, here, Ne.symm here]

/-- A shift that drops no bit multiplies by a power of x. -/
theorem wordPoly_setWidth_shiftLeft {w u k : Nat} (room : w + k ≤ u) (v : BitVec w) :
    wordPoly (v.setWidth u <<< k) = wordPoly v * X ^ k := by
  ext i
  rw [coeff_mul_X_pow', wordPoly_coeff, wordPoly_coeff, BitVec.getLsbD_shiftLeft,
    BitVec.getLsbD_setWidth]
  by_cases low : i < k
  · simp [low, Nat.not_le.mpr low]
  · by_cases bit : v.getLsbD (i - k)
    · have inside := BitVec.lt_of_getLsbD bit
      simp [low, bit, Nat.le_of_not_lt low, show i < u by omega, show i - k < u by omega]
    · simp [low, bit]

/-- A shift by one position carries the top bit out. -/
theorem wordPoly_shiftLeft_one (c : Half) :
    wordPoly (c <<< 1) = wordPoly c * X + if c.getLsbD 15 then X ^ 16 else 0 := by
  ext i
  rw [coeff_add, apply_ite (coeff · i), coeff_X_pow, coeff_zero, wordPoly_coeff,
    BitVec.getLsbD_shiftLeft]
  cases i with
  | zero => simp
  | succ i =>
    rw [coeff_mul_X, wordPoly_coeff, Nat.add_sub_cancel]
    rcases lt_trichotomy i 15 with below | rfl | above
    · simp [below.ne, show i + 1 < 16 by omega]
    · cases c.getLsbD 15 <;> simp [CharTwo.add_self_eq_zero]
    · simp [above.ne', BitVec.getLsbD_of_ge c i above]

/-! ### The divisor -/

/-- G(x) (R112). -/
noncomputable def generator : (ZMod 2)[X] := X ^ 16 + X ^ 12 + X ^ 5 + 1

theorem generator_monic : generator.Monic := by
  unfold generator
  monicity!

theorem degree_generator : generator.degree = 16 := by
  unfold generator
  compute_degree!

/-- The divisor pattern is G(x) (R110, R112). -/
theorem wordPoly_polyPattern : wordPoly Config.polyPattern = generator := by
  have bits : wordPoly Config.polyPattern = 1 + X ^ 5 + X ^ 12 + X ^ 16 := by
    simp [wordPoly, lowPoly, Finset.sum_range_succ, Config.polyPattern]
  rw [bits, generator]
  ring

/-- POLY is G(x) without its leading term (R110). -/
theorem wordPoly_poly : wordPoly Config.poly = generator + X ^ 16 := by
  have bits : wordPoly Config.poly = 1 + X ^ 5 + X ^ 12 := by
    simp [wordPoly, lowPoly, Finset.sum_range_succ, Config.poly]
  rw [bits, generator]
  linear_combination CharTwo.add_self_eq_zero (-X ^ 16 : (ZMod 2)[X])

/-! ### The long division -/

/-- The pattern as `crcStep` places it, its leading bit at position k + 16. -/
theorem getLsbD_pattern_of_ge {k i : Nat} (inside : k + 16 < 116) (above : k + 16 ≤ i) :
    (Config.polyPattern.setWidth 116 <<< k).getLsbD i = decide (i = k + 16) := by
  rcases above.eq_or_lt with rfl | beyond
  · simp [inside, Config.polyPattern]
  · have zero : Config.polyPattern.getLsbD (i - k) = false := BitVec.getLsbD_of_ge _ _ (by omega)
    simp [zero, beyond.ne']

/-- The step at position k + 16 clears the bit there and keeps those above. -/
theorem getLsbD_crcStep_of_ge {w : BitVec 116} {k i : Nat} (inside : k + 16 < 116)
    (above : k + 16 ≤ i) :
    (crcStep w (k + 16)).getLsbD i = (decide (i ≠ k + 16) && w.getLsbD i) := by
  unfold crcStep
  rw [Nat.add_sub_cancel]
  by_cases here : i = k + 16
  · split
    · rename_i bit
      rw [BitVec.getLsbD_xor, getLsbD_pattern_of_ge inside above, here, bit]
      simp
    · rename_i bit
      simpa [here] using bit
  · split
    · rw [BitVec.getLsbD_xor, getLsbD_pattern_of_ge inside above]
      simp [here]
    · simp [here]

/-- After the division no bit at position 16 or above is left. -/
theorem getLsbD_crcDivide_of_ge {n : Nat} {w : BitVec 116} (steps : n ≤ 100)
    (clear : ∀ i, n + 16 ≤ i → w.getLsbD i = false) {i : Nat} (high : 16 ≤ i) :
    (crcDivide n w).getLsbD i = false := by
  induction n generalizing w with
  | zero => exact clear i (by omega)
  | succ n ih =>
    refine ih (by omega) fun j above => ?_
    rw [getLsbD_crcStep_of_ge (by omega) above]
    by_cases here : j = n + 16
    · simp [here]
    · rw [clear j (by omega), Bool.and_false]

theorem wordPoly_crcStep (w : BitVec 116) {k : Nat} (inside : k < 100) :
    wordPoly (crcStep w (k + 16)) =
      wordPoly w + if w.getLsbD (k + 16) then generator * X ^ k else 0 := by
  unfold crcStep
  rw [Nat.add_sub_cancel]
  split
  · rw [wordPoly_xor, wordPoly_setWidth_shiftLeft (by omega), wordPoly_polyPattern]
  · rw [add_zero]

/-! ### Residues modulo G(x) -/

/-- A word's polynomial modulo G(x). -/
noncomputable def residue {w : Nat} (v : BitVec w) : AdjoinRoot generator :=
  AdjoinRoot.mk generator (wordPoly v)

/-- x modulo G(x). -/
noncomputable def residueX : AdjoinRoot generator := AdjoinRoot.mk generator X

theorem residue_xor {w : Nat} (a b : BitVec w) : residue (a ^^^ b) = residue a + residue b := by
  rw [residue, wordPoly_xor, map_add]
  rfl

theorem residue_zero (w : Nat) : residue 0#w = 0 := by
  have zero : wordPoly 0#w = 0 := by
    ext i
    simp
  rw [residue, zero, map_zero]

theorem residue_twoPow {w i : Nat} (inside : i < w) :
    residue (BitVec.twoPow w i) = residueX ^ i := by
  rw [residue, wordPoly_twoPow inside, map_pow]
  rfl

/-- A code is the one word of 16 bits with its residue: its degree is below that of G(x). -/
theorem residue_injective : Function.Injective (residue (w := 16)) := by
  intro a b same
  have divides : generator ∣ wordPoly a - wordPoly b := AdjoinRoot.mk_eq_mk.mp same
  have small : (wordPoly a - wordPoly b).degree < generator.degree := by
    rw [degree_generator]
    exact (degree_sub_le _ _).trans_lt (max_lt (degree_wordPoly_lt a) (degree_wordPoly_lt b))
  exact wordPoly_injective (sub_eq_zero.mp (eq_zero_of_dvd_of_degree_lt divides small))

theorem residue_crcStep (w : BitVec 116) {k : Nat} (inside : k < 100) :
    residue (crcStep w (k + 16)) = residue w := by
  rw [residue, wordPoly_crcStep w inside, map_add, apply_ite (AdjoinRoot.mk generator), map_mul,
    AdjoinRoot.mk_self, zero_mul, map_zero, ite_self, add_zero]
  rfl

theorem residue_crcDivide {n : Nat} (steps : n ≤ 100) (w : BitVec 116) :
    residue (crcDivide n w) = residue w := by
  induction n generalizing w with
  | zero => rfl
  | succ n ih => rw [crcDivide, ih (by omega), residue_crcStep w (by omega)]

/-- The division starts from F(x)·x¹⁶. -/
theorem wordPoly_append_zeros (f : Frame) :
    wordPoly ((f ++ 0#16).cast rfl : BitVec 116) = wordPoly f * X ^ 16 := by
  ext i
  rw [coeff_mul_X_pow', wordPoly_coeff, wordPoly_coeff, BitVec.getLsbD_cast,
    BitVec.getLsbD_append]
  by_cases low : i < 16
  · simp [low, Nat.not_le.mpr low]
  · simp [low, Nat.le_of_not_lt low]

/-- Where no bit is set at position 16 or above, the low 16 bits are the whole word. -/
theorem wordPoly_extractLsb'_low {w : BitVec 116} (clear : ∀ i, 16 ≤ i → w.getLsbD i = false) :
    wordPoly (w.extractLsb' 0 16) = wordPoly w := by
  ext i
  rw [wordPoly_coeff, wordPoly_coeff, BitVec.getLsbD_extractLsb', Nat.zero_add]
  by_cases low : i < 16
  · simp [low]
  · simp [low, clear i (Nat.le_of_not_lt low)]

/-- R112 modulo G(x): the long division keeps the residue of F(x)·x¹⁶. -/
theorem residue_crc16 (f : Frame) : residue (crc16 f) = residue f * residueX ^ 16 := by
  have clear : ∀ i, 16 ≤ i →
      (crcDivide 100 ((f ++ 0#16).cast rfl : BitVec 116)).getLsbD i = false := fun i =>
    getLsbD_crcDivide_of_ge le_rfl fun j beyond => BitVec.getLsbD_of_ge _ j beyond
  calc residue (crc16 f)
    _ = residue (crcDivide 100 ((f ++ 0#16).cast rfl : BitVec 116)) :=
      congrArg (AdjoinRoot.mk generator) (wordPoly_extractLsb'_low clear)
    _ = AdjoinRoot.mk generator (wordPoly f * X ^ 16) := by
      rw [residue_crcDivide le_rfl, residue, wordPoly_append_zeros]
    _ = residue f * residueX ^ 16 := by
      rw [map_mul, map_pow]
      rfl

/-- Settles O45: the code has the residue of F(x)·x¹⁶, and its degree is below that of G(x). -/
theorem crcIsThePolynomialRemainder : Obligations.CrcIsThePolynomialRemainder := by
  intro f
  change wordPoly (crc16 f) = wordPoly f * X ^ 16 %ₘ generator
  have same : AdjoinRoot.mk generator (wordPoly (crc16 f)) =
      AdjoinRoot.mk generator (wordPoly f * X ^ 16) := by
    rw [map_mul, map_pow]
    exact residue_crc16 f
  have small : (wordPoly (crc16 f)).degree < generator.degree :=
    (degree_wordPoly_lt _).trans_eq degree_generator.symm
  calc wordPoly (crc16 f)
    _ = wordPoly (crc16 f) %ₘ generator := ((modByMonic_eq_self_iff generator_monic).mpr small).symm
    _ = wordPoly f * X ^ 16 %ₘ generator :=
      modByMonic_eq_of_dvd_sub generator_monic (AdjoinRoot.mk_eq_mk.mp same)

/-! ### The shift register (R113) -/

/-- One step of the shift register multiplies by x, takes the next bit in at x¹⁶ and reduces. -/
theorem wordPoly_crcShift (c : Half) (b : Bool) :
    wordPoly (crcShift c b) = wordPoly c * X + (if b then X ^ 16 else 0) +
      if c.getLsbD 15 ^^ b then generator else 0 := by
  have twice : (X ^ 16 + X ^ 16 : (ZMod 2)[X]) = 0 := CharTwo.add_self_eq_zero _
  rw [crcShift, apply_ite wordPoly, wordPoly_xor, wordPoly_poly, wordPoly_shiftLeft_one]
  cases c.getLsbD 15 <;> cases b <;>
    simp only [Bool.xor_false, Bool.xor_true, Bool.not_false, Bool.not_true, Bool.false_eq_true,
      if_true, if_false, add_zero]
  case false.true => ring
  case true.false => linear_combination twice

theorem residue_crcShift (c : Half) (b : Bool) :
    residue (crcShift c b) = residue c * residueX + if b then residueX ^ 16 else 0 := by
  rw [residue, wordPoly_crcShift, map_add, map_add, map_mul, apply_ite (AdjoinRoot.mk generator),
    apply_ite (AdjoinRoot.mk generator), AdjoinRoot.mk_self, map_zero, ite_self, add_zero, map_pow]
  rfl

/-- The frame's bits n-1 down to 0 go in after the register's. -/
theorem residue_crcSerialFrom (f : Frame) (n : Nat) (c : Half) :
    residue (crcSerialFrom f n c) =
      residue c * residueX ^ n + AdjoinRoot.mk generator (lowPoly f n) * residueX ^ 16 := by
  induction n generalizing c with
  | zero => simp [crcSerialFrom, lowPoly]
  | succ n ih =>
    have next : AdjoinRoot.mk generator (lowPoly f (n + 1)) =
        AdjoinRoot.mk generator (lowPoly f n) + if f.getLsbD n then residueX ^ n else 0 := by
      rw [lowPoly_succ, map_add, apply_ite (AdjoinRoot.mk generator), map_pow, map_zero]
      rfl
    rw [crcSerialFrom, ih, residue_crcShift, next]
    split <;> ring

theorem residue_crc16Serial (f : Frame) :
    residue (crc16Serial f) = residue f * residueX ^ 16 := by
  rw [crc16Serial, residue_crcSerialFrom, residue_zero, zero_mul, zero_add]
  rfl

/-- Settles O46: both forms have the residue of F(x)·x¹⁶. -/
theorem serialFormEqualsTheDivision : Obligations.SerialFormEqualsTheDivision := fun f =>
  residue_injective ((residue_crc16Serial f).trans (residue_crc16 f).symm)

end Sys2Proof.Machine
end

