-- ==== Sys2Proof/Proofs/CrcLaws.lean ====
section
/-! The laws of crc16 (40_crc.md R115, R116), from the residue of the code: crc16 is linear, and x
modulo G(x) is a unit whose powers below 100 are distinct. -/

namespace Sys2Proof.Machine

/-! ### Linearity -/

theorem crc16_xor (a b : Frame) : crc16 (a ^^^ b) = crc16 a ^^^ crc16 b := by
  refine residue_injective ?_
  rw [residue_xor, residue_crc16, residue_crc16, residue_crc16, residue_xor, add_mul]

theorem crc16_zero : crc16 0#100 = 0#16 := by
  simpa using crc16_xor 0#100 0#100

/-- The words that the set bits of f below n stand for, XORed together. -/
def xorOverBits {w u : Nat} (f : BitVec w) (word : Nat → BitVec u) (n : Nat) : BitVec u :=
  (List.range n).foldl (fun c i => if f.getLsbD i then c ^^^ word i else c) 0#u

theorem xorOverBits_succ {w u : Nat} (f : BitVec w) (word : Nat → BitVec u) (n : Nat) :
    xorOverBits f word (n + 1) =
      if f.getLsbD n then xorOverBits f word n ^^^ word n else xorOverBits f word n := by
  rw [xorOverBits, List.range_succ, List.foldl_append]
  rfl

/-- crc16 passes through the XOR. -/
theorem crc16_xorOverBits {w : Nat} (f : BitVec w) (word : Nat → Frame) (n : Nat) :
    crc16 (xorOverBits f word n) = xorOverBits f (fun i => crc16 (word i)) n := by
  induction n with
  | zero => exact crc16_zero
  | succ n ih => rw [xorOverBits_succ, xorOverBits_succ, apply_ite crc16, crc16_xor, ih]

/-- The single bits of f below n are f's low n bits. -/
theorem getLsbD_xorOverBits_twoPow {w i : Nat} (f : BitVec w) (n : Nat) (inside : i < w) :
    (xorOverBits f (BitVec.twoPow w) n).getLsbD i = (decide (i < n) && f.getLsbD i) := by
  induction n with
  | zero => simp [xorOverBits]
  | succ n ih =>
    rw [xorOverBits_succ, apply_ite (BitVec.getLsbD · i), BitVec.getLsbD_xor,
      BitVec.getLsbD_twoPow, ih]
    rcases lt_trichotomy i n with below | rfl | above
    · simp [below, below.ne', below.trans n.lt_succ_self]
    · simp [inside]
    · simp [above.ne, above.not_gt, Nat.not_lt.mpr above]

/-- Every word is the XOR of its single bits. -/
theorem xorOverBits_twoPow {w : Nat} (f : BitVec w) : xorOverBits f (BitVec.twoPow w) w = f := by
  refine BitVec.eq_of_getLsbD_eq fun i inside => ?_
  rw [getLsbD_xorOverBits_twoPow f w inside, decide_eq_true inside, Bool.true_and]

/-- Settles O47: additivity, which carries over to the XOR of the frame's single bits. -/
theorem crcIsLinear : Obligations.CrcIsLinear := by
  refine ⟨crc16_zero, crc16_xor, fun f => ?_⟩
  calc crc16 f
    _ = crc16 (xorOverBits f (BitVec.twoPow 100) 100) := by rw [xorOverBits_twoPow]
    _ = xorOverBits f (fun i => crc16 (BitVec.twoPow 100 i)) 100 := crc16_xorOverBits f _ _

/-! ### Powers of x modulo G(x) -/

/-- G(x) has a constant term, so x has an inverse: x·(x¹⁵ + x¹¹ + x⁴) = 1 modulo G(x). -/
theorem isUnit_residueX : IsUnit residueX := by
  refine IsUnit.of_mul_eq_one
    (AdjoinRoot.mk generator (Polynomial.X ^ 15 + Polynomial.X ^ 11 + Polynomial.X ^ 4)) ?_
  rw [residueX, ← map_mul, ← map_one (AdjoinRoot.mk generator), AdjoinRoot.mk_eq_mk]
  refine dvd_of_eq ?_
  rw [generator]
  linear_combination CharTwo.add_self_eq_zero (1 : Polynomial (ZMod 2))

theorem residue_one : residue 1#16 = 1 := residue_twoPow (w := 16) (i := 0) (by decide)

/-- A register that starts with 1 and takes in zeros holds the powers of x. -/
theorem residue_iterate_crcShift (n : Nat) :
    residue ((crcShift · false)^[n] 1#16) = residueX ^ n := by
  induction n with
  | zero => exact residue_one
  | succ n ih => simp [Function.iterate_succ_apply', residue_crcShift, ih, pow_succ]

/-- The register does not come back to 1 within 99 steps. -/
theorem iterate_crcShift_ne_one :
    ∀ n < 100, 0 < n → (crcShift · false)^[n] 1#16 ≠ 1#16 := by
  decide +kernel

theorem residueX_pow_ne_one {n : Nat} (pos : 0 < n) (small : n < 100) : residueX ^ n ≠ 1 :=
  fun one => iterate_crcShift_ne_one n small pos <| residue_injective <| by
    rw [residue_iterate_crcShift, one, residue_one]

/-! ### Changes of one and of two bits -/

/-- crc16(2ⁱ) is xⁱ⁺¹⁶ modulo G(x) (R116). -/
theorem residue_crc16_twoPow {i : Nat} (inside : i < 100) :
    residue (crc16 (BitVec.twoPow 100 i)) = residueX ^ (i + 16) := by
  rw [residue_crc16, residue_twoPow inside, pow_add]

/-- G(x) divides no power of x. -/
theorem crc16_twoPow_ne_zero {i : Nat} (inside : i < 100) : crc16 (BitVec.twoPow 100 i) ≠ 0#16 := by
  intro zero
  have power : residueX ^ (i + 16) = 0 := by
    rw [← residue_crc16_twoPow inside, zero, residue_zero]
  have collapsed : (0 : AdjoinRoot generator) = 1 :=
    isUnit_zero_iff.mp (power ▸ isUnit_residueX.pow (i + 16))
  rw [← residue_zero 16, ← residue_one] at collapsed
  exact absurd (residue_injective collapsed) (by decide)

theorem crc16_twoPow_ne {i j : Nat} (before : i < j) (inside : j < 100) :
    crc16 (BitVec.twoPow 100 i) ≠ crc16 (BitVec.twoPow 100 j) := by
  intro same
  have powers : residueX ^ (i + 16) * 1 = residueX ^ (i + 16) * residueX ^ (j - i) := by
    rw [mul_one, ← pow_add, ← residue_crc16_twoPow (before.trans inside), same,
      residue_crc16_twoPow inside]
    congr 1
    omega
  have one := (isUnit_residueX.pow (i + 16)).mul_left_cancel powers
  exact residueX_pow_ne_one (by omega) (by omega) one.symm

/-- Settles O48: by linearity the codes differ by the code of the change. -/
theorem oneAndTwoBitChangesAreDetected : Obligations.OneAndTwoBitChangesAreDetected := by
  have changed : ∀ c d : Half, c ^^^ d = c → d = 0#16 := by
    intro c d same
    rwa [← BitVec.xor_right_inj c, BitVec.xor_zero]
  refine ⟨fun f i inside same => ?_, fun f i j before inside same => ?_,
    fun i j => crc16_twoPow_ne⟩
  · rw [crc16_xor] at same
    exact crc16_twoPow_ne_zero inside (changed _ _ same)
  · rw [crc16_xor, crc16_xor, BitVec.xor_assoc] at same
    exact crc16_twoPow_ne before inside (BitVec.xor_eq_zero_iff.mp (changed _ _ same))

end Sys2Proof.Machine
end

