-- ==== Sys2Proof/Proofs/CrcCommands.lean ====
section
/-! CRC_GEN and CRC_VERIFY on the machine (40_crc.md R119, R120, R121): acceptance, completion, and a
command run from its CMD write to its completion. -/

namespace Sys2Proof.Machine

/-! ### Acceptance -/

/-- While idle, an opcode whose command does not read IBUF is accepted. -/
theorem cmdWrite_of_accepted {op : Byte} {c : Command} {s : State} (idle : s.busy = false)
    (starts : commandOf op = some c) (reads : usesIbuf c = false) : cmdWrite op s = s.accept c := by
  simp [cmdWrite_of_idle op idle, command, starts, reads]

theorem exec_crcGen_of_idle {s : State} (idle : s.busy = false) :
    exec .crcGen s = .next (s.accept .crcGen) :=
  congrArg _ (cmdWrite_of_accepted idle rfl rfl)

theorem exec_crcVerify_of_idle {s : State} (idle : s.busy = false) :
    exec .crcVerify s = .next (s.accept .crcVerify) :=
  congrArg _ (cmdWrite_of_accepted idle rfl rfl)

/-! ### Each command alone -/

/-- CRC_RESULT reads zero-extended while idle (10_state.md R32). -/
theorem exec_busRead_crcResult_of_idle {s : State} (idle : s.busy = false) :
    exec (.busRead 0x0020#16) s = .next { s with rdata := s.crcResult.setWidth 32 } := by
  rw [exec_busRead_of_locate (locate_crcResult rfl) idle, State.readLoc, if_neg (by simp [idle])]

/-- Settles O36: acceptance, completion with the code under a name, and a read of CRC_RESULT. -/
theorem crcGenComputesTheCrc : Obligations.CrcGenComputesTheCrc := by
  refine ⟨fun s rest idle => ⟨exec_crcGen_of_idle idle, ?_, ?_⟩,
    fun s busy => congrArg _ (cmdWrite_of_busy _ busy), crc16_zero, by decide +kernel,
    by decide +kernel, by decide +kernel⟩
  · obtain ⟨r, crc, completed⟩ := complete_crcGen ((s.accept .crcGen).withInputs rest)
    rw [step_of_block_pending rfl rfl]
    refine (congrArg _ completed).trans ?_
    rw [show crc16 s.frame = r from crc.symm]
    rfl
  · generalize crc16 s.frame = r
    exact exec_busRead_crcResult_of_idle (s := { s with crcResult := r, done := true }) idle

/-- Settles O37: acceptance, completion with the comparison under a name, and the completions that
keep MATCH. -/
theorem crcVerifyComparesTheCrc : Obligations.CrcVerifyComparesTheCrc := by
  refine ⟨fun s rest idle => ⟨exec_crcVerify_of_idle idle, ?_⟩,
    fun s busy => congrArg _ (cmdWrite_of_busy _ busy), fun s t c rest other stepped => ?_,
    by decide +kernel, by decide +kernel⟩
  · obtain ⟨m, verified, completed⟩ := complete_crcVerify ((s.accept .crcVerify).withInputs rest)
    rw [step_of_block_pending rfl rfl]
    refine (congrArg _ completed).trans ?_
    rw [show decide (crc16 s.frame = s.crcExpect) = m from verified.symm]
    rfl
  · rw [step_of_block_pending rfl rfl] at stepped
    cases stepped
    rw [complete_matched, if_neg other]
    rfl

/-! ### The two commands in a row -/

theorem complete_frame (c : Command) (s : State) : (complete c s).frame = s.frame := by
  obtain ⟨frame, -⟩ := complete_sameOperands c s
  exact frame

/-- A CMD write that is accepted, then the Block's turn: the command has completed. -/
theorem run_accepted_command {s : State} {i : Instr} {c : Command} {rest : List Input}
    (next : s.inputs = .host (encodeBus i) :: .block :: rest) (wf : i.wf = true)
    (accepted : exec i (s.withInputs (.block :: rest)) =
      .next ((s.withInputs (.block :: rest)).accept c)) (k : Nat) :
    ∃ t, t = complete c ((s.accept c).withInputs rest) ∧
      Sys2Proof.core.run (k + 2) s = Sys2Proof.core.run k t := by
  have written : step s = .next ((s.withInputs (.block :: rest)).accept c) := by
    rw [step_of_host next, decodeBus_encodeBus wf, accepted]
  exact ⟨_, rfl,
    (run_succ_of_step written).trans (run_succ_of_step (step_of_block_pending rfl rfl))⟩

/-- A code written to CRC_EXPECT while idle. -/
theorem step_write_crcExpect {s : State} {e : Half} {rest : List Input} (idle : s.busy = false)
    (next : s.inputs = .host (busWriteWord 0x0024#16 (e.setWidth 32)) :: rest) :
    step s = .next { s.withInputs rest with crcExpect := e } := by
  have low : (e.setWidth 32).extractLsb' 0 16 = e := by
    ext i inside
    simp [BitVec.getLsbD_eq_getElem inside, inside.trans (show 16 < 32 by decide)]
  rw [step_of_host next, decodeBus_busWriteWord, if_neg (by decide),
    exec_busWrite_of_open _ (locate_crcExpect rfl) (by simp [idle]), State.writeLoc, low]

/-- R119 as a run: the code left by CRC_GEN is compared with itself, over a frame that no step of the
run writes. -/
theorem run_gen_expect_verify {s : State} {rest : List Input} (idle : s.busy = false)
    (next : s.inputs = .host (encodeBus .crcGen) :: .block ::
      .host (busWriteWord 0x0024#16 ((crc16 s.frame).setWidth 32)) ::
      .host (encodeBus .crcVerify) :: .block :: rest) :
    ∃ t, Sys2Proof.core.run 5 s = .next t ∧ t.matched = true ∧ t.crcResult = crc16 s.frame ∧
      t.frame = s.frame ∧ t.inputs = rest := by
  -- CRC_GEN and its completion
  obtain ⟨u, generated, ranGen⟩ := run_accepted_command next rfl (exec_crcGen_of_idle idle) 3
  have frameU : u.frame = s.frame := by rw [generated, complete_frame]; rfl
  have resultU : u.crcResult = crc16 s.frame := by
    rw [generated, complete_crcResult, if_pos rfl]
    rfl
  have idleU : u.busy = false := by
    obtain ⟨-, ended, -⟩ := complete_finished .crcGen ((s.accept .crcGen).withInputs _)
    exact (congrArg (·.busy) generated).trans ended
  have nextU := (congrArg State.inputs generated).trans (complete_inputs _ _)
  -- the code to CRC_EXPECT
  have written := step_write_crcExpect idleU nextU
  -- CRC_VERIFY and its completion
  obtain ⟨t, verified, ranVerify⟩ :=
    run_accepted_command (s := { u.withInputs _ with crcExpect := crc16 s.frame }) rfl rfl
      (exec_crcVerify_of_idle idleU) 0
  refine ⟨t, ?_, ?_, ?_, ?_, ?_⟩
  · rw [ranGen, run_succ_of_step written, ranVerify]
    rfl
  · rw [verified, complete_matched, if_pos rfl]
    exact decide_eq_true (congrArg crc16 frameU)
  · rw [verified, complete_crcResult, if_neg nofun]
    exact resultU
  · rw [verified, complete_frame]
    exact frameU
  · rw [verified, complete_inputs]
    rfl

/-- Settles O49: verify compares the code with itself, and so do the two commands in a row. -/
theorem verifyAfterComputeAlwaysPasses : Obligations.VerifyAfterComputeAlwaysPasses :=
  ⟨fun _ => beq_self_eq_true _, fun _ _ idle => run_gen_expect_verify idle rfl⟩

end Sys2Proof.Machine
end

