-- ==== Sys2Proof/Proofs/StufferLaws.lean ====
section
/-! The functions stuff and destuff (41_stuff.md R140 to R158): the three kinds of payload byte, the
interior scan over two parts one after the other, and that the two functions invert each other. -/

namespace Sys2Proof.Machine

/-! ### The interior (R150) -/

/-- Two or more bytes are an interior between two outer bytes (R150). -/
theorem destuff_outer (a b : Byte) (mid : List Byte) :
    destuff (a :: (mid ++ [b])) =
      ((destuffScan false false false mid).1,
        ⟨a != Config.flag || b != Config.flag,
          (destuffScan false false false mid).2.1, (destuffScan false false false mid).2.2.1,
          (destuffScan false false false mid).2.2.2⟩) := by
  cases mid with
  | nil => rfl
  | cons c cs =>
    rw [List.cons_append, destuff, ← List.cons_append, List.dropLast_concat, List.getLast?_concat]
    rfl

/-! ### Lengths (R141, R151) -/

/-- Settles O50, from the lengths of the stuffed payload and of the scan. -/
theorem lengthsOfStuffAndDestuff : Obligations.LengthsOfStuffAndDestuff := by
  refine ⟨fun s => ?_, fun a b mid => ?_, length_destuff_le⟩
  · have length := length_stuff s
    refine ⟨length, by omega, length_stuff_le s, ?_⟩
    calc (stuff s).length = 2 * s.length + 2
      _ ↔ s.countP mustEscape = s.length := by omega
      _ ↔ ∀ b ∈ s, b = 0x7E#8 ∨ b = 0x7D#8 := by
        simp [List.countP_eq_length, mustEscape, Config.flag, Config.escape]
  · rw [destuff_outer]
    exact length_destuffScan_add_escapesRead false false false mid

/-! ### The stuffed payload (R140) -/

theorem stuffBody_flag (bs : List Byte) :
    stuffBody (0x7E#8 :: bs) = 0x7D#8 :: 0x5E#8 :: stuffBody bs := rfl

theorem stuffBody_escape (bs : List Byte) :
    stuffBody (0x7D#8 :: bs) = 0x7D#8 :: 0x5D#8 :: stuffBody bs := rfl

theorem stuffBody_plain {b : Byte} (notFlag : b ≠ 0x7E#8) (notEscape : b ≠ 0x7D#8)
    (bs : List Byte) : stuffBody (b :: bs) = b :: stuffBody bs := by
  simp [stuffBody, stuffByte, mustEscape, Config.flag, Config.escape, notFlag, notEscape]

/-- Induction over a payload by the kind of its first byte. -/
theorem payload_induction {motive : List Byte → Prop} (nil : motive [])
    (flag : ∀ bs, motive bs → motive (0x7E#8 :: bs))
    (escape : ∀ bs, motive bs → motive (0x7D#8 :: bs))
    (plain : ∀ b bs, b ≠ 0x7E#8 → b ≠ 0x7D#8 → motive bs → motive (b :: bs)) (p : List Byte) :
    motive p := by
  induction p with
  | nil => exact nil
  | cons b bs ih =>
    by_cases isFlag : b = 0x7E#8
    · exact isFlag ▸ flag bs ih
    · by_cases isEscape : b = 0x7D#8
      · exact isEscape ▸ escape bs ih
      · exact plain b bs isFlag isEscape ih

/-! ### The shape of stuff's output (R142) -/

theorem flag_not_mem_stuffBody (p : List Byte) : 0x7E#8 ∉ stuffBody p := by
  induction p using payload_induction with
  | nil => exact List.not_mem_nil
  | flag bs ih => simpa [stuffBody_flag] using ih
  | escape bs ih => simpa [stuffBody_escape] using ih
  | plain b bs notFlag notEscape ih =>
    simpa [stuffBody_plain notFlag notEscape] using ⟨notFlag.symm, ih⟩

theorem stuffBody_after_escape (p : List Byte) :
    ∀ k, (stuffBody p)[k]? = some 0x7D#8 →
      (stuffBody p)[k + 1]? = some 0x5E#8 ∨ (stuffBody p)[k + 1]? = some 0x5D#8 := by
  induction p using payload_induction with
  | nil => exact fun k found => by cases found
  | flag bs ih =>
    rw [stuffBody_flag]
    rintro (_ | _ | k) found
    · exact .inl rfl
    · exact absurd found (by simp)
    · exact ih k found
  | escape bs ih =>
    rw [stuffBody_escape]
    rintro (_ | _ | k) found
    · exact .inr rfl
    · exact absurd found (by simp)
    · exact ih k found
  | plain b bs notFlag notEscape ih =>
    rw [stuffBody_plain notFlag notEscape]
    rintro (_ | k) found
    · exact absurd (Option.some.inj found) notEscape
    · exact ih k found

/-- An ESCAPE of the output is one of the stuffed payload: the outer bytes are FLAGs. -/
theorem exists_of_escape_in_stuff {p : List Byte} {k : Nat}
    (found : (stuff p)[k]? = some 0x7D#8) : ∃ j, k = j + 1 ∧ (stuffBody p)[j]? = some 0x7D#8 := by
  cases k with
  | zero => exact absurd found (by simp [stuff, Config.flag])
  | succ j =>
    refine ⟨j, rfl, ?_⟩
    rw [stuff, List.getElem?_cons_succ] at found
    rcases Nat.lt_or_ge j (stuffBody p).length with inside | beyond
    · rwa [List.getElem?_append_left inside] at found
    · rw [List.getElem?_append_right beyond] at found
      exact absurd (List.mem_of_getElem? found) (by simp [Config.flag])

/-- Settles O51: the stuffed payload holds no FLAG, and the byte after its ESCAPE is in it too. -/
theorem stuffShape : Obligations.StuffShape := by
  refine fun s => ⟨stuffBody s, rfl, flag_not_mem_stuffBody s, fun k found => ?_⟩
  obtain ⟨j, rfl, inBody⟩ := exists_of_escape_in_stuff found
  have after := stuffBody_after_escape s j inBody
  have inside : j + 1 < (stuffBody s).length := by
    rcases after with next | next <;> exact (List.getElem?_eq_some_iff.mp next).1
  have next : (stuff s)[j + 1 + 1]? = (stuffBody s)[j + 1]? := by
    rw [stuff, List.getElem?_cons_succ, List.getElem?_append_left inside]
  have length : (stuff s).length = (stuffBody s).length + 2 := by simp [stuff]
  exact ⟨Nat.succ_pos j, by omega, next ▸ after⟩

/-! ### The interior scan (R150), byte by byte -/

theorem destuffScan_escaped (raw bad : Bool) (b : Byte) (bs : List Byte) :
    destuffScan true raw bad (b :: bs) =
      ((b ^^^ 0x20#8) :: (destuffScan false raw (bad || (b != 0x5E#8 && b != 0x5D#8)) bs).1,
        (destuffScan false raw (bad || (b != 0x5E#8 && b != 0x5D#8)) bs).2) := rfl

theorem destuffScan_escape (raw bad : Bool) (bs : List Byte) :
    destuffScan false raw bad (0x7D#8 :: bs) = destuffScan true raw bad bs := rfl

theorem destuffScan_unescaped {b : Byte} (notEscape : b ≠ 0x7D#8) (raw bad : Bool)
    (bs : List Byte) :
    destuffScan false raw bad (b :: bs) =
      (b :: (destuffScan false (raw || b == 0x7E#8) bad bs).1,
        (destuffScan false (raw || b == 0x7E#8) bad bs).2) := by
  simp [destuffScan, Config.escape, Config.flag, notEscape]

/-- Induction over an interior as the scan reads it: a byte after an ESCAPE, an ESCAPE, another. -/
theorem interior_induction {motive : Bool → List Byte → Prop} (nil : ∀ esc, motive esc [])
    (escaped : ∀ b bs, motive false bs → motive true (b :: bs))
    (escape : ∀ bs, motive true bs → motive false (0x7D#8 :: bs))
    (unescaped : ∀ b bs, b ≠ 0x7D#8 → motive false bs → motive false (b :: bs))
    (esc : Bool) (mid : List Byte) : motive esc mid := by
  induction mid generalizing esc with
  | nil => exact nil esc
  | cons b bs ih =>
    cases esc with
    | true => exact escaped b bs (ih false)
    | false =>
      by_cases isEscape : b = 0x7D#8
      · exact isEscape ▸ escape bs (ih true)
      · exact unescaped b bs isEscape (ih false)

/-! ### The scan of two parts -/

/-- The scan of q goes on with the flags that the scan of p ended with. -/
theorem destuffScan_append (esc : Bool) (p q : List Byte) : ∀ raw bad o e r d,
    destuffScan esc raw bad p = (o, e, r, d) →
      destuffScan esc raw bad (p ++ q) =
        (o ++ (destuffScan e r d q).1, (destuffScan e r d q).2) := by
  induction esc, p using interior_induction with
  | nil esc =>
    intro raw bad o e r d scanned
    cases scanned
    rfl
  | escaped b bs ih =>
    intro raw bad o e r d scanned
    rw [destuffScan_escaped] at scanned
    obtain ⟨rfl, flags⟩ := Prod.mk.inj scanned
    rw [List.cons_append, destuffScan_escaped, ih _ _ _ e r d (Prod.ext rfl flags),
      List.cons_append]
  | escape bs ih => exact ih
  | unescaped b bs notEscape ih =>
    intro raw bad o e r d scanned
    rw [destuffScan_unescaped notEscape] at scanned
    obtain ⟨rfl, flags⟩ := Prod.mk.inj scanned
    rw [List.cons_append, destuffScan_unescaped notEscape, ih _ _ _ e r d (Prod.ext rfl flags),
      List.cons_append]

/-- raw and bad are sticky, and neither influences what is emitted or the escapes. -/
theorem destuffScan_sticky (esc : Bool) (mid : List Byte) : ∀ raw bad,
    destuffScan esc raw bad mid =
      ((destuffScan esc false false mid).1, (destuffScan esc false false mid).2.1,
        raw || (destuffScan esc false false mid).2.2.1,
        bad || (destuffScan esc false false mid).2.2.2) := by
  induction esc, mid using interior_induction with
  | nil esc => simp [destuffScan]
  | escaped b bs ih =>
    intro raw bad
    simp only [destuffScan_escaped]
    rw [ih raw, ih false (false || _), Bool.false_or, Bool.or_assoc, Bool.false_or]
  | escape bs ih => exact ih
  | unescaped b bs notEscape ih =>
    intro raw bad
    simp only [destuffScan_unescaped notEscape]
    rw [ih (raw || _), ih (false || _), Bool.false_or, Bool.or_assoc, Bool.false_or]

theorem destuffScan_output (esc raw bad : Bool) (mid : List Byte) :
    (destuffScan esc raw bad mid).1 = (destuffScan esc false false mid).1 :=
  congrArg (·.1) (destuffScan_sticky esc mid raw bad)

theorem destuffScan_raw (esc bad : Bool) (mid : List Byte) :
    (destuffScan esc true bad mid).2.2.1 = true :=
  congrArg (·.2.2.1) (destuffScan_sticky esc mid true bad)

theorem destuffScan_bad (esc raw : Bool) (mid : List Byte) :
    (destuffScan esc raw true mid).2.2.2 = true :=
  congrArg (·.2.2.2) (destuffScan_sticky esc mid raw true)

/-- A scan that ends without an anomaly began without one. -/
theorem eq_false_of_destuffScan {esc raw bad e : Bool} {mid : List Byte}
    (clear : (destuffScan esc raw bad mid).2 = (e, false, false)) : raw = false ∧ bad = false := by
  rw [destuffScan_sticky] at clear
  simp only [Prod.mk.injEq, Bool.or_eq_false_iff] at clear
  obtain ⟨-, ⟨rawClear, -⟩, badClear, -⟩ := clear
  exact ⟨rawClear, badClear⟩

/-! ### The outer bytes (R152, R153) -/

/-- Settles O52: both kinds of short input, and the interior between any two outer bytes. -/
theorem outerBytesAreSkippedUnchecked : Obligations.OuterBytesAreSkippedUnchecked := by
  refine ⟨fun y short => ?_, fun a b mid => ?_⟩
  · match y, short with
    | [], _ => rfl
    | [_], _ => rfl
  · rw [destuff_outer, destuff_outer]
    exact ⟨rfl, rfl⟩

/-! ### What follows an interior that leaves no escape open (R154 to R156) -/

/-- The interior p of an input without DS_DANGLE, then more: the scan of what follows begins with
esc = 0, the raw and bad of p, and its bytes come after the output of p. -/
theorem destuff_append {a b : Byte} {p : List Byte}
    (closed : (destuff (a :: (p ++ [b]))).2.dangle = false) :
    ∃ o raw bad, destuff (a :: (p ++ [b])) =
        (o, ⟨a != 0x7E#8 || b != 0x7E#8, false, raw, bad⟩) ∧
      ∀ q, destuff (a :: (p ++ q ++ [b])) = (o ++ (destuffScan false raw bad q).1,
        ⟨a != 0x7E#8 || b != 0x7E#8, (destuffScan false raw bad q).2.1,
          (destuffScan false raw bad q).2.2.1, (destuffScan false raw bad q).2.2.2⟩) := by
  rw [destuff_outer] at closed ⊢
  rcases scanned : destuffScan false false false p with ⟨o, e, raw, bad⟩
  rw [scanned] at closed
  obtain rfl : e = false := closed
  refine ⟨o, raw, bad, rfl, fun q => ?_⟩
  rw [destuff_outer, destuffScan_append _ _ _ _ _ _ _ _ _ scanned]
  rfl

/-- Settles O53: the FLAG is scanned with esc = 0. -/
theorem rawFlagIsEmittedUnchanged : Obligations.RawFlagIsEmittedUnchanged := by
  intro a b p q closed
  obtain ⟨o, raw, bad, whole, longer⟩ := destuff_append closed
  rw [longer, whole, destuff_outer, destuffScan_unescaped (by decide), destuffScan_output]
  refine ⟨rfl, ?_⟩
  rw [beq_self_eq_true, Bool.or_true]
  exact destuffScan_raw false bad q

/-- Settles O54: the ESCAPE is scanned with esc = 0, and nothing follows it. -/
theorem danglingEscapeIsDropped : Obligations.DanglingEscapeIsDropped := by
  intro a b p closed
  obtain ⟨o, raw, bad, whole, longer⟩ := destuff_append closed
  rw [longer, whole, destuffScan_escape, destuffScan, List.append_nil]

/-- Settles O55: the ESCAPE is scanned with esc = 0 and the byte c with esc = 1. -/
theorem nonCanonicalEscapeIsUndone : Obligations.NonCanonicalEscapeIsUndone := by
  intro a b c p q closed
  obtain ⟨o, raw, bad, whole, longer⟩ := destuff_append closed
  rw [longer, whole, destuff_outer, destuffScan_escape, destuffScan_escaped, destuffScan_output]
  refine ⟨rfl, fun notFlag notEscape => ?_⟩
  rw [bne_iff_ne.mpr notFlag, bne_iff_ne.mpr notEscape, Bool.and_self, Bool.or_true]
  exact destuffScan_bad false raw q

/-! ### The two functions invert each other (R157, R158) -/

/-- The scan undoes each escape and sets no flag. -/
theorem destuffScan_stuffBody (p : List Byte) :
    destuffScan false false false (stuffBody p) = (p, false, false, false) := by
  induction p using payload_induction with
  | nil => rfl
  | flag bs ih =>
    rw [stuffBody_flag, destuffScan_escape, destuffScan_escaped]
    exact congrArg (fun r => (0x7E#8 :: r.1, r.2)) ih
  | escape bs ih =>
    rw [stuffBody_escape, destuffScan_escape, destuffScan_escaped]
    exact congrArg (fun r => (0x7D#8 :: r.1, r.2)) ih
  | plain b bs notFlag notEscape ih =>
    rw [stuffBody_plain notFlag notEscape, destuffScan_unescaped notEscape,
      beq_eq_false_iff_ne.mpr notFlag, Bool.or_false, ih]

theorem destuff_stuff (p : List Byte) :
    destuff (stuff p) = (p, ⟨false, false, false, false⟩) := by
  rw [stuff, destuff_outer, destuffScan_stuffBody]
  rfl

/-- Settles O56. -/
theorem destuffInvertsStuff : Obligations.DestuffInvertsStuff := destuff_stuff

/-- An interior scanned without an anomaly is its output stuffed; one that the scan enters with
esc = 1 lacks the ESCAPE before it. -/
theorem stuffBody_of_destuffScan (esc : Bool) (mid : List Byte) : ∀ o,
    destuffScan esc false false mid = (o, false, false, false) →
      stuffBody o = if esc then 0x7D#8 :: mid else mid := by
  induction esc, mid using interior_induction with
  | nil esc =>
    intro o scanned
    cases scanned
    rfl
  | escaped b bs ih =>
    intro o scanned
    rw [destuffScan_escaped] at scanned
    obtain ⟨rfl, flags⟩ := Prod.mk.inj scanned
    obtain ⟨-, canonical⟩ := eq_false_of_destuffScan flags
    rw [canonical] at flags ⊢
    have rest := ih _ (Prod.ext rfl flags)
    have known : b = 0x5E#8 ∨ b = 0x5D#8 := by simpa [or_iff_not_imp_left] using canonical
    rcases known with rfl | rfl
    · exact congrArg (0x7D#8 :: 0x5E#8 :: ·) rest
    · exact congrArg (0x7D#8 :: 0x5D#8 :: ·) rest
  | escape bs ih => exact ih
  | unescaped b bs notEscape ih =>
    intro o scanned
    rw [destuffScan_unescaped notEscape] at scanned
    obtain ⟨rfl, flags⟩ := Prod.mk.inj scanned
    obtain ⟨notFlag, -⟩ := eq_false_of_destuffScan flags
    rw [notFlag] at flags ⊢
    have rest := ih _ (Prod.ext rfl flags)
    rw [stuffBody_plain (beq_eq_false_iff_ne.mp notFlag) notEscape]
    exact congrArg (b :: ·) rest

/-- Without DS_FRAME the input is an interior between two FLAGs. -/
theorem exists_interior_of_frame {y : List Byte} (framed : (destuff y).2.frame = false) :
    ∃ mid, y = 0x7E#8 :: (mid ++ [0x7E#8]) := by
  match y with
  | [] => cases framed
  | [_] => cases framed
  | a :: b :: bs =>
    obtain ⟨mid, z, split⟩ := (List.eq_nil_or_concat (b :: bs)).resolve_left nofun
    rw [List.concat_eq_append] at split
    rw [split, destuff_outer] at framed
    obtain ⟨first, last⟩ := Bool.or_eq_false_iff.mp framed
    exact ⟨mid, by rw [split, bne_eq_false_iff_eq.mp first, bne_eq_false_iff_eq.mp last]; rfl⟩

/-- R158: what is canonical is stuff's output of what destuff made of it. -/
theorem stuff_destuff {y : List Byte} (canonical : (destuff y).2 = ⟨false, false, false, false⟩) :
    stuff (destuff y).1 = y := by
  obtain ⟨mid, rfl⟩ := exists_interior_of_frame (congrArg DsFlags.frame canonical)
  rw [destuff_outer] at canonical ⊢
  rcases scanned : destuffScan false false false mid with ⟨o, e, raw, bad⟩
  rw [scanned] at canonical
  cases canonical
  have body : stuffBody o = mid := stuffBody_of_destuffScan _ _ _ scanned
  rw [stuff, body]
  rfl

/-- Settles O57: the output of stuff is canonical by R157. -/
theorem stuffInvertsDestuffExactlyOnCanonicalFrames :
    Obligations.StuffInvertsDestuffExactlyOnCanonicalFrames := by
  refine fun y => ⟨fun restored => ?_, stuff_destuff⟩
  rw [← restored, destuff_stuff]

end Sys2Proof.Machine
end

