-- ==== Sys2Proof/Proofs/StufferCommands.lean ====
section
/-! STUFF and DESTUFF on the machine (41_stuff.md R160, R161, R162): acceptance, the output that a
completion leaves in OBUF and OLEN, and the round trip through both commands. -/

namespace Sys2Proof.Machine

/-! ### Acceptance -/

/-- While idle, a command whose input fits IBUF is accepted, whatever the input holds
(42_bus_and_command.md R180). -/
theorem cmdWrite_of_fits {op : Byte} {c : Command} {s : State} (idle : s.busy = false)
    (starts : commandOf op = some c) (fits : s.ilen.toNat ≤ s.ibufBytes) :
    cmdWrite op s = s.accept c := by
  simp [cmdWrite_of_idle op idle, command, starts, (tooLong_eq_false_iff s).mpr fits]

theorem exec_stuff_of_fits {s : State} (idle : s.busy = false)
    (fits : s.ilen.toNat ≤ s.ibufBytes) : exec .stuff s = .next (s.accept .stuff) :=
  congrArg _ (cmdWrite_of_fits idle rfl fits)

theorem exec_destuff_of_fits {s : State} (idle : s.busy = false)
    (fits : s.ilen.toNat ≤ s.ibufBytes) : exec .destuff s = .next (s.accept .destuff) :=
  congrArg _ (cmdWrite_of_fits idle rfl fits)

/-! ### The operand -/

theorem bytesOperand_eq_payload (s : State) : s.bytesOperand = s.payload := by
  simp [State.bytesOperand, State.readIbuf, State.lengthOperand, State.payload]

@[simp] theorem length_payload (s : State) : s.payload.length = s.ilen.toNat := by
  simp [State.payload]

theorem payload_getElem? {s : State} {k : Nat} (inside : k < s.ilen.toNat) :
    s.payload[k]? = some (s.ibufByte k) := by
  simp [State.payload, inside]

/-- The payload is the list of bytes that IBUF[0..ILEN) reads as. -/
theorem payload_eq_of_getElem? {s : State} {o : List Byte} (length : s.ilen.toNat = o.length)
    (bytes : ∀ k, k < s.ilen.toNat → o[k]? = some (s.ibufByte k)) : s.payload = o := by
  refine List.ext_getElem? fun k => ?_
  rcases Nat.lt_or_ge k s.ilen.toNat with inside | beyond
  · rw [payload_getElem? inside, bytes k inside]
  · rw [List.getElem?_eq_none (by simpa using beyond), List.getElem?_eq_none (length ▸ beyond)]

/-! ### The output of a completion -/

/-- The completion that leads from s to t put the output o into OBUF from byte 0 on and its length
into OLEN, and left every later byte of OBUF as it was (R160, R161). -/
def State.OutputFrom (s : State) (o : List Byte) (t : State) : Prop :=
  t.olen.toNat = o.length ∧
  (∀ k, k < t.olen.toNat → o[k]? = some (t.obufByte k)) ∧
  (∀ k, t.olen.toNat ≤ k → t.obufByte k = s.obufByte k)

/-- An output whose length fits OLEN's 16 bits is put there whole. -/
theorem putOutput_outputFrom (s : State) {o : List Byte} (small : o.length < 2 ^ 16) :
    s.OutputFrom o (s.putOutput o) := by
  have olen : (s.putOutput o).olen.toNat = o.length := by
    rw [putOutput_olen, BitVec.toNat_ofNat, Nat.mod_eq_of_lt small]
  refine ⟨olen, fun k inside => ?_, fun k beyond => ?_⟩
  · rw [olen] at inside
    rw [putOutput_obufByte, List.getElem?_eq_getElem inside, Option.getD_some]
  · rw [olen] at beyond
    rw [putOutput_obufByte, List.getElem?_eq_none beyond, Option.getD_none]

/-- STUFF's completion, for an input that was accepted (R10, R160). -/
theorem complete_stuff_outputFrom {s : State} (legal : Config.legalIbufBytes s.ibufBytes = true)
    (fits : s.ilen.toNat ≤ s.ibufBytes) :
    s.OutputFrom (stuff s.payload) (complete .stuff s) := by
  obtain ⟨-, -, most⟩ := (legalIbufBytes_iff _).mp legal
  have short := length_stuff_le s.payload
  rw [length_payload] at short
  rw [complete_stuff, bytesOperand_eq_payload]
  exact putOutput_outputFrom s (by omega)

/-- DESTUFF's completion, for an input that was accepted (R10, R161). -/
theorem complete_destuff_outputFrom {s : State} (legal : Config.legalIbufBytes s.ibufBytes = true)
    (fits : s.ilen.toNat ≤ s.ibufBytes) :
    s.OutputFrom (destuff s.payload).1 (complete .destuff s) := by
  obtain ⟨-, -, most⟩ := (legalIbufBytes_iff _).mp legal
  have short := length_destuff_le s.payload
  rw [length_payload] at short
  rw [complete_destuff, bytesOperand_eq_payload]
  exact putOutput_outputFrom s (by omega)

/-! ### Each command alone -/

/-- Settles O38: acceptance, the completion's output and frame, and the two errors. -/
theorem stuffFillsTheOutputBuffer : Obligations.StuffFillsTheOutputBuffer := by
  refine ⟨fun s rest legal idle fits => ⟨exec_stuff_of_fits idle fits, ?_⟩,
    fun s idle long => (exec_of_tooLong idle long).1,
    fun s busy => congrArg _ (cmdWrite_of_busy _ busy), rfl⟩
  exact ⟨complete .stuff ((s.accept .stuff).withInputs rest), step_of_block_pending rfl rfl, rfl,
    complete_stuff_outputFrom (s := (s.accept .stuff).withInputs rest) legal fits⟩

/-- Settles O39: acceptance, the completion's output, flags and frame, and the two errors. -/
theorem destuffFillsTheOutputBuffer : Obligations.DestuffFillsTheOutputBuffer := by
  refine ⟨fun s rest legal idle fits => ⟨exec_destuff_of_fits idle fits, ?_⟩,
    fun s idle long => (exec_of_tooLong idle long).2,
    fun s busy => congrArg _ (cmdWrite_of_busy _ busy), rfl⟩
  refine ⟨complete .destuff ((s.accept .destuff).withInputs rest),
    step_of_block_pending rfl rfl, ?_,
    complete_destuff_outputFrom (s := (s.accept .destuff).withInputs rest) legal fits⟩
  rw [complete_destuff, bytesOperand_eq_payload]
  rfl

/-! ### The round trip (R162) -/

/-- DESTUFF's completion over a stuffed payload p (R157): p and all four flags 0. -/
theorem complete_destuff_of_stuffed {s : State} {p : List Byte}
    (legal : Config.legalIbufBytes s.ibufBytes = true) (fits : s.ilen.toNat ≤ s.ibufBytes)
    (stuffed : s.payload = stuff p) :
    s.OutputFrom p (complete .destuff s) ∧
      (complete .destuff s).dsFrame = false ∧ (complete .destuff s).dsDangle = false ∧
      (complete .destuff s).dsRawflag = false ∧ (complete .destuff s).dsBadesc = false := by
  have output := complete_destuff_outputFrom legal fits
  rw [stuffed, destuff_stuff] at output
  refine ⟨output, ?_⟩
  rw [complete_destuff, bytesOperand_eq_payload, stuffed, destuff_stuff]
  exact ⟨rfl, rfl, rfl, rfl⟩

/-- A CMD write of DESTUFF over a stuffed payload p, then the Block's turn. -/
theorem run_destuff_of_stuffed {u : State} {p : List Byte} {rest : List Input}
    (legal : Config.legalIbufBytes u.ibufBytes = true) (idle : u.busy = false)
    (fits : u.ilen.toNat ≤ u.ibufBytes) (stuffed : u.payload = stuff p) :
    ∃ w, Sys2Proof.core.run 2 { u with inputs := .host (encodeBus .destuff) :: .block :: rest } =
        .next w ∧ u.OutputFrom p w ∧
      w.dsFrame = false ∧ w.dsDangle = false ∧ w.dsRawflag = false ∧ w.dsBadesc = false := by
  obtain ⟨w, rfl, ran⟩ :=
    run_accepted_command (s := u.withInputs (.host (encodeBus .destuff) :: .block :: rest)) rfl rfl
      (exec_destuff_of_fits idle fits) 0
  exact ⟨_, ran,
    complete_destuff_of_stuffed (s := (u.accept .destuff).withInputs rest) legal fits stuffed⟩

/-- Settles O59: what STUFF leaves in OBUF is the second state's payload, and R157 undoes it. -/
theorem stuffThenDestuffRestoresThePayload : Obligations.StuffThenDestuffRestoresThePayload := by
  intro s t u rest rest' pending next legal fits stepped idle sameSize copiedLength
  rw [step_of_block_pending next pending] at stepped
  cases stepped
  obtain ⟨olen, written, -⟩ :=
    complete_stuff_outputFrom (s := s.withInputs rest) legal fits
  rw [← copiedLength] at olen written
  refine ⟨fun room copied => ?_, fun long => (exec_of_tooLong idle (olen ▸ long)).2⟩
  have stuffed : u.payload = stuff s.payload :=
    payload_eq_of_getElem? olen fun k inside =>
      (written k inside).trans (congrArg some (copied k inside).symm)
  obtain ⟨w, ran, ⟨length, restored, -⟩, flags⟩ :=
    run_destuff_of_stuffed (rest := rest') (sameSize ▸ legal) idle room stuffed
  rw [length_payload] at length
  refine ⟨w, ran, BitVec.eq_of_toNat_eq length, fun k inside => ?_, flags⟩
  have byte := restored k (length ▸ inside)
  rw [payload_getElem? inside] at byte
  exact (Option.some.inj byte).symm

end Sys2Proof.Machine
end

