-- ==== Sys2Proof/Proofs/BusWrites.lean ====
section
/-! What a bus write does at each kind of place: the instruction it decodes to, the busy guard, the
places that keep their value, and the two opcodes that start nothing (42_bus_and_command.md R171 to
R174, R181, R182). -/

namespace Sys2Proof.Machine

/-! ### The instruction a transaction decodes to (42_bus_and_command.md R171) -/

/-- Settles O7, from the two kinds of transaction. -/
theorem decodedTransactionIsTheBusTransaction :
    Obligations.DecodedTransactionIsTheBusTransaction :=
  fun s a v => ⟨exec_decodeBus_busWriteWord a v s, exec_decodeBus_busReadWord a s⟩

/-! ### The busy guard (42_bus_and_command.md R172) -/

/-- Outside the guarded locations a write does not look at BUSY and leaves it alone. -/
theorem writeLoc_busy_of_not_guarded {l : Loc} (unguarded : guarded l = false) (v : Word)
    (s : State) (b : Bool) :
    ({ s with busy := b } : State).writeLoc v l = { s.writeLoc v l with busy := b } := by
  cases l with
  | cmd | frame0 | frame1 | frame2 | frame3 | crcExpect | ilen | ibuf w => cases unguarded
  | _ => rfl

theorem exec_busWrite_of_not_guarded {a : Addr} (unguarded : guarded (locate a) = false) (v : Word)
    (s : State) : exec (.busWrite a v) s = .next (s.writeLoc v (locate a)) :=
  exec_busWrite_of_open v rfl (by rw [unguarded, Bool.and_false])

/-- Settles O22: the guarded locations are those of R172's list, and a write of any other does not
depend on BUSY. -/
theorem busyGuardRejectsGuardedWrites : Obligations.BusyGuardRejectsGuardedWrites := by
  intro s a v busy
  refine ⟨fun listed => exec_busWrite_of_busy v rfl busy ((guarded_iff a).mpr listed),
    fun notListed => ?_⟩
  have unguarded := Bool.eq_false_iff.mpr (mt (guarded_iff a).mp notListed)
  have isBusy : ({ s with busy := true } : State) = s := by rw [← busy]
  have written := writeLoc_busy_of_not_guarded unguarded v s true
  rw [isBusy] at written
  refine ⟨_, exec_busWrite_of_not_guarded unguarded v _, ?_⟩
  rw [writeLoc_busy_of_not_guarded unguarded, exec_busWrite_of_not_guarded unguarded]
  exact congrArg _ written

/-! ### Places that keep their value (42_bus_and_command.md R174) -/

/-- The locations no write reaches. -/
def readOnly : Loc → Bool
  | .id | .crcResult | .olen | .param | .obuf _ | .reserved => true
  | .ctrl | .cmd | .status | .frame0 | .frame1 | .frame2 | .frame3 | .crcExpect | .ilen
  | .ibuf _ => false

theorem writeLoc_of_readOnly {l : Loc} (fixed : readOnly l = true) (v : Word) (s : State) :
    guarded l = false ∧ s.writeLoc v l = s := by
  cases l with
  | id | crcResult | olen | param | obuf w | reserved => exact ⟨rfl, rfl⟩
  | _ => cases fixed

theorem exec_busWrite_of_readOnly {a : Addr} (fixed : readOnly (locate a) = true) (v : Word)
    (s : State) : exec (.busWrite a v) s = .next s := by
  obtain ⟨unguarded, unchanged⟩ := writeLoc_of_readOnly fixed v s
  rw [exec_busWrite_of_not_guarded unguarded, unchanged]

/-- The offsets of R174's list are read-only. -/
theorem readOnly_locate {a : Addr}
    (listed : wordOffset a = 0x0000 ∨ wordOffset a = 0x0020 ∨ wordOffset a = 0x002C ∨
      (0x0030 ≤ wordOffset a ∧ wordOffset a < 0x4000) ∨ 0x8000 ≤ wordOffset a) :
    readOnly (locate a) = true := by
  have places := locate_cases a
  cases leads : locate a <;>
    simp only [leads, reduceCtorEq, and_false, false_or, or_false, and_true] at places <;>
    simp only [readOnly, Bool.false_eq_true] <;> omega

/-- Two words that a location takes alike make the same bus write, busy or not. -/
theorem exec_busWrite_congr_word {a : Addr} {s : State} {v v' : Word}
    (alike : s.writeLoc v (locate a) = s.writeLoc v' (locate a)) :
    exec (.busWrite a v) s = exec (.busWrite a v') s := by
  simp only [exec, execBusWrite, alike]

/-- CTRL takes bits 1:0 (10_state.md R25). -/
theorem setCtrl_masked (s : State) (v : Word) : s.setCtrl v = s.setCtrl (v &&& 0x00000003#32) := by
  simp [State.setCtrl]

/-- STATUS takes its four write-1-to-clear bits (10_state.md R27). -/
theorem ackStatus_masked (s : State) (v : Word) :
    s.ackStatus v = s.ackStatus (v &&& 0x00000702#32) := by
  simp [State.ackStatus, ErrCause.code]

/-- FRAME3 takes bits 3:0 (10_state.md R30). -/
theorem setFrame3_masked (f : Frame) (v : Word) :
    setFrame3 f v = setFrame3 f (v &&& 0x0000000F#32) := by
  have low : (v &&& 0x0000000F#32).extractLsb' 0 4 = v.extractLsb' 0 4 := by
    rw [BitVec.extractLsb'_and]
    exact BitVec.and_allOnes
  rw [setFrame3, setFrame3, low]

/-- CRC_EXPECT and ILEN take bits 15:0 (10_state.md R33, R34). -/
theorem extractLsb'_half_masked (v : Word) :
    v.extractLsb' 0 16 = (v &&& 0x0000FFFF#32).extractLsb' 0 16 := by
  rw [BitVec.extractLsb'_and]
  exact BitVec.and_allOnes.symm

/-- Settles O32: the read-only locations, the bits each register takes, and the words beyond
IBUF. -/
theorem writesToReadOnlyPlacesChangeNothing : Obligations.WritesToReadOnlyPlacesChangeNothing := by
  intro s a v
  refine ⟨fun listed => exec_busWrite_of_readOnly (readOnly_locate listed) v s,
    fun ctrl => exec_busWrite_congr_word ?_, fun status => exec_busWrite_congr_word ?_,
    fun frame3 => exec_busWrite_congr_word ?_, fun half => exec_busWrite_congr_word ?_,
    fun idle beyond window => ?_⟩
  · rw [locate_ctrl ctrl]
    exact setCtrl_masked s v
  · rw [locate_status status]
    exact ackStatus_masked s v
  · rw [locate_frame3 frame3, State.writeLoc, State.writeLoc, setFrame3_masked]
  · rcases half with expect | ilen
    · rw [locate_crcExpect expect, State.writeLoc, State.writeLoc, extractLsb'_half_masked]
    · rw [locate_ilen ilen, State.writeLoc, State.writeLoc, extractLsb'_half_masked]
  · obtain ⟨-, notStored, -⟩ := ibufWindowIsLittleEndian s a (by omega) window
    exact notStored v idle (by omega)

/-! ### NOP and the reserved opcodes -/

/-- Settles O34: command(0x00) does nothing, and a CMD write while busy is the guard's. -/
theorem nopDoesNothing : Obligations.NopDoesNothing :=
  fun _ => ⟨fun idle => congrArg _ (cmdWrite_of_idle 0x00#8 idle),
    fun busy => congrArg _ (cmdWrite_of_busy 0x00#8 busy)⟩

theorem command_of_not_assigned {op : Byte} (unassigned : assignedOp op = false) (s : State) :
    command op s = s.raise .illegal := by
  have notNop : op ≠ 0x00#8 := ((assignedOp_eq_false_iff op).mp unassigned).1
  rw [command, (commandOf_none_iff op).mpr (.inr unassigned)]
  exact if_neg notNop

/-- Settles O35: no opcode outside R91's table starts a command; the rule's example by
evaluation. -/
theorem reservedOpcodeRaisesErrIllegal : Obligations.ReservedOpcodeRaisesErrIllegal := by
  refine ⟨fun s op idle wf => ?_, _, _, rfl, rfl, rfl⟩
  have unassigned : assignedOp op = false := by simpa [Instr.wf] using wf
  exact congrArg _ ((cmdWrite_of_idle op idle).trans (command_of_not_assigned unassigned s))

end Sys2Proof.Machine
end

