-- ==== Sys2Proof/Proofs/BusReads.lean ====
section
/-! What a bus read returns at every address, while idle and while busy, and which reads are
unspecified (42_bus_and_command.md R170, R173). -/

namespace Sys2Proof.Machine

/-! ### The OBUF window (20_memory.md R65) -/

/-- The word an address leads to begins at the address's own word offset. -/
theorem obuf_word_offset {a : Addr} (window : 0x8000 ≤ wordOffset a) :
    4 * ((wordOffset a - 0x8000) / 4) = wordOffset a - 0x8000 := by
  have := wordOffset_mod a
  omega

theorem readLoc_obuf_of_idle {s : State} {a : Addr} (idle : s.busy = false)
    (window : 0x8000 ≤ wordOffset a) :
    (wordOffset a - 0x8000 < s.obufBytes → ∀ j < 4,
      (s.readLoc (locate a)).extractLsb' (8 * j) 8 = s.obufByte (wordOffset a - 0x8000 + j)) ∧
    (s.obufBytes ≤ wordOffset a - 0x8000 → s.readLoc (locate a) = 0#32) := by
  have offset := obuf_word_offset window
  rw [locate_obuf window]
  generalize wordOffset a - 0x8000 = p at offset ⊢
  refine ⟨fun inside j hj => ?_, fun beyond => if_neg (by omega)⟩
  rw [State.readLoc, if_pos (by omega), if_neg (by simp [idle])]
  exact obufWord_byte s (by omega) hj

/-! ### While BUSY = 0 -/

/-- An idle block specifies every read. -/
theorem readDraws_of_idle {s : State} (idle : s.busy = false) (l : Loc) :
    s.readDraws l = false := by
  cases l <;> simp [State.readDraws, idle]

theorem unlessBusy_of_idle {s : State} (idle : s.busy = false) (i : Nat) (b : Bool) :
    s.unlessBusy i b = b := if_neg (by simp [idle])

theorem readLoc_crcResult_of_idle {s : State} (idle : s.busy = false) :
    s.readLoc .crcResult = s.crcResult.setWidth 32 := if_neg (by simp [idle])

theorem readLoc_olen_of_idle {s : State} (idle : s.busy = false) :
    s.readLoc .olen = s.olen.setWidth 32 := if_neg (by simp [idle])

/-- STATUS of an idle block: BUSY reads 0 and no bit is a draw (10_state.md R27). -/
theorem statusWord_getLsbD_of_idle {s : State} (idle : s.busy = false) {i : Nat} (hi : i < 32) :
    s.statusWord.getLsbD i =
      if i = 1 then s.done else if i = 2 then s.matched else if i = 8 then s.errIllegal
      else if i = 9 then s.errLen else if i = 10 then s.errBusy else if i = 16 then s.dsFrame
      else if i = 17 then s.dsDangle else if i = 18 then s.dsRawflag
      else if i = 19 then s.dsBadesc else false := by
  rw [statusWord_getLsbD s hi]
  simp only [unlessBusy_of_idle idle, idle]
  by_cases busyBit : i = 0
  · subst busyBit
    rfl
  · exact if_neg busyBit

/-- Settles O19, location by location. -/
theorem idleReadReturnsTheLocation : Obligations.IdleReadReturnsTheLocation := by
  intro s a idle
  refine ⟨_, exec_busRead_of_locate rfl (readDraws_of_idle idle _), rfl, fun id => ?id,
    fun param legal => ?param, fun ctrl i hi => ?ctrl, fun cmd => ?cmd, fun status i hi => ?status,
    fun k hk frame i hi => ?frame, fun crcResult => ?crcResult, fun expect => ?expect,
    fun ilen => ?ilen, fun olen => ?olen, fun low high => ?reserved, fun low high => ?ibuf,
    readLoc_obuf_of_idle idle⟩
  case id => rw [locate_id id]; rfl
  case param => rw [locate_param param]; exact readLoc_param_halves legal
  case ctrl => rw [locate_ctrl ctrl]; exact ctrlWord_getLsbD s hi
  case cmd => rw [locate_cmd cmd]; rfl
  case status => rw [locate_status status]; exact statusWord_getLsbD_of_idle idle hi
  case frame => rw [locate_frame hk frame]; exact readLoc_frameLoc_getLsbD s hk hi
  case crcResult => rw [locate_crcResult crcResult]; exact readLoc_crcResult_of_idle idle
  case expect => rw [locate_crcExpect expect]; rfl
  case ilen => rw [locate_ilen ilen]; rfl
  case olen => rw [locate_olen olen]; exact readLoc_olen_of_idle idle
  case reserved => rw [locate_reserved low high]; rfl
  case ibuf =>
    obtain ⟨-, -, -, t, ran, -, inside, beyond⟩ := ibufWindowIsLittleEndian s a low high
    cases (exec_busRead_of_locate rfl (readDraws_of_idle idle _)).symm.trans ran
    exact ⟨inside, beyond⟩

/-! ### While BUSY = 1 (42_bus_and_command.md R173) -/

/-- The reads of R173's list, by offset. -/
theorem readDraws_iff {s : State} (busy : s.busy = true) (a : Addr) :
    s.readDraws (locate a) = true ↔
      wordOffset a = 0x000C ∨ wordOffset a = 0x0020 ∨ wordOffset a = 0x002C ∨
        (0x8000 ≤ wordOffset a ∧ wordOffset a - 0x8000 < s.obufBytes) := by
  have places := locate_cases a
  have aligned := wordOffset_mod a
  cases leads : locate a <;>
    simp only [leads, reduceCtorEq, and_false, false_or, or_false, and_true, Loc.obuf.injEq]
      at places <;>
    simp only [State.readDraws, busy, Bool.true_and, decide_eq_true_iff, Bool.false_eq_true,
      true_iff, false_iff] <;> omega

/-- An unspecified read away from STATUS returns the draw whole. -/
theorem readLoc_of_readDraws {s : State} {l : Loc} (draws : s.readDraws l = true)
    (notStatus : l ≠ .status) : s.readLoc l = s.drawn := by
  cases l with
  | status => exact absurd rfl notStatus
  | crcResult | olen => exact if_pos draws
  | obuf w =>
    obtain ⟨busy, inside⟩ := Bool.and_eq_true_iff.mp draws
    rw [State.readLoc, if_pos (of_decide_eq_true inside), if_pos busy]
  | _ => cases draws

/-- STATUS of a busy block: the draw in bits 2 and 19:16, the others exact. -/
theorem statusWord_getLsbD_of_busy {s : State} (busy : s.busy = true) {i : Nat} (hi : i < 32) :
    s.statusWord.getLsbD i =
      if i = 0 then true else if i = 1 then s.done else if i = 8 then s.errIllegal
      else if i = 9 then s.errLen else if i = 10 then s.errBusy
      else if i = 2 ∨ i = 16 ∨ i = 17 ∨ i = 18 ∨ i = 19 then (Config.busyRead s.draws).getLsbD i
      else false := by
  have draw (j : Nat) (b : Bool) : s.unlessBusy j b = (Config.busyRead s.draws).getLsbD j :=
    if_pos busy
  rw [statusWord_getLsbD s hi]
  simp only [draw, busy]
  by_cases drawn : i = 2 ∨ i = 16 ∨ i = 17 ∨ i = 18 ∨ i = 19
  · rcases drawn with rfl | rfl | rfl | rfl | rfl <;> rfl
  · obtain ⟨n2, n16, n17, n18, n19⟩ : i ≠ 2 ∧ i ≠ 16 ∧ i ≠ 17 ∧ i ≠ 18 ∧ i ≠ 19 := by
      simpa only [not_or] using drawn
    simp only [n2, n16, n17, n18, n19, or_self, if_false]

/-- A specified read returns what it returns on an idle block. -/
theorem readLoc_idle_of_not_readDraws {s : State} {l : Loc} (busy : s.busy = true)
    (specified : s.readDraws l = false) :
    ({ s with busy := false } : State).readLoc l = s.readLoc l := by
  cases l with
  | status | crcResult | olen => exact absurd (busy.symm.trans specified) nofun
  | obuf w =>
    have beyond : ¬ 4 * w < s.obufBytes := by simpa [State.readDraws, busy] using specified
    exact (if_neg beyond).trans (if_neg beyond).symm
  | _ => rfl

theorem exec_busRead_of_readDraws {a : Addr} {s : State} (draws : s.readDraws (locate a) = true) :
    exec (.busRead a) s =
      .next { s with rdata := s.readLoc (locate a), draws := s.draws + 1 } := by
  simp [exec, execBusRead, draws]

/-- Settles O20: R173's list decides whether a read draws; what each kind returns is a lemma
above. -/
theorem busyReadDrawsOnlyWhatIsUnspecified : Obligations.BusyReadDrawsOnlyWhatIsUnspecified := by
  intro s a busy
  have listed := readDraws_iff busy a
  cases draws : s.readDraws (locate a) with
  | true =>
    refine ⟨_, exec_busRead_of_readDraws draws, rfl, fun whole => ⟨?_, rfl⟩,
      fun status => ⟨rfl, fun i hi => ?_⟩, fun notCrc notOlen notStatus outside => ?_⟩
    · refine readLoc_of_readDraws draws (mt (locate_status_iff a).mp ?_)
      omega
    · rw [locate_status status]
      exact statusWord_getLsbD_of_busy busy hi
    · exact absurd (listed.mp draws) (by omega)
  | false =>
    have specified := mt listed.mpr (Bool.eq_false_iff.mp draws)
    refine ⟨_, exec_busRead_of_locate rfl draws, rfl, fun whole => ?_, fun status => ?_,
      fun _ _ _ _ => ⟨rfl, ?_⟩⟩
    · exact absurd whole (by omega)
    · exact absurd status (by omega)
    · rw [exec_busRead_of_locate rfl (readDraws_of_idle rfl _),
        readLoc_idle_of_not_readDraws busy draws]

end Sys2Proof.Machine
end

