-- ==== Sys2Proof/Proofs/CompletionComes.lean ====
section
/-! Completion: what it touches (42_bus_and_command.md R187), that it always comes, and that a host
that polls at a WAIT goes on (42_bus_and_command.md R186; 30_encoding.md R100). -/

namespace Sys2Proof.Machine

/-! ### What a completion touches (42_bus_and_command.md R187) -/

/-- A completion neither looks at CTRL nor writes it. -/
theorem complete_ctrl (c : Command) (s : State) (x y : Bool) :
    complete c { s with ieDone := x, ieErr := y } =
      { complete c s with ieDone := x, ieErr := y } := by
  cases c <;> rfl

/-- No transaction ends a pending command. -/
theorem HostEffect.pending_of_busy {s t : State} (effect : HostEffect s t) (busy : s.busy = true) :
    t.pending = s.pending := (effect.keepsCommand busy).pending

/-- A step that ends the pending command is the Block's or a reset. -/
theorem mover_of_step_ends {s t : State} {c : Command} (busy : s.busy = true)
    (pending : s.pending = some c) (stepped : step s = .next t) (ended : t.pending ≠ some c) :
    s.inputs = [] ∨ (∃ rest, s.inputs = .block :: rest) ∨ ∃ rest, s.inputs = .reset :: rest := by
  cases step_effect stepped with
  | host _ _ effect => exact absurd ((effect.pending_of_busy busy).trans pending) ended
  | idle notPending _ => exact absurd (notPending.symm.trans pending) nofun
  | complete _ mover => exact mover.imp_right fun next => .inl ⟨_, next⟩
  | reset next => exact .inr (.inr ⟨_, next⟩)

/-- Settles O40: the Block's turn is the completion, and each of its frames is a lemma. -/
theorem completionTouchesResultsOnly : Obligations.CompletionTouchesResultsOnly := by
  refine ⟨fun s c rest x y pending => ?_, fun s t c => mover_of_step_ends⟩
  obtain ⟨ended, -, -⟩ := complete_finished c (s.withInputs rest)
  refine ⟨_, step_of_block_pending rfl pending, ended, complete_sameControl c (s.withInputs rest),
    complete_sameOperands c (s.withInputs rest), Eq.trans ?_ (congrArg _
      (complete_ctrl c (s.withInputs rest) x y))⟩
  exact step_of_block_pending rfl pending

/-! ### Finite schedules (log 3) -/

/-- With one host every step answers, and one host is left. -/
theorem step_of_soleHost {s : State} (sole : soleHost s.inputs = true) :
    ∃ t, step s = .next t ∧ soleHost t.inputs = true := by
  have notOther : ∀ w rest, s.inputs ≠ .otherHost w :: rest := by
    rintro w rest next
    rw [next] at sole
    cases sole
  obtain ⟨-, answers, -⟩ := onlyASecondHostIsRefused
  obtain ⟨t, stepped⟩ := answers s notOther
  refine ⟨t, stepped, ?_⟩
  rw [step_inputs stepped]
  match h : s.inputs with
  | [] => rfl
  | .host _ :: _ | .block :: _ | .reset :: _ => rw [h] at sole; exact sole
  | .otherHost w :: rest => exact absurd h (notOther w rest)

/-- The schedule runs dry, and then the Block has its turn. -/
theorem run_soleHost_dry {n : Nat} {s : State} (sole : soleHost s.inputs = true)
    (length : s.inputs.length = n) :
    ∃ t, Sys2Proof.core.run (n + 1) s = .next t ∧ t.inputs = [] ∧ t.pending = none := by
  induction n generalizing s with
  | zero =>
    have dry := List.length_eq_zero_iff.mp length
    exact ⟨_, run_succ_of_step (step_of_nil dry), (blockTurn_inputs s).trans dry,
      blockTurn_pending s⟩
  | succ n ih =>
    obtain ⟨u, stepped, sole'⟩ := step_of_soleHost sole
    have shorter : u.inputs.length = n := by
      rw [step_inputs stepped, List.length_tail, length, Nat.add_sub_cancel]
    obtain ⟨t, ran, ended⟩ := ih sole' shorter
    exact ⟨t, (run_succ_of_step stepped).trans ran, ended⟩

/-! ### Fair runs that never end -/

/-- Under R186's weak fairness, again and again no command is pending. -/
theorem exists_systemAt_pending_none {g : Nat → Agent} {y : System} (fair : blockFair g y)
    (n : Nat) :
    ∃ m z, n ≤ m ∧ systemAt g y m = .next z ∧ z.block.pending = none := by
  obtain ⟨m, later, taken | notEnabled⟩ := fair n <;> obtain ⟨z, now⟩ := systemAt_next g y m
  · refine ⟨m + 1, ⟨z.host, blockTurn z.block⟩, by omega, ?_, blockTurn_pending z.block⟩
    rw [systemAt_succ now, taken, systemStep_block]
  · exact ⟨m, z, later, now, notEnabled z now⟩

/-- After a turn of another agent than the host no command is pending, and the host stands where it
stood. -/
theorem systemStep_of_ne_host {g : Agent} (other : g ≠ .host) (y : System) :
    ∃ s, systemStep g y = .next ⟨y.host, s⟩ ∧ s.pending = none ∧
      (y.block.busy = y.block.pending.isSome → s.busy = false) := by
  cases g with
  | host => exact absurd rfl other
  | platform => exact ⟨_, systemStep_platform y, rfl, fun _ => rfl⟩
  | block =>
    refine ⟨_, systemStep_block y, blockTurn_pending y.block, fun agree => ?_⟩
    rcases blockTurn_cases y.block with ⟨ended, e⟩ | ⟨c, -, e⟩ <;> rw [e]
    · rw [agree, ended, Option.isSome_none]
    · obtain ⟨-, idle, -⟩ := complete_finished c y.block
      exact idle

/-! ### The host's turns at a WAIT (30_encoding.md R100) -/

/-- The program has the three lines of WAIT from line k on, and its label names line k. -/
structure WaitAt (p : List HostLine) (k l x : Nat) : Prop where
  label : p[k]? = some (.label l)
  rd : p[k + 1]? = some (.rd 0x000C#16 x)
  bit : p[k + 2]? = some (.bit x 0 l)
  target : labelLine l p 0 = some k

theorem waitAt_of_drop {p after : List HostLine} {k l x : Nat}
    (lines : p.drop k = pseudoWait l x ++ after) (target : labelLine l p 0 = some k) :
    WaitAt p k l x := by
  have line (i : Nat) : p[k + i]? = (pseudoWait l x ++ after)[i]? := by
    rw [← lines, List.getElem?_drop]
  exact ⟨line 0, line 1, line 2, target⟩

/-- The bit of the host's variable that WAIT tests, BUSY as it was last read. -/
def HostProc.sawBusy (h : HostProc) (x : Nat) : Bool := (h.getVar x).getLsbD 0

section Wait

variable {p : List HostLine} {k l x : Nat} (wait : WaitAt p k l x) {z : System}
  (prog : z.host.prog = p)
include wait prog

theorem hostTurn_wait_label (line : z.host.line = k) :
    hostTurn z = .next { z with host := { z.host with line := k + 1 } } := by
  have turn := hostTurn_of_label (y := z) (l := l) (by rw [prog, line]; exact wait.label)
  rw [turn, HostProc.advance, line]

/-- The read shows BUSY as it is and leaves BUSY and the command alone. -/
theorem hostTurn_wait_rd (line : z.host.line = k + 1) :
    ∃ w, hostTurn z = .next w ∧ w.host.prog = p ∧ w.host.line = k + 2 ∧
      w.host.sawBusy x = z.block.busy ∧ w.block.busy = z.block.busy ∧
      w.block.pending = z.block.pending := by
  have turn := hostTurn_of_rd (y := z) (a := 0x000C#16) (x := x)
    (by rw [prog, line]; exact wait.rd)
  obtain ⟨s, ran, driven⟩ :=
    drive_busRead z 0x000C#16 fun s => (z.host.setVar x s.rdata).advance
  obtain ⟨u, ran', shown⟩ := exec_busRead_status_busy z.block
  cases ran.symm.trans ran'
  refine ⟨_, turn.trans driven, prog, congrArg (· + 1) line, ?_, ?_, ?_⟩
  · exact (congrArg (·.getLsbD 0) (getVar_setVar_same z.host x s.rdata)).trans shown
  · cases ran
    rfl
  · cases ran
    rfl

theorem hostTurn_wait_bit (line : z.host.line = k + 2) :
    hostTurn z = .next { z with
      host := { z.host with line := if z.host.sawBusy x then k else k + 3 } } := by
  have turn := hostTurn_of_bit (y := z) (x := x) (n := 0) (l := l)
    (by rw [prog, line]; exact wait.bit)
  rw [turn, branch_eq_of_labelLine x 0 (by rw [prog]; exact wait.target), line]
  rfl

end Wait

/-! ### While the host polls -/

/-- The host is at WAIT's lines; having seen BUSY = 0 it finds no command pending when it
tests it. -/
structure Polling (p : List HostLine) (k x : Nat) (z : System) : Prop where
  prog : z.host.prog = p
  agree : z.block.busy = z.block.pending.isSome
  place : z.host.line = k ∨ z.host.line = k + 1 ∨
    (z.host.line = k + 2 ∧ (z.host.sawBusy x = false → z.block.pending = none))

/-- The host has come to the line after WAIT and the block is idle. -/
structure PastWait (p : List HostLine) (k : Nat) (z : System) : Prop where
  prog : z.host.prog = p
  line : z.host.line = k + 3
  busy : z.block.busy = false
  pending : z.block.pending = none

section Polls

variable {p : List HostLine} {k l x : Nat} (wait : WaitAt p k l x)
include wait

/-- A turn of any agent keeps the host polling or is the one that takes it past WAIT. -/
theorem Polling.systemStep {z : System} (polling : Polling p k x z) (g : Agent) :
    ∃ w, systemStep g z = .next w ∧ (Polling p k x w ∨ PastWait p k w) := by
  obtain ⟨prog, agree, place⟩ := polling
  by_cases host : g = .host
  · subst host
    rcases place with line | line | ⟨line, seen⟩
    · exact ⟨_, hostTurn_wait_label wait prog line, .inl ⟨prog, agree, .inr (.inl rfl)⟩⟩
    · obtain ⟨w, turn, prog', line', saw, busy, pending⟩ := hostTurn_wait_rd wait prog line
      refine ⟨w, turn, .inl ⟨prog', by rw [busy, pending, agree],
        .inr (.inr ⟨line', fun idle => ?_⟩)⟩⟩
      rw [saw, agree, Option.isSome_eq_false_iff, Option.isNone_iff_eq_none] at idle
      exact pending.trans idle
    · refine ⟨_, hostTurn_wait_bit wait prog line, ?_⟩
      cases saw : z.host.sawBusy x with
      | true => exact .inl ⟨prog, agree, .inl rfl⟩
      | false =>
        have ended := seen saw
        exact .inr ⟨prog, rfl, by rw [agree, ended, Option.isSome_none], ended⟩
  · obtain ⟨s, turn, ended, idle⟩ := systemStep_of_ne_host host z
    refine ⟨_, turn, .inl ⟨prog, by rw [idle agree, ended, Option.isSome_none], ?_⟩⟩
    exact place.imp_right (.imp_right fun ⟨line, _⟩ => ⟨line, fun _ => ended⟩)

/-- Up to every turn the host polls, unless it has come past WAIT before. -/
theorem systemAt_polling {y : System} (start : Polling p k x y) (g : Nat → Agent) (n : Nat) :
    (∃ z, systemAt g y n = .next z ∧ Polling p k x z) ∨
      ∃ m z, systemAt g y m = .next z ∧ PastWait p k z := by
  induction n with
  | zero => exact .inl ⟨y, rfl, start⟩
  | succ n ih =>
    refine ih.elim (fun ⟨z, now, polling⟩ => ?_) .inr
    obtain ⟨w, turn, inside | past⟩ := polling.systemStep wait (g n)
    · exact .inl ⟨w, (systemAt_succ now).trans turn, inside⟩
    · exact .inr ⟨n + 1, w, (systemAt_succ now).trans turn, past⟩

end Polls

/-! ### Once the block is idle -/

theorem systemAt_succ_of_host {g : Nat → Agent} {y z w : System} {n : Nat}
    (now : systemAt g y n = .next z) (host : g n = .host) (turn : hostTurn z = .next w) :
    systemAt g y (n + 1) = .next w := by
  rw [systemAt_succ now, host]
  exact turn

/-- Until the host's next turn nothing happens to it, and an idle block stays idle. -/
theorem exists_next_hostTurn {g : Nat → Agent} {y z : System} {n : Nat} (runs : hostRuns g)
    (now : systemAt g y n = .next z) (busy : z.block.busy = false)
    (pending : z.block.pending = none) :
    ∃ m s, g m = .host ∧ systemAt g y m = .next ⟨z.host, s⟩ ∧ s.busy = false ∧
      s.pending = none := by
  obtain ⟨m, later, host⟩ := runs n
  obtain ⟨d, rfl⟩ := Nat.exists_eq_add_of_le later
  induction d generalizing n z with
  | zero => exact ⟨n, z.block, host, now, busy, pending⟩
  | succ d ih =>
    by_cases already : g n = .host
    · exact ⟨n, z.block, already, now, busy, pending⟩
    · obtain ⟨s, turn, ended, idle⟩ := systemStep_of_ne_host already z
      rw [show n + (d + 1) = n + 1 + d by omega] at host
      have next : systemAt g y (n + 1) = .next ⟨z.host, s⟩ := (systemAt_succ now).trans turn
      have agree : z.block.busy = z.block.pending.isSome := by
        rw [busy, pending, Option.isSome_none]
      exact ih (z := ⟨z.host, s⟩) next (idle agree) ended (by omega) host

section Leaves

variable {p : List HostLine} {k l x n : Nat} (wait : WaitAt p k l x) {g : Nat → Agent}
  (runs : hostRuns g) {y z : System} (now : systemAt g y n = .next z) (prog : z.host.prog = p)
  (busy : z.block.busy = false) (pending : z.block.pending = none)
include wait runs now prog busy pending

theorem leaves_wait_of_sawIdle (line : z.host.line = k + 2) (saw : z.host.sawBusy x = false) :
    ∃ m w, systemAt g y m = .next w ∧ PastWait p k w := by
  obtain ⟨m, s, host, reached, idle, ended⟩ := exists_next_hostTurn runs now busy pending
  have turn := hostTurn_wait_bit (z := ⟨z.host, s⟩) wait prog line
  rw [saw] at turn
  exact ⟨m + 1, _, systemAt_succ_of_host reached host turn, ⟨prog, rfl, idle, ended⟩⟩

theorem leaves_wait_of_rd (line : z.host.line = k + 1) :
    ∃ m w, systemAt g y m = .next w ∧ PastWait p k w := by
  obtain ⟨m, s, host, reached, idle, ended⟩ := exists_next_hostTurn runs now busy pending
  obtain ⟨w, turn, prog', line', saw, busy', pending'⟩ :=
    hostTurn_wait_rd (z := ⟨z.host, s⟩) wait prog line
  exact leaves_wait_of_sawIdle wait runs (systemAt_succ_of_host reached host turn) prog'
    (busy'.trans idle) (pending'.trans ended) line' (saw.trans idle)

theorem leaves_wait_of_label (line : z.host.line = k) :
    ∃ m w, systemAt g y m = .next w ∧ PastWait p k w := by
  obtain ⟨m, s, host, reached, idle, ended⟩ := exists_next_hostTurn runs now busy pending
  have turn := hostTurn_wait_label (z := ⟨z.host, s⟩) wait prog line
  exact leaves_wait_of_rd wait runs (systemAt_succ_of_host reached host turn) prog idle ended rfl

/-- The test of a stale BUSY = 1 goes back to the label, once. -/
theorem leaves_wait_of_bit (line : z.host.line = k + 2) :
    ∃ m w, systemAt g y m = .next w ∧ PastWait p k w := by
  cases saw : z.host.sawBusy x with
  | false => exact leaves_wait_of_sawIdle wait runs now prog busy pending line saw
  | true =>
    obtain ⟨m, s, host, reached, idle, ended⟩ := exists_next_hostTurn runs now busy pending
    have turn := hostTurn_wait_bit (z := ⟨z.host, s⟩) wait prog line
    rw [saw] at turn
    exact leaves_wait_of_label wait runs (systemAt_succ_of_host reached host turn) prog idle ended
      rfl

end Leaves

/-- R186 for a host at a WAIT: the command ends while it polls, and then at most four of
its own turns take it on. -/
theorem exists_pastWait {p : List HostLine} {k l x : Nat} {g : Nat → Agent} {y : System}
    (wait : WaitAt p k l x) (fair : blockFair g y) (runs : hostRuns g) (start : Polling p k x y) :
    ∃ n z, systemAt g y n = .next z ∧ PastWait p k z := by
  obtain ⟨n, z, -, now, pending⟩ := exists_systemAt_pending_none fair 0
  refine (systemAt_polling wait start g n).elim (fun ⟨z', now', polling⟩ => ?_) id
  cases now.symm.trans now'
  obtain ⟨prog, agree, line | line | ⟨line, -⟩⟩ := polling <;>
    have idle : z.block.busy = false := by rw [agree, pending, Option.isSome_none]
  · exact leaves_wait_of_label wait runs now prog idle pending line
  · exact leaves_wait_of_rd wait runs now prog idle pending line
  · exact leaves_wait_of_bit wait runs now prog idle pending line

/-- Settles O43: finite schedules by their length, fair runs by fairness itself, and WAIT by the
invariant `Polling` until the block is idle and the host's own turns from there. -/
theorem completionAlwaysComes : Obligations.CompletionAlwaysComes := by
  refine ⟨fun s sole => run_soleHost_dry sole rfl,
    fun g y fair n => exists_systemAt_pending_none fair n,
    fun g y l x after fair runs agree lines target => ?_⟩
  obtain ⟨n, z, now, prog, line, busy, pending⟩ :=
    exists_pastWait (waitAt_of_drop lines target) fair runs ⟨rfl, agree, .inl rfl⟩
  exact ⟨n, z, now, prog, line, busy, pending⟩

end Sys2Proof.Machine
end

/-! The three sticky error bits (60_exceptions.md R200 to R203, R208): which transaction raises
which bit, that it does nothing else, and what clears a bit again. -/

namespace Sys2Proof.Machine

/-! ### The error bits after each operation -/

theorem raise_err (e e' : ErrCause) (s : State) : (s.raise e).err e' = (s.err e' || e == e') := by
  cases e' with
  | illegal => exact raise_errIllegal e s
  | len => exact raise_errLen e s
  | busy => exact raise_errBusy e s

theorem accept_err (c : Command) (e : ErrCause) (s : State) : (s.accept c).err e = s.err e := by
  cases e <;> rfl

theorem ackStatus_err (v : Word) (e : ErrCause) (s : State) :
    (s.ackStatus v).err e = (s.err e && !v.getLsbD e.code) := by
  cases e <;> rfl

theorem complete_err (c : Command) (e : ErrCause) (s : State) :
    (complete c s).err e = s.err e := by
  obtain ⟨-, -, illegal, len, busy⟩ := complete_sameControl c s
  cases e with
  | illegal => exact illegal
  | len => exact len
  | busy => exact busy

/-- Away from CMD and STATUS a write leaves the error bits alone. -/
theorem writeLoc_err {l : Loc} (notCmd : l ≠ .cmd) (notStatus : l ≠ .status) (v : Word)
    (e : ErrCause) (s : State) : (s.writeLoc v l).err e = s.err e := by
  cases l with
  | cmd => exact absurd rfl notCmd
  | status => exact absurd rfl notStatus
  | ibuf w => rw [State.writeLoc, writeIbufWord_eq]; cases e <;> rfl
  | _ => cases e <;> rfl

/-- Away from CMD only ones at STATUS take an error bit down. -/
theorem writeLoc_err_falls {l : Loc} {v : Word} {e : ErrCause} {s : State} (notCmd : l ≠ .cmd)
    (up : s.err e = true) (down : (s.writeLoc v l).err e = false) :
    l = .status ∧ v.getLsbD e.code = true := by
  by_cases status : l = .status
  · subst status
    have acked : (s.err e && !v.getLsbD e.code) = false := (ackStatus_err v e s).symm.trans down
    exact ⟨rfl, by simpa [up] using acked⟩
  · rw [writeLoc_err notCmd status, up] at down
    cases down

/-- Away from CMD no write that the busy guard lets through raises an error. -/
theorem writeLoc_err_of_clear {l : Loc} {v : Word} {e : ErrCause} {s : State} (notCmd : l ≠ .cmd)
    (clear : s.err e = false) : (s.writeLoc v l).err e = false := by
  by_cases status : l = .status
  · rw [status, State.writeLoc, ackStatus_err, clear, Bool.false_and]
  · rw [writeLoc_err notCmd status, clear]

/-- A write to CMD clears no error bit. -/
theorem cmdWrite_err_of_up {e : ErrCause} {s : State} (up : s.err e = true) (op : Byte) :
    (cmdWrite op s).err e = true := by
  rcases cmdWrite_cases op s with same | ⟨cause, raised⟩ | ⟨-, c, accepted⟩
  · rw [same, up]
  · rw [raised, raise_err, up, Bool.true_or]
  · rw [accepted, accept_err, up]

/-! ### What clears an error bit (60_exceptions.md R200) -/

/-- Of the transactions, only a write of a one to the bit in STATUS. -/
theorem exec_err_falls {s t : State} {i : Instr} {e : ErrCause} (ran : exec i s = .next t)
    (up : s.err e = true) (down : t.err e = false) :
    ∃ a v, i = .busWrite a v ∧ wordOffset a = 0x000C ∧ v.getLsbD e.code = true := by
  cases exec_transaction ran with
  | @cmd _ op _ => exact absurd (cmdWrite_err_of_up up op) (by simp [down])
  | read => cases e <;> exact absurd (up.symm.trans down) nofun
  | blocked => exact absurd (raise_err .busy e s) (by simp [up, down])
  | @write a v _ notCmd =>
    obtain ⟨status, one⟩ := writeLoc_err_falls (mt (locate_cmd_iff a).mp notCmd) up down
    exact ⟨a, v, rfl, (locate_status_iff a).mp status, one⟩

theorem step_err_falls {s t : State} {e : ErrCause} (stepped : step s = .next t)
    (up : s.err e = true) (down : t.err e = false) :
    (∃ rest, s.inputs = .reset :: rest) ∨
      ∃ a v rest, s.inputs = .host (busWriteWord a v) :: rest ∧ wordOffset a = 0x000C ∧
        v.getLsbD e.code = true := by
  have up' (rest : List Input) : (s.withInputs rest).err e = true := by cases e <;> exact up
  cases step_effect stepped with
  | @host _ w rest next ran _ =>
    obtain ⟨a, v, decodes, acked⟩ := exec_err_falls ran (up' rest) down
    rw [eq_busWriteWord_of_decodeBus decodes] at next
    exact .inr ⟨a, v, rest, next, acked⟩
  | @idle rest => exact absurd ((up' rest).symm.trans down) nofun
  | @complete c rest =>
    rw [complete_err, up'] at down
    cases down
  | reset next => exact .inl ⟨_, next⟩

/-! ### What raises an error bit (60_exceptions.md R201 to R203) -/

/-- The transactions that raise an error, by the rule that says so. BUSY parts R201 from the other
two, and the opcode parts those, so that a transaction raises at most one (R208). -/
inductive Raises (s : State) (i : Instr) : ErrCause → Prop
  /-- R201: a guarded write while BUSY = 1. -/
  | busy {a : Addr} (busy : s.busy = true) (writes : writeAddr i = some a)
      (guard : guardedAddr a) : Raises s i .busy
  /-- R202: a reserved opcode, while BUSY = 0. -/
  | illegal {op : Byte} (idle : s.busy = false) (writes : writtenOp i = some op)
      (reserved : assignedOp op = false) : Raises s i .illegal
  /-- R203: STUFF or DESTUFF with more input than IBUF holds, while BUSY = 0. -/
  | len {op : Byte} (idle : s.busy = false) (writes : writtenOp i = some op)
      (stuffer : op = 0x10#8 ∨ op = 0x11#8) (long : s.ibufBytes < s.ilen.toNat) : Raises s i .len

/-- A plain write that carries an opcode is a write to CMD (30_encoding.md R90). -/
theorem offset_of_writtenOp {a : Addr} {v : Word} {op : Byte}
    (writes : writtenOp (.busWrite a v) = some op) : wordOffset a = 0x0008 ∧ cmdOp v = op := by
  obtain ⟨toCmd, carries⟩ := Option.ite_none_right_eq_some.mp writes
  exact ⟨(isCmdAddr_iff a).mp toCmd, Option.some.inj carries⟩

/-- A transaction that writes an opcode writes CMD. -/
theorem writeAddr_of_writtenOp {i : Instr} {op : Byte} (writes : writtenOp i = some op) :
    ∃ a, writeAddr i = some a ∧ wordOffset a = 0x0008 := by
  cases i with
  | nop | crcGen | crcVerify | stuff | destuff | reserved op => exact ⟨_, rfl, rfl⟩
  | busRead a => cases writes
  | busWrite a v =>
    obtain ⟨toCmd, -⟩ := offset_of_writtenOp writes
    exact ⟨a, rfl, toCmd⟩

/-- A transaction that writes an opcode is that opcode's write to CMD. -/
theorem exec_of_writtenOp {i : Instr} {op : Byte} (writes : writtenOp i = some op) (s : State) :
    exec i s = .next (cmdWrite op s) := by
  cases i with
  | nop | crcGen | crcVerify | stuff | destuff | reserved op => cases writes; rfl
  | busRead a => cases writes
  | busWrite a v =>
    obtain ⟨toCmd, rfl⟩ := offset_of_writtenOp writes
    exact exec_busWrite_cmd v s toCmd

/-- A guarded write while busy, a command's or a plain one. -/
theorem exec_of_guarded {s : State} {i : Instr} {a : Addr} (busy : s.busy = true)
    (writes : writeAddr i = some a) (guard : guardedAddr a) :
    exec i s = .next (s.raise .busy) := by
  cases i with
  | nop | crcGen | crcVerify | stuff | destuff | reserved op =>
    exact congrArg _ (cmdWrite_of_busy _ busy)
  | busRead a => cases writes
  | busWrite a v =>
    cases writes
    exact exec_busWrite_of_busy v rfl busy ((guarded_iff a).mpr guard)

/-- STUFF and DESTUFF are the commands that read IBUF. -/
theorem exists_usesIbuf_iff (op : Byte) :
    (∃ c, commandOf op = some c ∧ usesIbuf c = true) ↔ op = 0x10#8 ∨ op = 0x11#8 := by
  constructor
  · rintro ⟨c, starts, reads⟩
    unfold commandOf at starts
    grind [usesIbuf]
  · rintro (rfl | rfl)
    · exact ⟨.stuff, rfl, rfl⟩
    · exact ⟨.destuff, rfl, rfl⟩

/-- R200: raising an error is all that the transaction does. -/
theorem Raises.exec {s : State} {i : Instr} {e : ErrCause} (raises : Raises s i e) :
    exec i s = .next (s.raise e) := by
  cases raises with
  | busy busy writes guard => exact exec_of_guarded busy writes guard
  | illegal idle writes reserved =>
    rw [exec_of_writtenOp writes, cmdWrite_of_idle _ idle, command_of_not_assigned reserved]
  | len idle writes stuffer long =>
    obtain ⟨c, starts, reads⟩ := (exists_usesIbuf_iff _).mpr stuffer
    rw [exec_of_writtenOp writes,
      cmdWrite_of_tooLong idle starts reads ((tooLong_eq_true_iff s).mpr long)]

theorem eq_of_raise_err {s : State} {e e' : ErrCause} (clear : s.err e' = false)
    (set : (s.raise e).err e' = true) : e = e' := by
  rw [raise_err, clear, Bool.false_or] at set
  exact beq_iff_eq.mp set

/-- The checks of a CMD write in R180's order: the busy guard, the opcode, the length. -/
theorem raises_of_cmdWrite {s : State} {i : Instr} {op : Byte} {e : ErrCause}
    (writes : writtenOp i = some op) (clear : s.err e = false)
    (set : (cmdWrite op s).err e = true) : Raises s i e := by
  cases busy : s.busy with
  | true =>
    rw [cmdWrite_of_busy op busy] at set
    obtain rfl := eq_of_raise_err clear set
    obtain ⟨a, address, toCmd⟩ := writeAddr_of_writtenOp writes
    exact .busy busy address (.inl toCmd)
  | false =>
    rw [cmdWrite_of_idle op busy] at set
    rcases command_cases op s with ⟨-, same⟩ | ⟨reserved, raised⟩ |
      ⟨c, starts, reads, long, raised⟩ | ⟨c, -, -, accepted⟩
    · rw [same, clear] at set
      cases set
    · rw [raised] at set
      obtain rfl := eq_of_raise_err clear set
      exact .illegal busy writes reserved
    · rw [raised] at set
      obtain rfl := eq_of_raise_err clear set
      exact .len busy writes ((exists_usesIbuf_iff op).mp ⟨c, starts, reads⟩)
        ((tooLong_eq_true_iff s).mp long)
    · rw [accepted, accept_err, clear] at set
      cases set

/-- Nothing raises an error but what R201, R202 and R203 list. -/
theorem raises_of_exec {s t : State} {i : Instr} {e : ErrCause} (ran : exec i s = .next t)
    (clear : s.err e = false) (set : t.err e = true) : Raises s i e := by
  cases writes : writtenOp i with
  | some op =>
    rw [exec_of_writtenOp writes] at ran
    cases ran
    exact raises_of_cmdWrite writes clear set
  | none =>
    cases i with
    | nop | crcGen | crcVerify | stuff | destuff | reserved op => cases writes
    | busRead a => cases ran; cases e <;> exact absurd (clear.symm.trans set) nofun
    | busWrite a v =>
      have notCmd : locate a ≠ .cmd := fun leads => by
        simp [writtenOp, (isCmdAddr_iff a).mpr ((locate_cmd_iff a).mp leads)] at writes
      cases guard : s.busy && guarded (locate a) with
      | true =>
        obtain ⟨busy, closed⟩ := Bool.and_eq_true_iff.mp guard
        have raises : Raises s (.busWrite a v) .busy := .busy busy rfl ((guarded_iff a).mp closed)
        rw [raises.exec] at ran
        cases ran
        obtain rfl := eq_of_raise_err clear set
        exact raises
      | false =>
        rw [exec_busWrite_of_open v rfl guard] at ran
        cases ran
        rw [writeLoc_err_of_clear notCmd clear] at set
        cases set

/-- R200: what raised an error did nothing else. -/
theorem eq_raise_of_exec {s t : State} {i : Instr} {e : ErrCause} (ran : exec i s = .next t)
    (clear : s.err e = false) (set : t.err e = true) : t = s.raise e := by
  rw [(raises_of_exec ran clear set).exec] at ran
  cases ran
  rfl

/-- Settles O17, from what clears an error bit and from `eq_raise_of_exec` at each of the three. -/
theorem errorsAreStickyAndPrecise : Obligations.ErrorsAreStickyAndPrecise :=
  ⟨fun _ _ _ => step_err_falls, fun _ _ _ => eq_raise_of_exec, fun _ _ _ => eq_raise_of_exec,
    fun _ _ _ => eq_raise_of_exec⟩

/-! ### Each error bit by its rule -/

/-- Every transaction is answered, and sets a clear error bit exactly when a rule says so. -/
theorem exists_exec_err_iff {s : State} {e : ErrCause} (clear : s.err e = false) (i : Instr) :
    ∃ t, exec i s = .next t ∧ (t.err e = true ↔ Raises s i e) ∧
      (t.err e = true → t = s.raise e) := by
  obtain ⟨t, ran, -⟩ := exec_effect i s
  refine ⟨t, ran, ⟨raises_of_exec ran clear, fun raises => ?_⟩, eq_raise_of_exec ran clear⟩
  rw [raises.exec] at ran
  cases ran
  rw [raise_err, beq_self_eq_true, Bool.or_true]

theorem raises_busy_iff (s : State) (i : Instr) :
    Raises s i .busy ↔ s.busy = true ∧ ∃ a, writeAddr i = some a ∧ guardedAddr a :=
  ⟨fun (.busy busy writes guard) => ⟨busy, _, writes, guard⟩,
    fun ⟨busy, _, writes, guard⟩ => .busy busy writes guard⟩

/-- Of the well-formed instructions, the reserved ones write the reserved opcodes (R92). -/
theorem writes_reserved_iff {i : Instr} (wf : i.wf = true) :
    (∃ op, writtenOp i = some op ∧ assignedOp op = false) ↔ ∃ op, i = .reserved op := by
  constructor
  · rintro ⟨op, writes, reserved⟩
    cases i with
    | nop | crcGen | crcVerify | stuff | destuff => cases writes; cases reserved
    | reserved op => exact ⟨op, rfl⟩
    | busRead a => cases writes
    | busWrite a v =>
      have notCmd : isCmdAddr a = false := by simpa [Instr.wf] using wf
      simp [writtenOp, notCmd] at writes
  · rintro ⟨op, rfl⟩
    exact ⟨op, rfl, by simpa [Instr.wf] using wf⟩

theorem raises_illegal_iff {i : Instr} (wf : i.wf = true) (s : State) :
    Raises s i .illegal ↔ s.busy = false ∧ ∃ op, i = .reserved op := by
  rw [← writes_reserved_iff wf]
  exact ⟨fun (.illegal idle writes reserved) => ⟨idle, _, writes, reserved⟩,
    fun ⟨idle, _, writes, reserved⟩ => .illegal idle writes reserved⟩

theorem raises_len_iff (s : State) (i : Instr) :
    Raises s i .len ↔ s.busy = false ∧ s.ibufBytes < s.ilen.toNat ∧
      (writtenOp i = some 0x10#8 ∨ writtenOp i = some 0x11#8) := by
  constructor
  · rintro (_ | _ | ⟨idle, writes, stuffer, long⟩)
    rcases stuffer with rfl | rfl
    · exact ⟨idle, long, .inl writes⟩
    · exact ⟨idle, long, .inr writes⟩
  · rintro ⟨idle, long, writes | writes⟩
    · exact .len idle writes (.inl rfl) long
    · exact .len idle writes (.inr rfl) long

/-- Settles O23: `exists_exec_err_iff` with R201's rule. -/
theorem errBusyIsRaisedExactlyByGuardedWrites :
    Obligations.ErrBusyIsRaisedExactlyByGuardedWrites := by
  intro s i clear
  rw [← raises_busy_iff]
  exact exists_exec_err_iff (e := .busy) clear i

/-- Settles O24: `exists_exec_err_iff` with R202's rule. -/
theorem errIllegalIsRaisedExactlyByReservedOpcodes :
    Obligations.ErrIllegalIsRaisedExactlyByReservedOpcodes := by
  intro s i wf clear
  rw [← raises_illegal_iff wf]
  exact exists_exec_err_iff (e := .illegal) clear i

/-- Settles O25: `exists_exec_err_iff` with R203's rule, and an empty input fits any IBUF. -/
theorem errLenIsRaisedExactlyByOverlongInput :
    Obligations.ErrLenIsRaisedExactlyByOverlongInput := by
  refine ⟨fun s i clear => ?_, fun s idle empty => ?_⟩
  · rw [← raises_len_iff]
    exact exists_exec_err_iff (e := .len) clear i
  · have fits : s.ilen.toNat ≤ s.ibufBytes := by simp [empty]
    exact ⟨exec_stuff_of_fits idle fits, exec_destuff_of_fits idle fits⟩

/-- Settles O26: a transaction that raises an error is that error's raise, which sets no other bit;
and while busy every CMD write is a guarded one. -/
theorem oneWriteRaisesAtMostOneError : Obligations.OneWriteRaisesAtMostOneError := by
  refine ⟨fun s t i e e' ran clear set clear' set' => ?_,
    fun s op busy => congrArg _ (cmdWrite_of_busy op busy),
    fun s busy _ => congrArg _ (cmdWrite_of_busy 0x10#8 busy)⟩
  obtain rfl := eq_raise_of_exec ran clear set
  exact eq_of_raise_err clear' set'

end Sys2Proof.Machine

/-! The reset step and what follows it, and a read that follows a write of its own location
(70_reset_and_hazards.md R230, R231, R238). -/

namespace Sys2Proof.Machine

/-! ### The state after the reset step (R230) -/

/-- OBUF after a reset: drawn anew if a STUFF or DESTUFF is cancelled, else kept (R231, log 7). -/
theorem resetStep_obufByte (s : State) (k : Nat) :
    s.resetStep.obufByte k =
      if s.stufferPending then Config.obufDraw (s.obufEpoch + 1) k else s.obufByte k := by
  rw [State.obufByte, resetStep_obuf, resetStep_obufEpoch]
  split <;> rfl

theorem stufferPending_iff (s : State) :
    s.stufferPending = true ↔ s.pending = some .stuff ∨ s.pending = some .destuff := by
  simp [State.stufferPending]

theorem resetStep_irq (s : State) : s.resetStep.irq = false := rfl

theorem readLoc_status_resetStep (s : State) : s.resetStep.readLoc .status = 0#32 := by
  refine BitVec.eq_of_getLsbD_eq fun i hi => ?_
  refine (statusWord_getLsbD_of_idle (resetStep_busy s) hi).trans ?_
  simp

/-- PARAM as one number, from its two halves (10_state.md R36). -/
theorem readLoc_param_toNat {s : State} (legal : Config.legalIbufBytes s.ibufBytes = true) :
    (s.readLoc .param).toNat = (2 * s.ibufBytes + 4) * 65536 + s.ibufBytes := by
  obtain ⟨low, high⟩ := readLoc_param_halves legal
  have range := (s.readLoc .param).isLt
  simp only [BitVec.extractLsb'_toNat, Nat.shiftRight_eq_div_pow, Nat.reducePow, Nat.div_one]
    at low high
  omega

/-- Settles O9: the fields by evaluation, OBUF by `resetStep_obufByte`, and the three reads on the
idle block that reset leaves. -/
theorem resetStepGivesTheResetValues : Obligations.ResetStepGivesTheResetValues := by
  intro s rest legal
  have reads {a : Addr} {l : Loc} (leads : locate a = l) :=
    exec_busRead_of_locate leads (readDraws_of_idle (resetStep_busy (s.withInputs rest)) l)
  refine ⟨(s.withInputs rest).resetStep, step_of_reset rfl, rfl, rfl, rfl, rfl, rfl, rfl, rfl, rfl,
    rfl, rfl, rfl, rfl, rfl, rfl, rfl, rfl, rfl, rfl, rfl, rfl, fun _ => rfl,
    fun notStuff notDestuff k => ?obuf, resetStep_irq _,
    ⟨_, reads (locate_status rfl), readLoc_status_resetStep _⟩,
    ⟨_, reads (locate_id rfl), rfl⟩,
    ⟨_, reads (locate_param rfl), readLoc_param_toNat legal⟩⟩
  case obuf =>
    have nothingCancelled : ¬ (s.withInputs rest).stufferPending = true := by
      rw [stufferPending_iff]
      exact not_or.mpr ⟨notStuff, notDestuff⟩
    exact (resetStep_obufByte _ k).trans (if_neg nothingCancelled)

/-! ### No completion after a cancelled command (R231) -/

/-- The Block's turns do nothing while no command is pending (60_exceptions.md R218). -/
theorem run_blockTurns_of_none {n : Nat} {s : State} (noCommand : s.pending = none)
    (turns : s.inputs = List.replicate n .block) :
    Sys2Proof.core.run n s = .next (s.withInputs []) := by
  induction n generalizing s with
  | zero =>
    have dry : s.inputs = [] := turns
    rw [State.withInputs, ← dry]
    rfl
  | succ n ih =>
    have stepped : step s = .next (s.withInputs (List.replicate n .block)) := by
      rw [step_of_block turns, blockTurn, withInputs_pending, noCommand]
    rw [run_succ_of_step stepped]
    exact ih noCommand rfl

/-- Settles O10: after the reset step nothing is pending, and the Block's turns are all idle. -/
theorem resetCancelsThePendingCommand : Obligations.ResetCancelsThePendingCommand := by
  intro s n
  refine ⟨(s.withInputs (List.replicate n .block)).resetStep, step_of_reset rfl,
    run_blockTurns_of_none rfl rfl, rfl, rfl, rfl, rfl, rfl, rfl, rfl, rfl, rfl, rfl,
    fun cancelled k => ?_⟩
  exact (resetStep_obufByte _ k).trans (if_pos ((stufferPending_iff s).mpr cancelled))

/-! ### What a location reads after a write of it (R238) -/

/-- Two words with the same four bytes are the same word (20_memory.md R64). -/
theorem eq_of_bytes {v w : Word}
    (bytes : ∀ j < 4, v.extractLsb' (8 * j) 8 = w.extractLsb' (8 * j) 8) : v = w := by
  refine BitVec.eq_of_getLsbD_eq fun i hi => ?_
  have bit := congrArg (·.getLsbD (i % 8)) (bytes (i / 8) (by omega))
  simpa [BitVec.getLsbD_extractLsb', Nat.mod_lt, Nat.div_add_mod] using bit

/-- A word under a mask of its n low bits. -/
theorem getLsbD_and_lowMask (v : Word) (n : Nat) {i : Nat} (hi : i < 32) :
    (v &&& BitVec.ofNat 32 (2 ^ n - 1)).getLsbD i = (v.getLsbD i && decide (i < n)) := by
  rw [BitVec.getLsbD_and, BitVec.getLsbD_ofNat, Nat.testBit_two_pow_sub_one, decide_eq_true hi,
    Bool.true_and]

theorem setWidth_extractLsb'_low (v : Word) (n : Nat) :
    (v.extractLsb' 0 n).setWidth 32 = v &&& BitVec.ofNat 32 (2 ^ n - 1) := by
  refine BitVec.eq_of_getLsbD_eq fun i hi => ?_
  rw [getLsbD_and_lowMask v n hi]
  simp [BitVec.getLsbD_extractLsb', hi, Bool.and_comm]

theorem readLoc_writeLoc_ctrl (s : State) (v : Word) :
    (s.writeLoc v .ctrl).readLoc .ctrl = v &&& 0x00000003#32 := by
  refine BitVec.eq_of_getLsbD_eq fun i hi => ?_
  refine (ctrlWord_getLsbD (s.setCtrl v) hi).trans (.trans ?_ (getLsbD_and_lowMask v 2 hi).symm)
  rw [setCtrl_ieDone, setCtrl_ieErr]
  match i with
  | 0 | 1 => simp
  | i + 2 => simp

/-- FRAMEk keeps the bits of a written word that lie inside the frame. -/
theorem readLoc_writeLoc_frameLoc_getLsbD (s : State) (v : Word) {k i : Nat} (hk : k < 4)
    (hi : i < 32) : ((s.writeLoc v (frameLoc k)).readLoc (frameLoc k)).getLsbD i =
      (v.getLsbD i && decide (32 * k + i < 100)) := by
  obtain ⟨f, write, bits⟩ := writeLoc_frameLoc s v hk
  rw [write, readLoc_frameLoc_getLsbD _ hk hi]
  by_cases inside : 32 * k + i < 100
  · rw [bits _ inside, if_pos (by omega), Nat.add_sub_cancel_left, decide_eq_true inside,
      Bool.and_true]
  · rw [BitVec.getLsbD_of_ge _ _ (by omega), decide_eq_false inside, Bool.and_false]

theorem readLoc_writeLoc_frameLoc (s : State) (v : Word) {k : Nat} (hk : k < 3) :
    (s.writeLoc v (frameLoc k)).readLoc (frameLoc k) = v := by
  refine BitVec.eq_of_getLsbD_eq fun i hi => ?_
  rw [readLoc_writeLoc_frameLoc_getLsbD s v (by omega) hi, decide_eq_true (by omega), Bool.and_true]

theorem readLoc_writeLoc_frame3 (s : State) (v : Word) :
    (s.writeLoc v .frame3).readLoc .frame3 = v &&& 0x0000000F#32 := by
  refine BitVec.eq_of_getLsbD_eq fun i hi => ?_
  refine (readLoc_writeLoc_frameLoc_getLsbD s v (k := 3) (by decide) hi).trans
    (.trans ?_ (getLsbD_and_lowMask v 4 hi).symm)
  have inside : 32 * 3 + i < 100 ↔ i < 4 := by omega
  rw [decide_eq_decide.mpr inside]

theorem readLoc_writeLoc_crcExpect (s : State) (v : Word) :
    (s.writeLoc v .crcExpect).readLoc .crcExpect = v &&& 0x0000FFFF#32 :=
  setWidth_extractLsb'_low v 16

theorem readLoc_writeLoc_ilen (s : State) (v : Word) :
    (s.writeLoc v .ilen).readLoc .ilen = v &&& 0x0000FFFF#32 :=
  setWidth_extractLsb'_low v 16

/-- A word of the window inside IBUF keeps all four bytes (20_memory.md R64). -/
theorem readLoc_writeLoc_ibuf {s : State} {w : Nat} (inside : 4 * w < s.ibufBytes) (v : Word) :
    (s.writeLoc v (.ibuf w)).readLoc (.ibuf w) = v := by
  have window : (s.writeIbufWord w v).readLoc (.ibuf w) = (s.writeIbufWord w v).ibufWord w :=
    if_pos (by rwa [writeIbufWord_ibufBytes])
  refine window.trans (eq_of_bytes fun j hj => ?_)
  have byte := ibufWord_byte (s.writeIbufWord w v) (p := 4 * w) (j := j) (by omega) hj
  rw [Nat.mul_div_cancel_left w (by decide)] at byte
  rw [byte, writeIbufWord_ibufByte, if_pos (by omega), Nat.add_sub_cancel_left]

/-! ### Two transactions in a row -/

/-- No location shows the schedule. -/
theorem readLoc_withInputs (s : State) (is : List Input) (l : Loc) :
    (s.withInputs is).readLoc l = s.readLoc l := by
  cases l <;> rfl

/-- A write that the busy guard lets through, then a read of the same address: the read returns what
the location holds after the write. -/
theorem run_write_read {s : State} {a : Addr} (v : Word) (rest : List Input)
    (opened : (s.busy && guarded (locate a)) = false) :
    ∃ t, Sys2Proof.core.run 2
        { s with inputs := .host (busWriteWord a v) :: .host (busReadWord a) :: rest } = .next t ∧
      t.inputs = rest ∧
      t.rdata = ((s.withInputs (.host (busReadWord a) :: rest)).writeLoc v
        (locate a)).readLoc (locate a) := by
  have written := (step_busWriteWord a v s (.host (busReadWord a) :: rest)).trans
    (exec_busWrite_of_open v rfl opened)
  have next := step_inputs written
  have read := (step_of_host next).trans (exec_decodeBus_busReadWord a _)
  exact ⟨_, (run_succ_of_step written).trans (run_succ_of_step read), rfl,
    readLoc_withInputs _ _ _⟩

/-- Only a CMD write that is accepted changes pending, and it makes the block busy. -/
theorem cmdWrite_busy_of_pending_ne {op : Byte} {s : State}
    (changed : (cmdWrite op s).pending ≠ s.pending) : (cmdWrite op s).busy = true := by
  rcases cmdWrite_cases op s with same | ⟨cause, raised⟩ | ⟨-, c, accepted⟩
  · exact absurd (congrArg (·.pending) same) changed
  · exact absurd ((congrArg (·.pending) raised).trans (raise_pending cause s)) changed
  · rw [accepted, accept_busy]

/-- Settles O33: CTRL is not guarded and an idle block guards nothing, so that the write takes
effect; then location by location. STATUS shows the acceptance in BUSY. -/
theorem readAfterWriteReturnsTheValue : Obligations.ReadAfterWriteReturnsTheValue := by
  refine ⟨fun s a v rest notBlocked => ?_, fun s t v _ ran changed => ?_⟩
  · have opened : (s.busy && guarded (locate a)) = false := by
      rcases notBlocked with idle | ctrl
      · rw [idle, Bool.false_and]
      · rw [locate_ctrl ctrl]
        exact Bool.and_false _
    obtain ⟨t, twoSteps, left, value⟩ := run_write_read v rest opened
    refine ⟨t, twoSteps, left, fun ctrl => ?ctrl, fun frame => ?frame, fun frame3 => ?frame3,
      fun half => ?half, fun low high inside => ?ibuf⟩ <;> rw [value]
    case ctrl => rw [locate_ctrl ctrl, readLoc_writeLoc_ctrl]
    case frame =>
      obtain ⟨k, hk, offset⟩ : ∃ k < 3, wordOffset a = 0x0010 + 4 * k := by
        rcases frame with offset | offset | offset
        · exact ⟨0, by decide, offset⟩
        · exact ⟨1, by decide, offset⟩
        · exact ⟨2, by decide, offset⟩
      rw [locate_frame (by omega) offset, readLoc_writeLoc_frameLoc _ v hk]
    case frame3 => rw [locate_frame3 frame3, readLoc_writeLoc_frame3]
    case half =>
      rcases half with expect | ilen
      · rw [locate_crcExpect expect, readLoc_writeLoc_crcExpect]
      · rw [locate_ilen ilen, readLoc_writeLoc_ilen]
    case ibuf =>
      rw [locate_ibuf low high, readLoc_writeLoc_ibuf]
      rw [withInputs_ibufBytes]
      omega
  · rw [exec_busWrite_cmd v s rfl] at ran
    cases ran
    obtain ⟨u, read, bit⟩ := exec_busRead_status_busy (cmdWrite (cmdOp v) s)
    exact ⟨u, read, bit.trans (cmdWrite_busy_of_pending_ne changed)⟩

end Sys2Proof.Machine
